-- ==== Sys2Proof/Word.lean ====
section
/-! DEFINITION. The word types of the 80386 (10_state.md R10, R16; 20_memory.md R60; widths by D4). -/

namespace Sys2Proof

/-- A byte, the unit of memory (20 R60). -/
abbrev Byte := BitVec 8

/-- A 32-bit register, linear address or physical address (10 R10, 20 R60; D4). -/
abbrev Word := BitVec 32

/-- A selector, 16 bits ("16位selector", 10 R16). -/
abbrev Sel := BitVec 16

/-- A descriptor: its eight bytes, byte 0 in bits 7:0 (10 R31, R41). -/
abbrev Descriptor := BitVec 64

/-- Physical memory: listed bytes by physical address, in the canonical form `Machine.Memory.wf`. -/
abbrev Memory := List Host.Cell

end Sys2Proof
end

