-- ==== Sys2Proof/Config.lean ====
section
/-! DEFINITION. What the specification leaves as a parameter: fixed values (`def`) where a decision D<n> gives one, free values
(`opaque`, no body) where the point stays open. -/

namespace Sys2Proof

/-- Which access is translated (the argument `access` of 20 R71), and on whose behalf: the processor's own accesses to descriptor
tables and task state segments, or those of the running program at a privilege level (log 4). -/
inductive Access where
  | sysRead
  | sysWrite
  | progRead (cpl : BitVec 2)
  | progWrite (cpl : BitVec 2)
  | fetch (cpl : BitVec 2)
  deriving DecidableEq, Repr

/-- Every access kind: what `_` ranges over in the common-mapping rule (20 R74). -/
def Access.all : List Access :=
  [.sysRead, .sysWrite] ++ [0#2, 1#2, 2#2, 3#2].map .progRead ++ [0#2, 1#2, 2#2, 3#2].map .progWrite ++
    [0#2, 1#2, 2#2, 3#2].map .fetch

/-- `P_TRANSLATE` for `PG = 1` (20 R71, R78): the translation of a linear address, a function of the current page directory base and of
memory alone; `none` is a page fault. A free function (log 4). -/
opaque Config.translate : Word → Memory → Word → Access → Option Word

/-- `P_INT_GATE_DPL_CHECK` (42 R176, D25): OPEN in the spec, a free value (log 11). -/
opaque Config.intGateDplCheck : Bool

/-- What a page fault carries as an error code, if anything (60 R199: "not in source"), for the n-th free value of a run (log 7). -/
opaque Config.pageFaultCode : Nat → Option (BitVec 16)

/-- What a page fault leaves in CR2, a register of which the spec has the name alone (10 R49, 60 R197), for the n-th free value of a run and the
value before (log 32). -/
opaque Config.faultAddress : Nat → Word → Word

/-- What a debug exception leaves in DR6, likewise (10 R49, 60 R195; log 32). -/
opaque Config.debugStatus : Nat → Word → Word

/-- Which of several failing data segment registers is reported (41 R155, D28), for the n-th free value of a run (log 14). -/
opaque Config.segFaultChoice : Nat → Nat

/-- `P_LTR_MARKS_BUSY` (D14). -/
def Config.ltrMarksBusy : Bool := true

/-- `P_NULL_SEL_OK` (D18). -/
def Config.nullSelOk : Bool := true

/-- `P_ERRCODE_PUSH` (42 R182, D20): of the two choices the rule offers, the one that runs (log 10). -/
def Config.errcodePush : Bool := true

/-- `P_TSS_MIN_LIMIT` (10 R34). -/
def Config.tssMinLimit : Nat := 103

/-- How many bytes a fetch looks at: every offset of a code segment once, all of which may be prefixes but one, and room for the longest
instruction after its prefixes (8 bytes). No rule caps the length of an instruction (30 R98: "after any prefixes"; log 17). -/
def Config.fetchWindow : Nat := 2 ^ 32 + 16

/-- How many bytes a table word fills with the zero operand bytes after it: more than any row has (log 24). -/
def Config.tableWordBytes : Nat := 16

/-- What an address nothing has been written to reads as (10 R50 gives memory no reset value; log 3). -/
def Config.unwrittenByte : Byte := 0#8

end Sys2Proof
end

