-- ==== Sys2Proof/Syntax.lean ====
section
/-! DEFINITION. The instructions of `opcode_table.json` as data (30_encoding.md R90 to R94, R98), with every operand form and every
prefix the encoding has. -/

namespace Sys2Proof

/-- The eight general registers, in the order of 10 R10 (their numbers 0 to 7, 30 R91). -/
inductive Reg where
  | eax | ecx | edx | ebx | esp | ebp | esi | edi
  deriving DecidableEq, Repr

/-- The six segment registers, in the order of 10 R14. -/
inductive SReg where
  | es | cs | ss | ds | fs | gs
  deriving DecidableEq, Repr

/-- The prefix bytes of 30 R93: 66, 67, a segment override, F0, F2, F3 (log 17). -/
inductive Prefix where
  | opSize
  | addrSize
  | segment (s : SReg)
  | lock
  | repne
  | rep
  deriving DecidableEq, Repr

/-- The displacement of a 32-bit addressing form: absent, one byte or four bytes (30 R91). -/
inductive Disp32 where
  | none
  | d8 (d : BitVec 8)
  | d32 (d : BitVec 32)
  deriving DecidableEq, Repr

/-- The memory operand forms with 32-bit addressing (30 R91, log 16). -/
inductive Addr32 where
  /-- `[disp32]` -/
  | direct (d : BitVec 32)
  /-- `[base + disp]`, no SIB byte -/
  | base (b : Reg) (d : Disp32)
  /-- `[base + index * 2^scale + disp]`, a SIB byte; no index register when `index` is `none` -/
  | sib (b : Reg) (index : Option Reg) (scale : BitVec 2) (d : Disp32)
  /-- `[index * 2^scale + disp32]`, a SIB byte without a base register -/
  | sibDirect (index : Option Reg) (scale : BitVec 2) (d : BitVec 32)
  deriving DecidableEq, Repr

/-- The displacement of a 16-bit addressing form. -/
inductive Disp16 where
  | none
  | d8 (d : BitVec 8)
  | d16 (d : BitVec 16)
  deriving DecidableEq, Repr

/-- The base of a 16-bit addressing form, in the order of its `rm` number. -/
inductive Base16 where
  | bxSi | bxDi | bpSi | bpDi | si | di | bp | bx
  deriving DecidableEq, Repr

/-- The memory operand forms with 16-bit addressing (30 R91, log 16). -/
inductive Addr16 where
  | direct (d : BitVec 16)
  | base (b : Base16) (d : Disp16)
  deriving DecidableEq, Repr

/-- A memory operand. -/
inductive Mem where
  | a32 (a : Addr32)
  | a16 (a : Addr16)
  deriving DecidableEq, Repr

/-- The operand of LTR and STR: "a 16-bit selector located in memory or in a general register" (30 R90). -/
inductive RegMem where
  | reg (r : Reg)
  | mem (m : Mem)
  deriving DecidableEq, Repr

/-- The operand size of a far pointer in memory: m16:16 or m16:32 (30 R92, R93). -/
inductive OpSize where
  | s16 | s32
  deriving DecidableEq, Repr

/-- One constructor per row of `opcode_table.json`. `pre` is the list of prefix bytes as they stand before the opcode. -/
inductive Instr where
  /-- `LTR r/m16` (40 R110) -/
  | ltr (pre : List Prefix) (src : RegMem)
  /-- `STR r/m16` (40 R111) -/
  | str (pre : List Prefix) (dst : RegMem)
  /-- `JMP ptr16:32` (42 R171) -/
  | jmpPtr32 (pre : List Prefix) (off : BitVec 32) (sel : Sel)
  /-- `JMP ptr16:16` (42 R171) -/
  | jmpPtr16 (pre : List Prefix) (off : BitVec 16) (sel : Sel)
  /-- `JMP m16:32`, and `m16:16` with operand size 16 (42 R171) -/
  | jmpMem (pre : List Prefix) (size : OpSize) (op : Mem)
  /-- `CALL ptr16:32` (42 R172) -/
  | callPtr32 (pre : List Prefix) (off : BitVec 32) (sel : Sel)
  /-- `CALL ptr16:16` (42 R172) -/
  | callPtr16 (pre : List Prefix) (off : BitVec 16) (sel : Sel)
  /-- `CALL m16:32`, and `m16:16` with operand size 16 (42 R172) -/
  | callMem (pre : List Prefix) (size : OpSize) (op : Mem)
  /-- `IRET` (42 R174) -/
  | iret (pre : List Prefix)
  /-- `INT imm8` (42 R176) -/
  | intImm (pre : List Prefix) (n : BitVec 8)
  /-- `INT 3` (42 R176) -/
  | int3 (pre : List Prefix)
  /-- `INTO` (42 R176) -/
  | into (pre : List Prefix)
  deriving DecidableEq, Repr

/-- The prefixes of an instruction. -/
def Instr.pre : Instr → List Prefix
  | .ltr p _ | .str p _ | .jmpPtr32 p _ _ | .jmpPtr16 p _ _ | .jmpMem p _ _ | .callPtr32 p _ _ | .callPtr16 p _ _
  | .callMem p _ _ | .iret p | .intImm p _ | .int3 p | .into p => p

end Sys2Proof
end

