-- ==== Sys2Proof/Decode.lean ====
section
/-! DEFINITION. Decoding and encoding, by 30_encoding.md R91 to R98 and `opcode_table.json`. The decoder is total on any bytes and
rejects by name; the encoder is written from the same tables. `big` is the D bit of the code segment (log 18). -/

namespace Sys2Proof

/-! ### Prefixes and operand sizes (30 R93) -/

/-- The operand size is 32 bits: prefix 66 toggles the default. -/
def opSize32 (big : Bool) (pre : List Prefix) : Bool := big != pre.contains .opSize

/-- The address size is 32 bits: prefix 67 toggles the default. -/
def addrSize32 (big : Bool) (pre : List Prefix) : Bool := big != pre.contains .addrSize

def Prefix.byte : Prefix → Byte
  | .opSize => 0x66#8
  | .addrSize => 0x67#8
  | .segment .es => 0x26#8
  | .segment .cs => 0x2E#8
  | .segment .ss => 0x36#8
  | .segment .ds => 0x3E#8
  | .segment .fs => 0x64#8
  | .segment .gs => 0x65#8
  | .lock => 0xF0#8
  | .repne => 0xF2#8
  | .rep => 0xF3#8

/-- The prefix a byte is, if any. -/
def prefixOfByte (b : Byte) : Option Prefix :=
  if b = 0x66#8 then some .opSize
  else if b = 0x67#8 then some .addrSize
  else if b = 0x26#8 then some (.segment .es)
  else if b = 0x2E#8 then some (.segment .cs)
  else if b = 0x36#8 then some (.segment .ss)
  else if b = 0x3E#8 then some (.segment .ds)
  else if b = 0x64#8 then some (.segment .fs)
  else if b = 0x65#8 then some (.segment .gs)
  else if b = 0xF0#8 then some .lock
  else if b = 0xF2#8 then some .repne
  else if b = 0xF3#8 then some .rep
  else none

/-- The leading prefix bytes, and the bytes after them. -/
def takePrefixes : List Byte → List Prefix × List Byte
  | [] => ([], [])
  | b :: bs =>
    match prefixOfByte b with
    | some p => (p :: (takePrefixes bs).1, (takePrefixes bs).2)
    | none => ([], b :: bs)

/-! ### Register numbers (30 R91, 10 R10) -/

def Reg.num : Reg → BitVec 3
  | .eax => 0 | .ecx => 1 | .edx => 2 | .ebx => 3 | .esp => 4 | .ebp => 5 | .esi => 6 | .edi => 7

def regOfNum (n : BitVec 3) : Reg :=
  if n = 0 then .eax else if n = 1 then .ecx else if n = 2 then .edx else if n = 3 then .ebx
  else if n = 4 then .esp else if n = 5 then .ebp else if n = 6 then .esi else .edi

def Base16.num : Base16 → BitVec 3
  | .bxSi => 0 | .bxDi => 1 | .bpSi => 2 | .bpDi => 3 | .si => 4 | .di => 5 | .bp => 6 | .bx => 7

def base16OfNum (n : BitVec 3) : Base16 :=
  if n = 0 then .bxSi else if n = 1 then .bxDi else if n = 2 then .bpSi else if n = 3 then .bpDi
  else if n = 4 then .si else if n = 5 then .di else if n = 6 then .bp else .bx

/-- The index register number of a SIB byte; 4 means none (log 16). -/
def indexNum : Option Reg → BitVec 3
  | none => 4
  | some r => r.num

def indexOfNum (n : BitVec 3) : Option Reg := if n = 4 then none else some (regOfNum n)

/-! ### Byte order of immediates and displacements (20 R62, 30 R92) -/

def bytes2 (v : BitVec 16) : List Byte := [v.extractLsb' 0 8, v.extractLsb' 8 8]

def bytes4 (v : BitVec 32) : List Byte :=
  [v.extractLsb' 0 8, v.extractLsb' 8 8, v.extractLsb' 16 8, v.extractLsb' 24 8]

def of2 (b0 b1 : Byte) : BitVec 16 := b1 ++ b0

def of4 (b0 b1 b2 b3 : Byte) : BitVec 32 := b3 ++ b2 ++ b1 ++ b0

/-- Takes a 2-byte little-endian value. -/
def take2 : List Byte → Option (BitVec 16 × List Byte)
  | b0 :: b1 :: bs => some (of2 b0 b1, bs)
  | _ => none

/-- Takes a 4-byte little-endian value. -/
def take4 : List Byte → Option (BitVec 32 × List Byte)
  | b0 :: b1 :: b2 :: b3 :: bs => some (of4 b0 b1 b2 b3, bs)
  | _ => none

/-- Takes one byte. -/
def take1 : List Byte → Option (Byte × List Byte)
  | b :: bs => some (b, bs)
  | [] => none

/-! ### ModRM and SIB (30 R91) -/

/-- `mod[7:6] reg[5:3] rm[2:0]`; a SIB byte has the same three fields: scale, index, base. -/
def packByte (hi : BitVec 2) (mid lo : BitVec 3) : Byte := hi ++ mid ++ lo

def modOf (b : Byte) : BitVec 2 := b.extractLsb' 6 2
def regOf (b : Byte) : BitVec 3 := b.extractLsb' 3 3
def rmOf (b : Byte) : BitVec 3 := b.extractLsb' 0 3

def Disp32.mod : Disp32 → BitVec 2
  | .none => 0
  | .d8 _ => 1
  | .d32 _ => 2

def Disp32.bytes : Disp32 → List Byte
  | .none => []
  | .d8 d => [d]
  | .d32 d => bytes4 d

def Disp16.mod : Disp16 → BitVec 2
  | .none => 0
  | .d8 _ => 1
  | .d16 _ => 2

def Disp16.bytes : Disp16 → List Byte
  | .none => []
  | .d8 d => [d]
  | .d16 d => bytes2 d

/-- The displacement that `mod` 0, 1 or 2 calls for. -/
def takeDisp32 (mod : BitVec 2) (bs : List Byte) : Option (Disp32 × List Byte) :=
  if mod = 0 then some (.none, bs)
  else if mod = 1 then (take1 bs).map fun (d, r) => (.d8 d, r)
  else (take4 bs).map fun (d, r) => (.d32 d, r)

def takeDisp16 (mod : BitVec 2) (bs : List Byte) : Option (Disp16 × List Byte) :=
  if mod = 0 then some (.none, bs)
  else if mod = 1 then (take1 bs).map fun (d, r) => (.d8 d, r)
  else (take2 bs).map fun (d, r) => (.d16 d, r)

/-- A SIB byte and what follows it. -/
def takeSib (mod : BitVec 2) (bs : List Byte) : Option (Addr32 × List Byte) :=
  match bs with
  | [] => none
  | sib :: rest =>
    if rmOf sib = 5 ∧ mod = 0 then
      (take4 rest).map fun (d, r) => (.sibDirect (indexOfNum (regOf sib)) (modOf sib) d, r)
    else
      (takeDisp32 mod rest).map fun (d, r) => (.sib (regOfNum (rmOf sib)) (indexOfNum (regOf sib)) (modOf sib) d, r)

def takeAddr32 (mod : BitVec 2) (rm : BitVec 3) (bs : List Byte) : Option (Addr32 × List Byte) :=
  if rm = 4 then takeSib mod bs
  else if rm = 5 ∧ mod = 0 then (take4 bs).map fun (d, r) => (.direct d, r)
  else (takeDisp32 mod bs).map fun (d, r) => (.base (regOfNum rm) d, r)

def takeAddr16 (mod : BitVec 2) (rm : BitVec 3) (bs : List Byte) : Option (Addr16 × List Byte) :=
  if rm = 6 ∧ mod = 0 then (take2 bs).map fun (d, r) => (.direct d, r)
  else (takeDisp16 mod bs).map fun (d, r) => (.base (base16OfNum rm) d, r)

/-- The memory operand after a ModRM byte whose `mod` is not 3. -/
def takeMem (addr32 : Bool) (modrm : Byte) (bs : List Byte) : Option (Mem × List Byte) :=
  if addr32 then (takeAddr32 (modOf modrm) (rmOf modrm) bs).map fun (a, r) => (.a32 a, r)
  else (takeAddr16 (modOf modrm) (rmOf modrm) bs).map fun (a, r) => (.a16 a, r)

/-- The operand of LTR and STR after the ModRM byte: `mod = 11` names a register. -/
def takeRegMem (addr32 : Bool) (modrm : Byte) (bs : List Byte) : Option (RegMem × List Byte) :=
  if modOf modrm = 3 then some (.reg (regOfNum (rmOf modrm)), bs)
  else (takeMem addr32 modrm bs).map fun (m, r) => (.mem m, r)

/-- The bytes of a memory operand: ModRM with `n` in its `reg` field, SIB, displacement. -/
def Mem.bytes (n : BitVec 3) : Mem → List Byte
  | .a32 (.direct d) => packByte 0 n 5 :: bytes4 d
  | .a32 (.base b d) => packByte d.mod n b.num :: d.bytes
  | .a32 (.sib b i sc d) => packByte d.mod n 4 :: packByte sc (indexNum i) b.num :: d.bytes
  | .a32 (.sibDirect i sc d) => packByte 0 n 4 :: packByte sc (indexNum i) 5 :: bytes4 d
  | .a16 (.direct d) => packByte 0 n 6 :: bytes2 d
  | .a16 (.base b d) => packByte d.mod n b.num :: d.bytes

def RegMem.bytes (n : BitVec 3) : RegMem → List Byte
  | .reg r => [packByte 3 n r.num]
  | .mem m => m.bytes n

/-! ### The decoder (30 R94, R96) -/

/-- Why a byte sequence is no instruction of the table (30 R96). -/
inductive DecodeError where
  /-- `FF /3` or `FF /5` with `mod = 11`: the machine raises the invalid-opcode exception -/
  | farPointerInRegister
  /-- another member of the `0F 00` or `FF` group, named by its `reg` field (SLDT, LLDT, INC, PUSH and so on) -/
  | otherGroupMember (opcode : Byte) (ext : BitVec 3)
  /-- an opcode that is no row of the table -/
  | otherOpcode (opcode : Byte)
  /-- a two-byte opcode that is no row of the table -/
  | otherOpcode0F (opcode : Byte)
  /-- prefixes all around the code segment, and no opcode: no row of the table (log 17) -/
  | onlyPrefixes
  deriving DecidableEq, Repr

/-- What decoding answers: an instruction and the bytes after it, "more bytes are needed", or a rejection by name. -/
inductive Decoded where
  | ok (i : Instr) (rest : List Byte)
  | short
  | reject (e : DecodeError)
  deriving DecidableEq, Repr

/-- An operand, or "more bytes are needed". -/
def orShort {α : Type} (o : Option (α × List Byte)) (f : α → Instr) : Decoded :=
  match o with
  | none => .short
  | some (a, rest) => .ok (f a) rest

/-- The `0F 00` group: `/3` LTR, `/1` STR. -/
def decode0F00 (big : Bool) (pre : List Prefix) (bs : List Byte) : Decoded :=
  match bs with
  | [] => .short
  | modrm :: rest =>
    if regOf modrm = 3 then orShort (takeRegMem (addrSize32 big pre) modrm rest) (.ltr pre)
    else if regOf modrm = 1 then orShort (takeRegMem (addrSize32 big pre) modrm rest) (.str pre)
    else .reject (.otherGroupMember 0x00#8 (regOf modrm))

/-- The size of a far pointer in memory. -/
def farSize (big : Bool) (pre : List Prefix) : OpSize := if opSize32 big pre then .s32 else .s16

/-- The `FF` group: `/5` JMP far, `/3` CALL far, memory operands only (30 R96). -/
def decodeFF (big : Bool) (pre : List Prefix) (bs : List Byte) : Decoded :=
  match bs with
  | [] => .short
  | modrm :: rest =>
    if regOf modrm = 5 ∨ regOf modrm = 3 then
      if modOf modrm = 3 then .reject .farPointerInRegister
      else if regOf modrm = 5 then
        orShort (takeMem (addrSize32 big pre) modrm rest) (.jmpMem pre (farSize big pre))
      else orShort (takeMem (addrSize32 big pre) modrm rest) (.callMem pre (farSize big pre))
    else .reject (.otherGroupMember 0xFF#8 (regOf modrm))

/-- A far pointer in the instruction: offset, then selector (30 R92). -/
def takeFar32 (bs : List Byte) : Option ((BitVec 32 × Sel) × List Byte) :=
  match take4 bs with
  | none => none
  | some (off, r) => (take2 r).map fun (sel, r') => ((off, sel), r')

def takeFar16 (bs : List Byte) : Option ((BitVec 16 × Sel) × List Byte) :=
  match take2 bs with
  | none => none
  | some (off, r) => (take2 r).map fun (sel, r') => ((off, sel), r')

/-- An instruction after its prefixes. -/
def decodeBody (big : Bool) (pre : List Prefix) (bs : List Byte) : Decoded :=
  match bs with
  | [] => .short
  | op :: rest =>
    if op = 0x0F#8 then
      match rest with
      | [] => .short
      | op2 :: rest2 => if op2 = 0x00#8 then decode0F00 big pre rest2 else .reject (.otherOpcode0F op2)
    else if op = 0xEA#8 then
      if opSize32 big pre then orShort (takeFar32 rest) fun p => .jmpPtr32 pre p.1 p.2
      else orShort (takeFar16 rest) fun p => .jmpPtr16 pre p.1 p.2
    else if op = 0x9A#8 then
      if opSize32 big pre then orShort (takeFar32 rest) fun p => .callPtr32 pre p.1 p.2
      else orShort (takeFar16 rest) fun p => .callPtr16 pre p.1 p.2
    else if op = 0xFF#8 then decodeFF big pre rest
    else if op = 0xCF#8 then .ok (.iret pre) rest
    else if op = 0xCD#8 then orShort (take1 rest) (.intImm pre)
    else if op = 0xCC#8 then .ok (.int3 pre) rest
    else if op = 0xCE#8 then .ok (.into pre) rest
    else .reject (.otherOpcode op)

/-! ### The encoder (30 R92, R94) -/

/-- The opcode and operand bytes of an instruction, after its prefixes. -/
def encodeBody : Instr → List Byte
  | .ltr _ o => 0x0F#8 :: 0x00#8 :: o.bytes 3
  | .str _ o => 0x0F#8 :: 0x00#8 :: o.bytes 1
  | .jmpPtr32 _ off sel => 0xEA#8 :: (bytes4 off ++ bytes2 sel)
  | .jmpPtr16 _ off sel => 0xEA#8 :: (bytes2 off ++ bytes2 sel)
  | .jmpMem _ _ m => 0xFF#8 :: m.bytes 5
  | .callPtr32 _ off sel => 0x9A#8 :: (bytes4 off ++ bytes2 sel)
  | .callPtr16 _ off sel => 0x9A#8 :: (bytes2 off ++ bytes2 sel)
  | .callMem _ _ m => 0xFF#8 :: m.bytes 3
  | .iret _ => [0xCF#8]
  | .intImm _ n => [0xCD#8, n]
  | .int3 _ => [0xCC#8]
  | .into _ => [0xCE#8]

/-- The bytes of an instruction, in address order. -/
def encode (i : Instr) : List Byte := i.pre.map Prefix.byte ++ encodeBody i

/-- The length of an instruction in bytes; `next_eip` is EIP plus it (10 R11). -/
def Instr.length (i : Instr) : Nat := (encode i).length

/-- An instruction and the rest, from the bytes at the instruction pointer on: the row its bytes select after any prefixes, however many
(30 R98; log 17). -/
def decode (big : Bool) (bs : List Byte) : Decoded := decodeBody big (takePrefixes bs).1 (takePrefixes bs).2

/-! ### Words as `opcode_table.json` numbers them (log 24) -/

/-- The `n` bytes of a number, first byte most significant: how the table's `fixed` and `fields` number a row (30 R98: "first byte
leftmost", read as one number). -/
def bytesHighFirst : Nat → Nat → List Byte
  | 0, _ => []
  | n + 1, w => BitVec.ofNat 8 (w / 256 ^ n) :: bytesHighFirst n w

/-- The `n` bytes of a number, first byte least significant. -/
def bytesLowFirst : Nat → Nat → List Byte
  | 0, _ => []
  | n + 1, w => BitVec.ofNat 8 w :: bytesLowFirst n (w / 256)

/-- Zero bytes after a word, as long as the longest operands. -/
def zeroBytes : List Byte := List.replicate Config.tableWordBytes 0x00#8

/-- The bytes of a table word as they stand in memory, zero operand bytes after them: in the table's own numbering if the decoder
takes an instruction from them, else with bit 0 in the first byte. -/
def tableBytes (nbits w : Nat) : List Byte :=
  let high := (bytesHighFirst (nbits / 8) w ++ zeroBytes).take Config.tableWordBytes
  match decode true high with
  | .ok _ _ => high
  | _ => (bytesLowFirst (nbits / 8) w ++ zeroBytes).take Config.tableWordBytes

/-- The instruction the decoder reads from a table word, in a 32-bit code segment. -/
def decodeTableWord (nbits w : Nat) : Option Instr :=
  match decode true (tableBytes nbits w) with
  | .ok i _ => some i
  | _ => none

end Sys2Proof
end

