-- ==== Sys2Proof/Machine/State.lean ====
section
/-! DEFINITION. The state of the machine as plain data (10_state.md), the exceptions it raises (60_exceptions.md), the reasons a step
can stop, and the state the model starts from (log 1: the spec gives no reset value but TR.valid). -/

namespace Sys2Proof.Machine

/-- The eight general registers (10 R10). -/
structure Gprs where
  eax : Word
  ecx : Word
  edx : Word
  ebx : Word
  esp : Word
  ebp : Word
  esi : Word
  edi : Word
  deriving DecidableEq, Repr

/-- The invisible part of a segment register: base, effective limit and access byte of its descriptor (10 R14), the D bit
(30 R93, log 18), and whether it can be used (41 R154; log 15). -/
structure SegCache where
  usable : Bool
  base : Word
  limit : Word
  access : Byte
  big : Bool
  deriving DecidableEq, Repr

/-- A segment register: visible selector, invisible part (10 R14). -/
structure SegReg where
  sel : Sel
  cache : SegCache
  deriving DecidableEq, Repr

/-- The six segment registers (10 R14). -/
structure Segs where
  es : SegReg
  cs : SegReg
  ss : SegReg
  ds : SegReg
  fs : SegReg
  gs : SegReg
  deriving DecidableEq, Repr

/-- `GDT.base`, `GDT.limit` or `IDT.base`, `IDT.limit` (10 R18, log 25). -/
structure TableReg where
  base : Word
  limit : BitVec 16
  deriving DecidableEq, Repr

/-- `LDTR.sel`, `LDT.base`, `LDT.limit` (10 R19); `usable` is false when the task has no LDT (41 R154). -/
structure LdtReg where
  sel : Sel
  usable : Bool
  base : Word
  limit : Word
  deriving DecidableEq, Repr

/-- `TR.sel`, `TR.base`, `TR.limit` (10 R39) and `TR.valid` (70 R233). -/
structure TaskReg where
  valid : Bool
  sel : Sel
  base : Word
  limit : Word
  deriving DecidableEq, Repr

/-- The debug registers, "shared by all tasks" (60 R213, 10 R49); their names and widths are the family's (log 32). -/
structure DebugRegs where
  dr0 : Word
  dr1 : Word
  dr2 : Word
  dr3 : Word
  dr6 : Word
  dr7 : Word
  deriving DecidableEq, Repr

/-- The test registers, "shared by all tasks" (60 R213, 10 R49); their names and widths are the family's (log 32). -/
structure TestRegs where
  tr6 : Word
  tr7 : Word
  deriving DecidableEq, Repr

/-- The whole machine. -/
structure State where
  /-- EAX to EDI (10 R10) -/
  regs : Gprs
  /-- EIP, an offset in CS (10 R11) -/
  eip : Word
  /-- EFLAGS (10 R12) -/
  eflags : Word
  /-- CPL (10 R15) -/
  cpl : BitVec 2
  /-- ES, CS, SS, DS, FS, GS (10 R14) -/
  segs : Segs
  /-- CR0: MSW is its low half, TS its bit 3, PG its bit 31 (10 R13, R19) -/
  cr0 : Word
  /-- PDBR, CR3 (10 R19) -/
  pdbr : Word
  /-- CR2, the other control register of 10 R49 (log 32) -/
  cr2 : Word
  /-- the debug registers (60 R213) -/
  debugRegs : DebugRegs
  /-- the test registers (60 R213) -/
  testRegs : TestRegs
  /-- the GDT register (10 R18) -/
  gdt : TableReg
  /-- the IDT register (10 R18) -/
  idt : TableReg
  /-- the LDT register (10 R19) -/
  ldtr : LdtReg
  /-- the task register (10 R39) -/
  tr : TaskReg
  /-- physical memory (20 R60) -/
  mem : Memory
  /-- external interrupts the environment presents, one entry per instruction boundary (60 R201, 10 R46 e; log 13) -/
  extInts : List (Option (BitVec 8))
  /-- the T-bit debug trap of the last switch is still to be delivered (41 R157; log 12) -/
  debugPending : Bool
  /-- how many free values have been used: the model's own counter (log 14) -/
  choices : Nat
  deriving DecidableEq, Repr

/-- The exceptions of 60 R191 to R197, and the invalid-opcode exception of 30 R96. -/
inductive Exc where
  | np | gp | ts | sf | debug | pageFault | invalidOpcode
  deriving DecidableEq, Repr

/-- In which context an exception is delivered (60 R190): before the instruction (LTR and operand accesses), in the outgoing task
with nothing changed, or in the incoming task after the loads. -/
inductive Context where
  | before | outgoing | incoming
  deriving DecidableEq, Repr

/-- `raise X(ec) in context` (60 R190); no error code where the exception has none. -/
structure Raise where
  exc : Exc
  code : Option (BitVec 16)
  ctx : Context
  deriving DecidableEq, Repr

/-- Why the machine stops. Both are the terminal outcomes of 60 R190; the state is the one the exception is raised in, so that the
saved EIP of R190 is its `eip`. -/
inductive Fault where
  /-- Raised by `deliver`: the exception's IDT entry is no task gate (or lies outside the IDT), and delivery through it is outside the
  spec (42 R179, 60 R190). Safe: the machine goes on, the model stops. -/
  | raised (r : Raise) (s : State)
  /-- Raised by `deliver`: a second exception while the first is being delivered (60 R205, U13; log 9). Safe: the machine goes on
  to a double fault or to the second handler, the model stops. -/
  | raisedDuringDelivery (first second : Raise) (s : State)
  deriving DecidableEq, Repr

/-- Why a step has no meaning. Each is safe: the model stops where the machine goes on. -/
inductive Refusal where
  /-- an arm of `exec` that has no meaning yet -/
  | notModelled (mnemonic : String)
  /-- by `step`: the bytes at CS:EIP are no row of the table (30 R96) -/
  | undecodable (e : DecodeError)
  /-- by STR and every task switch: TR has never been loaded (70 R233, D22, U6) -/
  | trNeverLoaded
  /-- by far JMP and CALL: a null selector, "outside this spec" (42 R170) -/
  | farNullSelector
  /-- by far JMP and CALL: a selector outside its table, "outside this spec" (42 R170) -/
  | farSelectorOutOfBounds
  /-- by far JMP and CALL: neither a TSS descriptor nor a task gate, "outside this spec" (42 R170, 00 R5 b) -/
  | farTargetNotTask
  /-- by IRET with NT = 0: the return within a task, "outside this spec" (42 R175, 00 R5 b) -/
  | iretWithinTask
  /-- by the interrupt instruction and external interrupts: no task gate in the IDT entry, "outside this spec" (42 R179, 00 R5 b) -/
  | idtEntryNotTaskGate (vector : BitVec 8)
  /-- by the interrupt instruction and external interrupts: the entry lies beyond IDT.limit, a check "outside the source" (60 R200;
  log 21) -/
  | idtEntryOutOfBounds (vector : BitVec 8)
  /-- by a task switch: G = 1 and raw LIMIT below 103, where the two readings of test 3 differ (41 R131, D15, U7) -/
  | tssLimitReadingsDiffer
  /-- by a task switch: the incoming EFLAGS image has VM = 1 (41 R142, D32, U10) -/
  | virtual8086Image
  /-- by a task switch: a page is missing after the first byte the switch touches (20 R68, D24, U2; log 5) -/
  | pageFaultPartWay
  /-- by a task switch: a TSS or the GDT is mapped differently by the two page directories (20 R74, D23, U1; log 6) -/
  | mappingNotCommon
  deriving DecidableEq, Repr

/-- A flat 4 GiB segment of level 0 with the given access byte, 32-bit (log 1). -/
def SegCache.flat (access : Byte) : SegCache :=
  { usable := true, base := 0, limit := 0xFFFFFFFF, access := access, big := true }

/-- The state the model starts from. The spec does not describe reset (10 R50, 70 R230, R231): only `TR.valid = false` is stated
(70 R233); every other value is the model's, log 1, log 12, log 13, log 14, log 21 and log 32. -/
def State.reset : State where
  regs := { eax := 0, ecx := 0, edx := 0, ebx := 0, esp := 0, ebp := 0, esi := 0, edi := 0 }
  eip := 0
  eflags := 0x00000002
  cpl := 0
  segs :=
    { es := { sel := 0, cache := .flat 0x92 }, cs := { sel := 0, cache := .flat 0x9A }
      ss := { sel := 0, cache := .flat 0x92 }, ds := { sel := 0, cache := .flat 0x92 }
      fs := { sel := 0, cache := .flat 0x92 }, gs := { sel := 0, cache := .flat 0x92 } }
  cr0 := 0
  pdbr := 0
  cr2 := 0
  debugRegs := { dr0 := 0, dr1 := 0, dr2 := 0, dr3 := 0, dr6 := 0xFFFF1FF0, dr7 := 0x00000400 }
  testRegs := { tr6 := 0, tr7 := 0 }
  gdt := { base := 0, limit := 0 }
  idt := { base := 0, limit := 0x07FF }
  ldtr := { sel := 0, usable := false, base := 0, limit := 0 }
  tr := { valid := false, sel := 0, base := 0, limit := 0 }
  mem := []
  extInts := []
  debugPending := false
  choices := 0

end Sys2Proof.Machine
end

