-- ==== Sys2Proof/Machine/Flags.lean ====
section
/-! DEFINITION. The flags and control bits the spec names: NT, OF and VM of EFLAGS, TS of the MSW, PG of CR0 (10_state.md R12, R13,
R19; 42 R176; 41 R142; D10), with the adjustments a task switch makes to them (41 R133, R139, R143, R144, R156). -/

namespace Sys2Proof.Machine

/-- NT, bit 14 of EFLAGS: the back-link of the current TSS is valid (10 R12). -/
def flagNt (f : Word) : Bool := f.getLsbD 14

/-- The overflow flag, bit 11 of EFLAGS (42 R176). -/
def flagOf (f : Word) : Bool := f.getLsbD 11

/-- VM, bit 17 of EFLAGS (41 R142). -/
def flagVm (f : Word) : Bool := f.getLsbD 17

/-- EFLAGS with NT set. -/
def setNt (f : Word) : Word := f ||| 0x00004000#32

/-- EFLAGS with NT cleared. -/
def clearNt (f : Word) : Word := f &&& 0xFFFFBFFF#32

/-- TS, bit 3 of the MSW (10 R13). -/
def State.ts (s : State) : Bool := s.cr0.getLsbD 3

/-- The MSW, the low half of CR0 (10 R13). -/
def State.msw (s : State) : BitVec 16 := s.cr0.extractLsb' 0 16

/-- PG, bit 31 of CR0: paging is enabled (10 R19). -/
def State.pg (s : State) : Bool := s.cr0.getLsbD 31

/-- CR0 with TS set (41 R139). -/
def setTs (c : Word) : Word := c ||| 0x00000008#32

/-- What caused a task switch (41 R121): `int` is the interrupt instruction, an external interrupt or an exception. -/
inductive Cause where
  | jmp | call | int | iret
  deriving DecidableEq, Repr

/-- The flags image saved in the outgoing TSS: NT cleared by IRET only (41 R133; Table 7-2 row 4). -/
def savedFlags (c : Cause) (f : Word) : Word :=
  match c with
  | .iret => clearNt f
  | .jmp | .call | .int => f

/-- EFLAGS of the incoming task from its image: NT set by CALL and INT (41 R143), cleared by JMP (R144), kept by IRET (R156). -/
def loadedFlags (c : Cause) (f : Word) : Word :=
  match c with
  | .call | .int => setNt f
  | .jmp => clearNt f
  | .iret => f

/-- The outgoing task is taken off the chain, so its busy bit is cleared (41 R133, R162). -/
def clearsOutgoingBusy : Cause → Bool
  | .jmp | .iret => true
  | .call | .int => false

/-- The incoming task's busy bit must be 0 before and is set (41 R129, R138); for IRET it must be 1 and stays (R130). -/
def setsIncomingBusy : Cause → Bool
  | .jmp | .call | .int => true
  | .iret => false

/-- The back-link of the incoming TSS is written (41 R145). -/
def writesBackLink : Cause → Bool
  | .call | .int => true
  | .jmp | .iret => false

end Sys2Proof.Machine
end

