-- ==== Sys2Proof/Machine/Memory.lean ====
section
/-! DEFINITION. Physical memory in canonical form, translation, and the linear accesses `LinRead`, `LinWrite`, `LockedRMW`
(20_memory.md R60 to R64, R71, R80; 00_scope.md section 5). -/

namespace Sys2Proof.Machine

/-! ### Physical memory (log 3) -/

/-- The byte at a physical address. -/
def Memory.read : Memory → Nat → Byte
  | [], _ => Config.unwrittenByte
  | (k, b) :: m, a => if k = a then b else Memory.read m a

/-- Memory with one byte written, in canonical form if it was. -/
def Memory.write : Memory → Nat → Byte → Memory
  | [], a, b => if b = Config.unwrittenByte then [] else [(a, b)]
  | (k, c) :: m, a, b =>
    if k < a then (k, c) :: Memory.write m a b
    else if k = a then (if b = Config.unwrittenByte then m else (a, b) :: m)
    else if b = Config.unwrittenByte then (k, c) :: m
    else (a, b) :: (k, c) :: m

/-- Every listed address is at least `lo` and below 2^32, addresses rise strictly, and no listed byte is what an unlisted address
reads as. -/
def Memory.wfFrom : Nat → Memory → Bool
  | _, [] => true
  | lo, (k, b) :: m => decide (lo ≤ k) && decide (k < 2 ^ 32) && (b != Config.unwrittenByte) && Memory.wfFrom (k + 1) m

/-- The canonical form. -/
def Memory.wf (m : Memory) : Bool := Memory.wfFrom 0 m

/-! ### Translation (20 R60, R71) -/

/-- The registers that translate a linear address: PG and a page directory base (20 R71). -/
structure Xlat where
  pg : Bool
  pdbr : Word
  deriving DecidableEq, Repr

/-- `Translate(PG, PDBR, linear, access)` in the memory of the moment (20 R78): with `PG = 0` the linear address itself; `none` is a page
fault (20 R60, R71). -/
def Xlat.phys (x : Xlat) (m : Memory) (a : Word) (acc : Access) : Option Word :=
  if x.pg then Config.translate x.pdbr m a acc else some a

/-- The same under another page directory base. -/
def Xlat.under (x : Xlat) (pdbr : Word) : Xlat := { x with pdbr := pdbr }

/-- The translation in force in a state. -/
def State.xlat (s : State) : Xlat := { pg := s.pg, pdbr := s.pdbr }

/-! ### Linear accesses, little-endian, any alignment (20 R62, R63); `none` is a page fault -/

def linRead1 (x : Xlat) (m : Memory) (acc : Access) (a : Word) : Option Byte :=
  (x.phys m a acc).map fun p => Memory.read m p.toNat

def linRead2 (x : Xlat) (m : Memory) (acc : Access) (a : Word) : Option (BitVec 16) := do
  let b0 ← linRead1 x m acc a
  let b1 ← linRead1 x m acc (a + 1)
  return of2 b0 b1

def linRead4 (x : Xlat) (m : Memory) (acc : Access) (a : Word) : Option (BitVec 32) := do
  let b0 ← linRead1 x m acc a
  let b1 ← linRead1 x m acc (a + 1)
  let b2 ← linRead1 x m acc (a + 2)
  let b3 ← linRead1 x m acc (a + 3)
  return of4 b0 b1 b2 b3

/-- The eight bytes of a descriptor, observed as one value (20 R64). -/
def linRead8 (x : Xlat) (m : Memory) (acc : Access) (a : Word) : Option Descriptor := do
  let lo ← linRead4 x m acc a
  let hi ← linRead4 x m acc (a + 4)
  return hi ++ lo

/-- One byte stored: a linear address, and the new byte from the old one. -/
abbrev Store := Word × (Byte → Byte)

/-- `LockedRMW(addr, f)`: one byte read, changed and written as one event (20 R80). -/
def lockedRmw (a : Word) (f : Byte → Byte) : Store := (a, f)

/-- `LinWrite(addr, n, value)`: bytes at ascending linear addresses (20 R62, R63). -/
def storeBytes : Word → List Byte → List Store
  | _, [] => []
  | a, b :: bs => (a, fun _ => b) :: storeBytes (a + 1) bs

/-- Stores made one after another, each translated in the memory that the ones before it left (20 R78); `none` is a page fault. -/
def runStores (x : Xlat) (acc : Access) : Memory → List Store → Option Memory
  | m, [] => some m
  | m, (a, f) :: l =>
    match x.phys m a acc with
    | none => none
    | some p => runStores x acc (Memory.write m p.toNat (f (Memory.read m p.toNat))) l

/-- Bytes written at a linear address on. -/
def linWrite (x : Xlat) (acc : Access) (m : Memory) (a : Word) (bs : List Byte) : Option Memory :=
  runStores x acc m (storeBytes a bs)

end Sys2Proof.Machine
end

