-- ==== Sys2Proof/Machine/Descriptors.lean ====
section
/-! DEFINITION. Selectors, descriptors and their predicates, and the descriptor a selector picks (10_state.md R16, R17, R31, R41,
R47). -/

namespace Sys2Proof.Machine

/-! ### Selectors (10 R16) -/

def selRpl (s : Sel) : BitVec 2 := s.extractLsb' 0 2
/-- TI: true picks the LDT, false the GDT. -/
def selTi (s : Sel) : Bool := s.getLsbD 2
def selIndex (s : Sel) : BitVec 13 := s.extractLsb' 3 13
/-- A null selector has `sel[15:2] = 0`. -/
def selNull (s : Sel) : Bool := s.extractLsb' 2 14 == 0

/-- The offset of a selector's descriptor in its table: `sel[15:3] * 8` (10 R17). -/
def selOffset (s : Sel) : Word := (selIndex s).setWidth 32 * 8#32

/-- The error code that selects `s`: `(s & 0xFFFC) | ext` (60 R196). -/
def errCode (s : Sel) (ext : Bool) : BitVec 16 := (s &&& 0xFFFC#16) ||| (if ext then 1#16 else 0#16)

/-- The error code that selects IDT entry `n`: `8*n + 2 + ext` (60 R196). -/
def idtErrCode (n : BitVec 8) (ext : Bool) : BitVec 16 := n.setWidth 16 * 8#16 + 2#16 + (if ext then 1#16 else 0#16)

/-! ### Fields of a descriptor (10 R31, R41) -/

/-- The access byte, byte 5. -/
def accessByte (d : Descriptor) : Byte := d.extractLsb' 40 8

/-- BASE: bytes 2 to 4 and byte 7. R31 gives BASE, LIMIT and G of a TSS descriptor; in a code, data or LDT descriptor they are taken to stand
at the same places (log 36). -/
def descBase (d : Descriptor) : Word := d.extractLsb' 56 8 ++ d.extractLsb' 16 24

/-- The LIMIT field, 20 bits: bytes 0 and 1, low half of byte 6. -/
def rawLimit (d : Descriptor) : BitVec 20 := d.extractLsb' 48 4 ++ d.extractLsb' 0 16

/-- G, byte 6 bit 7. -/
def descG (d : Descriptor) : Bool := d.getLsbD 55

/-- D, byte 6 bit 6, of a code or stack segment (30 R93; the position is the family's, log 18). -/
def descBig (d : Descriptor) : Bool := d.getLsbD 54

/-- The effective limit: LIMIT, or `LIMIT * 4096 + 4095` when G = 1 (10 R31; for other segments than a TSS, log 36). -/
def effectiveLimit (d : Descriptor) : Word :=
  if descG d then (rawLimit d).setWidth 32 * 4096#32 + 4095#32 else (rawLimit d).setWidth 32

/-- SELECTOR of a task gate, bytes 2 and 3 (10 R41). -/
def gateSelector (d : Descriptor) : Sel := d.extractLsb' 16 16

/-! ### Predicates of the access byte (10 R47) -/

def descPresent (d : Descriptor) : Bool := (accessByte d).getLsbD 7
def descDpl (d : Descriptor) : BitVec 2 := (accessByte d).extractLsb' 5 2
/-- S: a code or data segment. -/
def descS (d : Descriptor) : Bool := (accessByte d).getLsbD 4
def descType (d : Descriptor) : BitVec 4 := (accessByte d).extractLsb' 0 4
def isCode (d : Descriptor) : Bool := descS d && (accessByte d).getLsbD 3
def isData (d : Descriptor) : Bool := descS d && !(accessByte d).getLsbD 3
def isConforming (d : Descriptor) : Bool := isCode d && (accessByte d).getLsbD 2
def isReadable (d : Descriptor) : Bool := isData d || (isCode d && (accessByte d).getLsbD 1)
def isWritableData (d : Descriptor) : Bool := isData d && (accessByte d).getLsbD 1
def isLdt (d : Descriptor) : Bool := !descS d && descType d == 2#4
/-- A TSS descriptor: type 9 (not busy) or 11 (busy) (10 R31, R32). -/
def isTss (d : Descriptor) : Bool := !descS d && (descType d == 9#4 || descType d == 11#4)
def isTaskGate (d : Descriptor) : Bool := !descS d && descType d == 5#4
/-- Type 11: the task is busy (10 R32). -/
def isBusy (d : Descriptor) : Bool := descType d == 11#4

/-- The busy bit, bit 1 of byte 5, set (41 R138). -/
def setBusyBit (b : Byte) : Byte := b ||| 0x02#8
/-- The busy bit cleared (41 R133). -/
def clearBusyBit (b : Byte) : Byte := b &&& 0xFD#8

/-! ### `Desc(sel)` (10 R17) -/

/-- What looking up a selector gives. -/
inductive Lookup where
  | outOfBounds
  | pageFault
  | found (d : Descriptor)
  deriving DecidableEq, Repr

/-- A page fault, or the descriptor read. -/
def Lookup.ofRead : Option Descriptor → Lookup
  | none => .pageFault
  | some d => .found d

/-- The descriptor a selector picks: TI chooses the table, the index the entry; beyond the table's limit, or in an LDT the task does
not have, there is none (10 R17, 41 R154). -/
def lookup (x : Xlat) (m : Memory) (gdt : TableReg) (ldt : LdtReg) (sel : Sel) : Lookup :=
  if selTi sel then
    if ldt.usable = true ∧ (selOffset sel).toNat + 7 ≤ ldt.limit.toNat then
      .ofRead (linRead8 x m .sysRead (ldt.base + selOffset sel))
    else .outOfBounds
  else if (selOffset sel).toNat + 7 ≤ gdt.limit.toNat then
    .ofRead (linRead8 x m .sysRead (gdt.base + selOffset sel))
  else .outOfBounds

/-- `Desc(sel)` in a state. -/
def State.desc (s : State) (sel : Sel) : Lookup := lookup s.xlat s.mem s.gdt s.ldtr sel

/-- IDT entry `n`, at `IDT.base + 8*n` (60 R200; beyond IDT.limit there is none, log 21). -/
def State.idtEntry (s : State) (n : BitVec 8) : Lookup :=
  if n.toNat * 8 + 7 ≤ s.idt.limit.toNat then
    .ofRead (linRead8 s.xlat s.mem .sysRead (s.idt.base + n.setWidth 32 * 8#32))
  else .outOfBounds

/-- The invisible part loaded from a descriptor (10 R14). That a code or data descriptor has BASE, LIMIT and G where R31 has those of a TSS
descriptor, and that G scales its limit, is the model's choice (N13; log 36). -/
def SegCache.ofDesc (d : Descriptor) : SegCache :=
  { usable := true, base := descBase d, limit := effectiveLimit d, access := accessByte d, big := descBig d }

/-- The invisible part of a register whose selector has not passed its tests, or is null (41 R154; log 15). -/
def SegCache.unloaded : SegCache := { usable := false, base := 0, limit := 0, access := 0, big := false }

end Sys2Proof.Machine
end

