-- ==== Sys2Proof/Machine/Operands.lean ====
section
/-! DEFINITION. Registers and operand forms: general registers and their low halves, segment registers, effective addresses
(30_encoding.md R91, R93; the arithmetic is the family's, log 16), the segment checks of an operand (log 19). -/

namespace Sys2Proof.Machine

/-! ### General registers (10 R10) -/

def Gprs.get (g : Gprs) : Reg → Word
  | .eax => g.eax | .ecx => g.ecx | .edx => g.edx | .ebx => g.ebx
  | .esp => g.esp | .ebp => g.ebp | .esi => g.esi | .edi => g.edi

def Gprs.set (g : Gprs) (r : Reg) (v : Word) : Gprs :=
  match r with
  | .eax => { g with eax := v } | .ecx => { g with ecx := v } | .edx => { g with edx := v } | .ebx => { g with ebx := v }
  | .esp => { g with esp := v } | .ebp => { g with ebp := v } | .esi => { g with esi := v } | .edi => { g with edi := v }

/-- The low 16 bits of a general register: AX to DI (30 R91). -/
def Gprs.get16 (g : Gprs) (r : Reg) : BitVec 16 := (g.get r).extractLsb' 0 16

/-- The low 16 bits written, bits 31:16 kept (40 R111). -/
def Gprs.set16 (g : Gprs) (r : Reg) (v : BitVec 16) : Gprs := g.set r ((g.get r).extractLsb' 16 16 ++ v)

/-! ### Segment registers (10 R14) -/

def Segs.get (g : Segs) : SReg → SegReg
  | .es => g.es | .cs => g.cs | .ss => g.ss | .ds => g.ds | .fs => g.fs | .gs => g.gs

def Segs.set (g : Segs) (r : SReg) (v : SegReg) : Segs :=
  match r with
  | .es => { g with es := v } | .cs => { g with cs := v } | .ss => { g with ss := v }
  | .ds => { g with ds := v } | .fs => { g with fs := v } | .gs => { g with gs := v }

/-! ### Effective addresses -/

/-- A logical address: segment register and offset (20 R60). -/
structure Ref where
  seg : SReg
  off : Word
  deriving DecidableEq, Repr

def disp32Value : Disp32 → Word
  | .none => 0
  | .d8 d => d.signExtend 32
  | .d32 d => d

def disp16Value : Disp16 → BitVec 16
  | .none => 0
  | .d8 d => d.signExtend 16
  | .d16 d => d

/-- The index register times 1, 2, 4 or 8. -/
def scaledIndex (g : Gprs) (index : Option Reg) (scale : BitVec 2) : Word :=
  match index with
  | none => 0
  | some r => g.get r <<< scale.toNat

/-- The segment an address form uses without an override: SS when the base is ESP or EBP. -/
def defaultSegOf (b : Reg) : SReg := if b = .esp ∨ b = .ebp then .ss else .ds

/-- The default segment and the offset of a 32-bit form. -/
def ref32 (g : Gprs) : Addr32 → Ref
  | .direct d => { seg := .ds, off := d }
  | .base b d => { seg := defaultSegOf b, off := g.get b + disp32Value d }
  | .sib b index scale d => { seg := defaultSegOf b, off := g.get b + scaledIndex g index scale + disp32Value d }
  | .sibDirect index scale d => { seg := .ds, off := scaledIndex g index scale + d }

/-- The base of a 16-bit form, modulo 2^16. -/
def base16Value (g : Gprs) : Base16 → BitVec 16
  | .bxSi => g.get16 .ebx + g.get16 .esi
  | .bxDi => g.get16 .ebx + g.get16 .edi
  | .bpSi => g.get16 .ebp + g.get16 .esi
  | .bpDi => g.get16 .ebp + g.get16 .edi
  | .si => g.get16 .esi
  | .di => g.get16 .edi
  | .bp => g.get16 .ebp
  | .bx => g.get16 .ebx

/-- The default segment of a 16-bit form: SS when BP is in it. -/
def defaultSeg16 : Base16 → SReg
  | .bpSi | .bpDi | .bp => .ss
  | .bxSi | .bxDi | .si | .di | .bx => .ds

/-- The default segment and the offset of a 16-bit form. -/
def ref16 (g : Gprs) : Addr16 → Ref
  | .direct d => { seg := .ds, off := d.setWidth 32 }
  | .base b d => { seg := defaultSeg16 b, off := (base16Value g b + disp16Value d).setWidth 32 }

/-- The last segment override among the prefixes. -/
def overrideOf : List Prefix → Option SReg
  | [] => none
  | .segment r :: ps =>
    match overrideOf ps with
    | some r' => some r'
    | none => some r
  | _ :: ps => overrideOf ps

/-- The logical address of a memory operand: a segment override replaces the default segment (30 R93). -/
def State.ref (s : State) (pre : List Prefix) (m : Mem) : Ref :=
  let r := match m with
    | .a32 a => ref32 s.regs a
    | .a16 a => ref16 s.regs a
  { r with seg := (overrideOf pre).getD r.seg }

/-- `EA`: the linear address of a logical address, segment base plus offset (30 R91, 20 R71). -/
def State.linear (s : State) (r : Ref) : Word := (s.segs.get r.seg).cache.base + r.off

/-! ### Segment checks of an operand (the family's, log 19) -/

/-- An expand-down data segment. -/
def SegCache.expandDown (c : SegCache) : Bool := c.access.getLsbD 4 && !c.access.getLsbD 3 && c.access.getLsbD 2

/-- Bytes `off` to `off + n - 1` lie within the segment. -/
def SegCache.inLimit (c : SegCache) (off : Word) (n : Nat) : Bool :=
  if c.expandDown then decide (c.limit.toNat < off.toNat) && decide (off.toNat + n ≤ (if c.big then 2 ^ 32 else 2 ^ 16))
  else decide (off.toNat + n ≤ c.limit.toNat + 1)

/-- The segment may be read: a data segment, or a readable code segment (10 R47). -/
def SegCache.readable (c : SegCache) : Bool := c.access.getLsbD 4 && (!c.access.getLsbD 3 || c.access.getLsbD 1)

/-- The segment may be written: a writable data segment (10 R47). -/
def SegCache.writable (c : SegCache) : Bool := c.access.getLsbD 4 && !c.access.getLsbD 3 && c.access.getLsbD 1

/-- An operand of `n` bytes may be read (or written) through a segment register. -/
def SegCache.allows (c : SegCache) (off : Word) (n : Nat) (write : Bool) : Bool :=
  c.usable && (if write then c.writable else c.readable) && c.inLimit off n

/-- The exception of a failed segment check: SF for SS, GP for the others, selecting nothing; EXT tells whether an earlier exception led to
the access (60 R196; log 19). -/
def segFault (r : SReg) (ext : Bool) : Raise :=
  { exc := if r = .ss then .sf else .gp, code := some (errCode 0 ext), ctx := .before }

end Sys2Proof.Machine
end

