-- ==== Sys2Proof/Machine/Ops.lean ====
section
/-! DEFINITION. The shared operations: the task switch (41_task_switch_operation.md R121 to R167), taking an exception (60 R190, 42
R178) and the return beside it (42 R174), acceptance of an external interrupt (42 R177). -/

namespace Sys2Proof.Machine

/-- How an operation ends that does not complete: an exception in a state (60 R190), or a refusal. -/
inductive Stop where
  | raised (r : Raise) (s : State)
  | refused (r : Refusal)
  deriving DecidableEq, Repr

/-- An operation: its result, or a stop. -/
abbrev Run (α : Type) := Except Stop α

/-- The machine goes on only if a condition holds. -/
def orElse (c : Bool) (stop : Stop) : Run Unit := if c then .ok () else .error stop

/-- The value of a linear access, or a refusal where it meets a missing page inside a switch (20 R68, D24). -/
def orPartWay {α : Type} (o : Option α) : Run α :=
  match o with
  | some a => .ok a
  | none => .error (.refused .pageFaultPartWay)

/-- A page fault with nothing changed (60 R197); what it carries is free (log 7). -/
def pageFaultIn (ctx : Context) (s : State) : Stop :=
  .raised { exc := .pageFault, code := Config.pageFaultCode s.choices, ctx := ctx } { s with choices := s.choices + 1 }

/-- The value of a linear access made before anything changes, or a page fault. -/
def orPageFault {α : Type} (ctx : Context) (s : State) (o : Option α) : Run α :=
  match o with
  | some a => .ok a
  | none => .error (pageFaultIn ctx s)

/-- `raise X(ec) in ctx` in a state. -/
def raising (x : Exc) (code : BitVec 16) (ctx : Context) (s : State) : Stop :=
  .raised { exc := x, code := some code, ctx := ctx } s

/-! ### The layout of a task state segment (10 R22, D5) -/

def tssBackLink : Word := 0x00
def tssPdbr : Word := 0x1C
def tssEip : Word := 0x20
def tssEflags : Word := 0x24
def tssLdt : Word := 0x60
def tssTrap : Word := 0x64

def tssReg : Reg → Word
  | .eax => 0x28 | .ecx => 0x2C | .edx => 0x30 | .ebx => 0x34
  | .esp => 0x38 | .ebp => 0x3C | .esi => 0x40 | .edi => 0x44

def tssSeg : SReg → Word
  | .es => 0x48 | .cs => 0x4C | .ss => 0x50 | .ds => 0x54 | .fs => 0x58 | .gs => 0x5C

/-- The bytes of a TSS the rules may touch: offsets 0x00 to 0x67 (20 R68). -/
def tssBytes : Nat := 0x68

/-- The linear address of byte 5 of a selector's descriptor in the GDT, where the busy bit is (41 R121, R133, R138). -/
def State.busyByteAddr (s : State) (sel : Sel) : Word := s.gdt.base + selOffset sel + 5#32

/-! ### Steps 1 and 2: the incoming TSS descriptor (41 R126 to R132) -/

/-- The exception of a bad target: TS for IRET, GP otherwise (41 R121, R126; D13). -/
def targetExc : Cause → Exc
  | .iret => .ts
  | .jmp | .call | .int => .gp

/-- Locates the incoming TSS descriptor and makes tests 1 to 3; nothing is changed (41 R126 to R132). -/
def locateTss (c : Cause) (sel : Sel) (ext : Bool) (s : State) : Run Descriptor := do
  orElse (!selNull sel && !selTi sel) (raising (targetExc c) (errCode sel ext) .outgoing s)
  match s.desc sel with
  | .outOfBounds => .error (raising (targetExc c) (errCode sel ext) .outgoing s)
  | .pageFault => .error (pageFaultIn .outgoing s)
  | .found d =>
    orElse (isTss d) (raising (targetExc c) (errCode sel ext) .outgoing s)
    orElse (descPresent d) (raising .np (errCode sel ext) .outgoing s)
    orElse (!(setsIncomingBusy c && isBusy d)) (raising .gp (errCode sel ext) .outgoing s)
    orElse (setsIncomingBusy c || isBusy d) (raising .ts (errCode sel ext) .outgoing s)
    orElse (!(descG d && decide ((rawLimit d).toNat < Config.tssMinLimit))) (.refused .tssLimitReadingsDiffer)
    orElse (decide (Config.tssMinLimit ≤ (effectiveLimit d).toNat)) (raising .ts (errCode sel ext) .outgoing s)
    return d

/-- `n` linear addresses from a base on. -/
def region (base : Word) (n : Nat) : List Word := (List.range n).map fun i => base + BitVec.ofNat 32 i

/-- The linear addresses of bytes 0x00 to 0x67 of a TSS. -/
def tssAddrs (base : Word) : List Word := region base tssBytes

/-! ### The page check before anything changes (20 R66 to R68; log 5) -/

/-- A byte can be read and written by the processor. -/
def State.accessible (s : State) (a : Word) : Bool :=
  (s.xlat.phys s.mem a .sysRead).isSome && (s.xlat.phys s.mem a .sysWrite).isSome

/-- Whether the first byte a switch touches, in the order of 41 R121, is accessible: byte 5 of the outgoing descriptor for JMP, whose busy bit
is cleared first; the EFLAGS slot of the outgoing TSS for CALL and INT, which is saved first; its back-link for IRET, which is read first. -/
def State.firstAccessible (s : State) : Cause → Bool
  | .jmp => (s.xlat.phys s.mem (s.busyByteAddr s.tr.sel) .sysWrite).isSome
  | .call | .int => s.accessible (s.tr.base + tssEflags)
  | .iret => s.accessible (s.tr.base + tssBackLink)

/-- The whole check of 20 R68: a page fault in the outgoing context if the first byte touched is not accessible; a refusal if another one is not,
of either TSS or byte 5 of both descriptors. With `PG = 0` there is nothing to check (20 R60). -/
def pagesPresent (c : Cause) (s : State) (sel : Sel) (d : Descriptor) : Run Unit :=
  if s.pg then do
    orElse (s.firstAccessible c) (pageFaultIn .outgoing s)
    orElse ((tssAddrs s.tr.base ++ tssAddrs (descBase d)).all s.accessible) (.refused .pageFaultPartWay)
    orElse (s.xlat.phys s.mem (s.busyByteAddr s.tr.sel) .sysWrite).isSome (.refused .pageFaultPartWay)
    orElse (s.xlat.phys s.mem (s.busyByteAddr sel) .sysWrite).isSome (.refused .pageFaultPartWay)
  else .ok ()

/-! ### The common mapping (20 R74; log 6) -/

/-- The linear addresses of a TSS: the region its descriptor defines (10 R20, R34), and bytes 0x00 to 0x67 in any case. -/
def tssRegion (base limit : Word) : List Word := region base (max tssBytes (limit.toNat + 1))

/-- The linear addresses that 20 R74 names: the outgoing TSS, the incoming TSS, the GDT. -/
def commonAddrs (s : State) (d : Descriptor) : List Word :=
  tssRegion s.tr.base s.tr.limit ++ tssRegion (descBase d) (effectiveLimit d) ++ region s.gdt.base (s.gdt.limit.toNat + 1)

/-- Both page directories translate an address alike in a memory, for every access (20 R74). -/
def mapsAlike (x y : Xlat) (m : Memory) (a : Word) : Bool :=
  Access.all.all fun acc => decide (x.phys m a acc = y.phys m a acc)

/-- Those structures lie in the common mapping of the outgoing and the incoming page directory, as a memory has them (20 R74, R78). With
`PG = 0` they do (20 R60). -/
def commonMapping (s : State) (m : Memory) (d : Descriptor) (newPdbr : Word) : Bool :=
  !s.pg || (commonAddrs s d).all (mapsAlike s.xlat (s.xlat.under newPdbr) m)

/-! ### Steps 3 and 4: save the outgoing task, mark the incoming task busy (41 R133 to R138) -/

/-- The locked access to a busy bit, where one is made (20 R80, 41 R165). -/
def busyStores (made : Bool) (a : Word) (f : Byte → Byte) : List Store := if made then [lockedRmw a f] else []

/-- What is saved: offset and bytes of EFLAGS, the eight general registers, the six selectors, EIP, in the order of 41 R121. -/
def savedFields (c : Cause) (retEip : Word) (s : State) : List (Word × List Byte) :=
  [(tssEflags, bytes4 (savedFlags c s.eflags))] ++
    [Reg.eax, .ecx, .edx, .ebx, .esp, .ebp, .esi, .edi].map (fun r => (tssReg r, bytes4 (s.regs.get r))) ++
    [SReg.es, .cs, .ss, .ds, .fs, .gs].map (fun r => (tssSeg r, bytes2 (s.segs.get r).sel)) ++
    [(tssEip, bytes4 retEip)]

/-- The saved fields, into the outgoing TSS. -/
def savedStores (c : Cause) (retEip : Word) (s : State) : List Store :=
  (savedFields c retEip s).flatMap fun f => storeBytes (s.tr.base + f.1) f.2

/-- Step 3: the outgoing busy bit (JMP and IRET only), then the registers into the outgoing TSS. -/
def outgoingStores (c : Cause) (retEip : Word) (s : State) : List Store :=
  busyStores (clearsOutgoingBusy c) (s.busyByteAddr s.tr.sel) clearBusyBit ++ savedStores c retEip s

/-- Step 4: the incoming busy bit, but for IRET. -/
def incomingStores (c : Cause) (sel : Sel) (s : State) : List Store :=
  busyStores (setsIncomingBusy c) (s.busyByteAddr sel) setBusyBit

/-! ### Step 5: load the incoming task (41 R140 to R147) -/

/-- What is read from the incoming TSS (41 R142). -/
structure Image where
  ldt : Sel
  eflags : Word
  eip : Word
  regs : Gprs
  es : Sel
  cs : Sel
  ss : Sel
  ds : Sel
  fs : Sel
  gs : Sel
  pdbr : Word
  deriving DecidableEq, Repr

/-- The general registers of a TSS. -/
def loadGprs (x : Xlat) (m : Memory) (base : Word) : Option Gprs := do
  let eax ← linRead4 x m .sysRead (base + tssReg .eax)
  let ecx ← linRead4 x m .sysRead (base + tssReg .ecx)
  let edx ← linRead4 x m .sysRead (base + tssReg .edx)
  let ebx ← linRead4 x m .sysRead (base + tssReg .ebx)
  let esp ← linRead4 x m .sysRead (base + tssReg .esp)
  let ebp ← linRead4 x m .sysRead (base + tssReg .ebp)
  let esi ← linRead4 x m .sysRead (base + tssReg .esi)
  let edi ← linRead4 x m .sysRead (base + tssReg .edi)
  return { eax, ecx, edx, ebx, esp, ebp, esi, edi }

/-- The image in a TSS; the PDBR slot is read only when paging is enabled, else PDBR keeps its value (10 R24, 41 R142). -/
def loadImage (x : Xlat) (m : Memory) (base : Word) : Option Image := do
  let ldt ← linRead2 x m .sysRead (base + tssLdt)
  let eflags ← linRead4 x m .sysRead (base + tssEflags)
  let eip ← linRead4 x m .sysRead (base + tssEip)
  let regs ← loadGprs x m base
  let es ← linRead2 x m .sysRead (base + tssSeg .es)
  let cs ← linRead2 x m .sysRead (base + tssSeg .cs)
  let ss ← linRead2 x m .sysRead (base + tssSeg .ss)
  let ds ← linRead2 x m .sysRead (base + tssSeg .ds)
  let fs ← linRead2 x m .sysRead (base + tssSeg .fs)
  let gs ← linRead2 x m .sysRead (base + tssSeg .gs)
  let pdbr ← if x.pg then linRead4 x m .sysRead (base + tssPdbr) else some x.pdbr
  return { ldt, eflags, eip, regs, es, cs, ss, ds, fs, gs, pdbr }

/-- A segment register that has its selector and has not passed its tests (41 R141; log 15). -/
def SegReg.untested (sel : Sel) : SegReg := { sel := sel, cache := .unloaded }

/-- The state after "all register and selector values are loaded" (41 R137, R139, R141 to R147), before tests 4 to 16. -/
def enterTask (c : Cause) (sel : Sel) (d : Descriptor) (img : Image) (m : Memory) (s : State) : State :=
  { s with
    regs := img.regs
    eip := img.eip
    eflags := loadedFlags c img.eflags
    cpl := selRpl img.cs
    segs :=
      { es := .untested img.es, cs := .untested img.cs, ss := .untested img.ss
        ds := .untested img.ds, fs := .untested img.fs, gs := .untested img.gs }
    cr0 := setTs s.cr0
    pdbr := img.pdbr
    ldtr := { sel := img.ldt, usable := false, base := 0, limit := 0 }
    tr := { valid := true, sel := sel, base := descBase d, limit := effectiveLimit d }
    mem := m
    debugPending := false }

/-- The back-link of the incoming TSS: the outgoing TSS selector, for CALL and INT (41 R145). -/
def backLinkStores (c : Cause) (newBase : Word) (s : State) : List Store :=
  if writesBackLink c then storeBytes (newBase + tssBackLink) (bytes2 s.tr.sel) else []

/-! ### Tests 4 to 16 (41 R148 to R155)

`x` translates under the incoming page directory; `s` is the state after the loads. -/

/-- A descriptor looked up by tests 4 to 16, from a table in the incoming task's mapping. -/
def State.newDesc (x : Xlat) (s : State) (sel : Sel) : Lookup := lookup x s.mem s.gdt s.ldtr sel

/-- Tests 4 and 5, and the LDT loaded when they pass (41 R150, R154). BASE, LIMIT and G of an LDT descriptor stand where R31 has them (log 36). -/
def testLdt (x : Xlat) (ext : Bool) (s : State) : Run State :=
  let bad := raising .ts (errCode s.tr.sel ext) .incoming s
  if selNull s.ldtr.sel then
    if Config.nullSelOk then .ok { s with ldtr := { sel := s.ldtr.sel, usable := false, base := 0, limit := 0 } }
    else .error bad
  else if selTi s.ldtr.sel then .error bad
  else
    match s.newDesc x s.ldtr.sel with
    | .outOfBounds => .error bad
    | .pageFault => .error (.refused .pageFaultPartWay)
    | .found d => do
      orElse (isLdt d) bad
      orElse (descPresent d) bad
      return { s with ldtr := { sel := s.ldtr.sel, usable := true, base := descBase d, limit := effectiveLimit d } }

/-- Test 8: "Code segment DPL matches CS RPL" (41 R151, D27). -/
def codeDplMatches (d : Descriptor) (rpl : BitVec 2) : Bool :=
  if isConforming d then decide ((descDpl d).toNat ≤ rpl.toNat) else descDpl d == rpl

/-- Tests 6 to 8, and the code segment loaded when they pass (41 R151). -/
def testCs (x : Xlat) (ext : Bool) (s : State) : Run State :=
  let c := s.segs.cs.sel
  let bad (e : Exc) := raising e (errCode c ext) .incoming s
  if selNull c then .error (bad .ts)
  else
    match s.newDesc x c with
    | .outOfBounds => .error (bad .ts)
    | .pageFault => .error (.refused .pageFaultPartWay)
    | .found d => do
      orElse (isCode d) (bad .ts)
      orElse (descPresent d) (bad .np)
      orElse (codeDplMatches d (selRpl c)) (bad .ts)
      return { s with segs := { s.segs with cs := { sel := c, cache := .ofDesc d } } }

/-- Tests 9 to 12, and the stack segment loaded when they pass (41 R152). -/
def testSs (x : Xlat) (ext : Bool) (s : State) : Run State :=
  let v := s.segs.ss.sel
  let bad (e : Exc) := raising e (errCode v ext) .incoming s
  if selNull v then .error (bad .gp)
  else
    match s.newDesc x v with
    | .outOfBounds => .error (bad .gp)
    | .pageFault => .error (.refused .pageFaultPartWay)
    | .found d => do
      orElse (isWritableData d) (bad .gp)
      orElse (descPresent d) (bad .sf)
      orElse (descDpl d == s.cpl) (bad .sf)
      orElse (selRpl v == s.cpl) (bad .gp)
      return { s with segs := { s.segs with ss := { sel := v, cache := .ofDesc d } } }

/-- What tests 13 to 16 say of one data segment register. -/
inductive DataTest where
  | passes (c : SegCache)
  | fails (r : Raise)
  | pageFault
  deriving DecidableEq, Repr

/-- Tests 13 to 16 of one of DS, ES, FS, GS, in order (41 R153, R154). -/
def testData (x : Xlat) (ext : Bool) (s : State) (r : SReg) : DataTest :=
  let v := (s.segs.get r).sel
  let bad (e : Exc) : DataTest := .fails { exc := e, code := some (errCode v ext), ctx := .incoming }
  if selNull v then (if Config.nullSelOk then .passes .unloaded else bad .gp)
  else
    match s.newDesc x v with
    | .outOfBounds => bad .gp
    | .pageFault => .pageFault
    | .found d =>
      if !descS d then bad .gp
      else if !isReadable d then bad .gp
      else if !descPresent d then bad .np
      else if !(isConforming d || decide (s.cpl.toNat ≤ (descDpl d).toNat)) then bad .gp
      else .passes (.ofDesc d)

/-- The data segment registers, in the order of the rule's text (41 R153). -/
def dataRegs : List SReg := [.ds, .es, .fs, .gs]

/-- The candidates of 41 R155: the first failing test of each register that fails. -/
def dataFailures (x : Xlat) (ext : Bool) (s : State) : List Raise :=
  dataRegs.filterMap fun r =>
    match testData x ext s r with
    | .fails e => some e
    | .passes _ | .pageFault => none

/-- A data segment register with the invisible part its tests gave. -/
def loadData (x : Xlat) (ext : Bool) (s : State) (r : SReg) : SegReg :=
  { sel := (s.segs.get r).sel
    cache := match testData x ext s r with
      | .passes c => c
      | .fails _ | .pageFault => .unloaded }

/-- Tests 13 to 16 of DS, ES, FS and GS: of several failures any one may be reported (41 R155, D28), chosen by a free value (log 14). -/
def testDataRegs (x : Xlat) (ext : Bool) (s : State) : Run State :=
  if dataRegs.any (fun r => testData x ext s r == .pageFault) then .error (.refused .pageFaultPartWay)
  else
    match dataFailures x ext s with
    | [] =>
      .ok { s with
        segs :=
          { s.segs with
            ds := loadData x ext s .ds, es := loadData x ext s .es
            fs := loadData x ext s .fs, gs := loadData x ext s .gs } }
    | [r] => .error (.raised r s)
    | r :: rs =>
      .error (.raised ((r :: rs).getD (Config.segFaultChoice s.choices % (r :: rs).length) r)
        { s with choices := s.choices + 1 })

/-- Tests 4 to 16 in the order of their numbers (41 R148, D16). -/
def runTests (x : Xlat) (ext : Bool) (s : State) : Run State := do
  let s1 ← testLdt x ext s
  let s2 ← testCs x ext s1
  let s3 ← testSs x ext s2
  testDataRegs x ext s3

/-! ### The task switch (41 R121) -/

/-- Steps 3, 4 and 5 up to "all register and selector values are loaded" (41 R133 to R147): no exception of Table 7-1 arises here. The
common mapping is asked for when PDBR is read and again after the last store (log 6). -/
def loadTask (c : Cause) (sel : Sel) (d : Descriptor) (retEip : Word) (s : State) : Run State := do
  let m ← orPartWay (runStores s.xlat .sysWrite s.mem (outgoingStores c retEip s ++ incomingStores c sel s))
  let img ← orPartWay (loadImage s.xlat m (descBase d))
  orElse (!flagVm img.eflags) (.refused .virtual8086Image)
  orElse (commonMapping s m d img.pdbr) (.refused .mappingNotCommon)
  let m' ← orPartWay (runStores s.xlat .sysWrite m (backLinkStores c (descBase d) s))
  orElse (commonMapping s m' d img.pdbr) (.refused .mappingNotCommon)
  return enterTask c sel d img m' s

/-- The T bit of the incoming TSS: bit 0 of the word at 0x64 (10 R22, R26). -/
def trapBit (x : Xlat) (m : Memory) (base : Word) : Option Bool :=
  (linRead2 x m .sysRead (base + tssTrap)).map fun w => w.getLsbD 0

/-- `TaskSwitch(cause, sel, ext, ret_eip)` (41 R121): one indivisible step (R166). A set T bit leaves the debug trap pending (R157;
log 12). -/
def taskSwitch (c : Cause) (sel : Sel) (ext : Bool) (retEip : Word) (s : State) : Run State := do
  orElse s.tr.valid (.refused .trNeverLoaded)
  let d ← locateTss c sel ext s
  pagesPresent c s sel d
  let s1 ← loadTask c sel d retEip s
  let x := s.xlat.under s1.pdbr
  let s2 ← runTests x ext s1
  let t ← orPartWay (trapBit x s2.mem s2.tr.base)
  return { s2 with debugPending := t }

/-! ### Taking an exception (60 R190 to R205) -/

/-- Vector numbers (60 R191 to R197, 30 R96; D12). -/
def vectorOf : Exc → BitVec 8
  | .debug => 1
  | .invalidOpcode => 6
  | .ts => 10
  | .np => 11
  | .sf => 12
  | .gp => 13
  | .pageFault => 14

/-- The error code pushed on the stack of the handler task: 4 bytes at ESP - 4, ESP decremented (42 R182, 60 R196; log 10). -/
def pushErrorCode (code : BitVec 16) (s : State) : Run State := do
  let off := s.regs.esp - 4#32
  let _ ← orElse (s.segs.ss.cache.allows off 4 true) (.raised { segFault .ss true with ctx := .incoming } s)
  let m ← orPageFault .incoming s
    (linWrite s.xlat (.progWrite s.cpl) s.mem (s.linear { seg := .ss, off := off }) (bytes4 (code.setWidth 32)))
  return { s with regs := { s.regs with esp := off }, mem := m }

/-- The switch to the handler task of an exception through a task gate, EXT = 1, saved EIP that of the state (42 R178, R181), then the
error code, if the exception has one (42 R182). -/
def enterHandler (r : Raise) (gate : Descriptor) (s : State) : Run State := do
  orElse (descPresent gate) (raising .np (idtErrCode (vectorOf r.exc) true) .outgoing s)
  let s1 ← taskSwitch .int (gateSelector gate) true s.eip s
  match r.code with
  | none => return s1
  | some code => if Config.errcodePush then pushErrorCode code s1 else return s1

/-- What an exception leaves in the registers that tell software of it: a page fault in CR2, a debug exception in DR6, values the spec does not
give (log 32). -/
def recorded (r : Raise) (s : State) : State :=
  match r.exc with
  | .pageFault => { s with cr2 := Config.faultAddress s.choices s.cr2, choices := s.choices + 1 }
  | .debug => { s with debugRegs := { s.debugRegs with dr6 := Config.debugStatus s.choices s.debugRegs.dr6 }, choices := s.choices + 1 }
  | .np | .gp | .ts | .sf | .invalidOpcode => s

/-- The entry through the IDT: through a task gate, the switch to the handler task; through any other entry, the terminal outcome of R190; a
second exception on the way, the terminal outcome of R205 (log 9). -/
def enterThroughIdt (r : Raise) (s : State) : Host.Outcome State Fault Refusal :=
  match s.idtEntry (vectorOf r.exc) with
  | .outOfBounds => .fault (.raised r s)
  | .pageFault =>
    .fault (.raisedDuringDelivery r { exc := .pageFault, code := Config.pageFaultCode s.choices, ctx := .outgoing }
      { s with choices := s.choices + 1 })
  | .found gate =>
    if isTaskGate gate then
      match enterHandler r gate s with
      | .ok s' => .next s'
      | .error (.raised r2 s2) => .fault (.raisedDuringDelivery r r2 s2)
      | .error (.refused x) => .refused x
    else .fault (.raised r s)

/-- TAKING AN EXCEPTION (60 R190). -/
def deliver (r : Raise) (s : State) : Host.Outcome State Fault Refusal := enterThroughIdt r (recorded r s)

/-- The end of an instruction: its next state, or the exception it raised, taken. -/
def finish (o : Run State) : Host.Outcome State Fault Refusal :=
  match o with
  | .ok s => .next s
  | .error (.raised r s) => deliver r s
  | .error (.refused x) => .refused x

/-- THE RETURN (42 R174, R180): the task switch along the back-link of the current TSS, with no privilege check. The first byte of the back-link
is the first one touched: a page fault where it is missing, a refusal where only the second is (20 R68, D24; log 5). -/
def returnToLink (nextEip : Word) (s : State) : Run State := do
  orElse s.tr.valid (.refused .trNeverLoaded)
  let low ← orPageFault .outgoing s (linRead1 s.xlat s.mem .sysRead (s.tr.base + tssBackLink))
  let high ← orPartWay (linRead1 s.xlat s.mem .sysRead (s.tr.base + tssBackLink + 1))
  taskSwitch .iret (of2 low high) false nextEip s

/-- Through the IDT entry of a vector into a task: the interrupt instruction (`ext` 0, `dplCheck` its open check, saved EIP the next
instruction) and the external interrupt (`ext` 1, no check) (42 R176, R177; 60 R200). -/
def vectorToTask (n : BitVec 8) (ext : Bool) (dplCheck : Bool) (retEip : Word) (s : State) : Run State :=
  match s.idtEntry n with
  | .outOfBounds => .error (.refused (.idtEntryOutOfBounds n))
  | .pageFault => .error (pageFaultIn .outgoing s)
  | .found g =>
    if isTaskGate g then do
      orElse (!(decide ((descDpl g).toNat < s.cpl.toNat) && dplCheck)) (raising .gp (idtErrCode n ext) .outgoing s)
      orElse (descPresent g) (raising .np (idtErrCode n ext) .outgoing s)
      taskSwitch .int (gateSelector g) ext retEip s
    else .error (.refused (.idtEntryNotTaskGate n))

/-- An external interrupt accepted between two instructions: no privilege check, EXT = 1, saved EIP the next instruction (42 R177). -/
def externalInterrupt (n : BitVec 8) (s : State) : Host.Outcome State Fault Refusal :=
  finish (vectorToTask n true false s.eip s)

/-! ### Instruction boundaries and fetching (60 R201, 41 R157, R158) -/

/-- What happens at an instruction boundary, and in which state. -/
inductive Boundary where
  | debugTrap (s : State)
  | interrupt (n : BitVec 8) (s : State)
  | instruction (s : State)
  deriving DecidableEq, Repr

/-- A pending debug trap comes first (41 R157: before the first instruction of the incoming task), then the environment's entry for
this boundary (60 R201; log 12, log 13), else an instruction. The trap flag of EFLAGS and the breakpoint registers raise nothing here: single
stepping and breakpoints are outside the source (60 R216, N71; log 38). -/
def State.boundary (s : State) : Boundary :=
  if s.debugPending then .debugTrap { s with debugPending := false }
  else
    match s.extInts with
    | some n :: rest => .interrupt n { s with extInts := rest }
    | none :: rest => .instruction { s with extInts := rest }
    | [] => .instruction s

/-- The debug exception of the T bit: no error code (60 R195). -/
def debugTrap : Raise := { exc := .debug, code := none, ctx := .incoming }

/-- Why fetching stopped: enough bytes, the limit of CS, a missing page. -/
inductive FetchEnd where
  | enough | limit | page
  deriving DecidableEq, Repr

/-- Up to `n` bytes from an offset in CS on (41 R158), and why no more. -/
def fetchBytes (s : State) : Nat → Word → List Byte × FetchEnd
  | 0, _ => ([], .enough)
  | n + 1, off =>
    if s.segs.cs.cache.inLimit off 1 then
      match s.xlat.phys s.mem (s.segs.cs.cache.base + off) (.fetch s.cpl) with
      | none => ([], .page)
      | some p => (Memory.read s.mem p.toNat :: (fetchBytes s n (off + 1)).1, (fetchBytes s n (off + 1)).2)
    else ([], .limit)

/-- The bytes at CS:EIP, as many as any instruction can have. -/
def State.fetch (s : State) : List Byte × FetchEnd := fetchBytes s Config.fetchWindow s.eip

/-- What the bytes at CS:EIP decode to, in the code segment's own size. -/
def State.decoded (s : State) : Decoded := decode s.segs.cs.cache.big s.fetch.1

/-- An instruction that its bytes cut off: GP(0) beyond the limit of CS, a page fault on a missing page (log 19). Bytes with no such
end hold no opcode at all: prefixes around the whole code segment, which are no row (30 R96; log 17). -/
def cutOff (s : State) : Host.Outcome State Fault Refusal :=
  match s.fetch.2 with
  | .enough => .refused (.undecodable .onlyPrefixes)
  | .limit => deliver { exc := .gp, code := some 0, ctx := .before } s
  | .page => finish (.error (pageFaultIn .before s))

/-- Bytes that are no row of the table: the invalid-opcode exception where 30 R96 names it, else the refusal of the same rule ("outside this
spec and a model refuses it"). -/
def undecodable (e : DecodeError) (s : State) : Host.Outcome State Fault Refusal :=
  match e with
  | .farPointerInRegister => deliver { exc := .invalidOpcode, code := none, ctx := .before } s
  | .otherGroupMember _ _ | .otherOpcode _ | .otherOpcode0F _ | .onlyPrefixes => .refused (.undecodable e)

/-- Bytes placed where the next instruction is fetched; a byte whose page is missing is not placed (log 24). -/
def placeBytes (s : State) : Memory → Word → List Byte → Memory
  | m, _, [] => m
  | m, off, b :: bs =>
    match s.xlat.phys m (s.segs.cs.cache.base + off) (.fetch s.cpl) with
    | none => placeBytes s m (off + 1) bs
    | some p => placeBytes s (Memory.write m p.toNat b) (off + 1) bs

end Sys2Proof.Machine
end

