-- ==== Sys2Proof/Machine/TaskRegister.lean ====
section
/-! DEFINITION. LTR and STR (40_task_register.md R110, R111). -/

namespace Sys2Proof.Machine

/-- `next_eip`: the address of the instruction after `i` (10 R11). -/
def State.nextEip (s : State) (i : Instr) : Word := s.eip + BitVec.ofNat 32 i.length

/-- A 2-byte memory operand read. -/
def readSelMem (s : State) (r : Ref) : Run Sel := do
  orElse ((s.segs.get r.seg).cache.allows r.off 2 false) (.raised (segFault r.seg false) s)
  orPageFault .before s (linRead2 s.xlat s.mem (.progRead s.cpl) (s.linear r))

/-- A 2-byte memory operand written, in ascending order of its bytes (20 R63). That a missing page under either byte raises a page fault before
the instruction, with neither byte stored, is the model's choice (log 39). -/
def writeSelMem (s : State) (r : Ref) (v : Sel) : Run Memory := do
  orElse ((s.segs.get r.seg).cache.allows r.off 2 true) (.raised (segFault r.seg false) s)
  orPageFault .before s (linWrite s.xlat (.progWrite s.cpl) s.mem (s.linear r) (bytes2 v))

/-- The 16-bit source operand: the low half of a register, or two bytes of memory (40 R110). -/
def readSel (s : State) (pre : List Prefix) : RegMem → Run Sel
  | .reg r => .ok (s.regs.get16 r)
  | .mem m => readSelMem s (s.ref pre m)

/-- The descriptor LTR names, after its checks (40 R110). That a missing page under the descriptor raises a page fault before the instruction
is the model's choice (log 37). -/
def locateForLtr (sel : Sel) (s : State) : Run Descriptor := do
  orElse (!selNull sel) (raising .gp 0 .before s)
  orElse (!selTi sel) (raising .gp (errCode sel false) .before s)
  match s.desc sel with
  | .outOfBounds => .error (raising .gp (errCode sel false) .before s)
  | .pageFault => .error (pageFaultIn .before s)
  | .found d =>
    orElse (isTss d) (raising .gp (errCode sel false) .before s)
    orElse (!isBusy d) (raising .gp (errCode sel false) .before s)
    orElse (descPresent d) (raising .np (errCode sel false) .before s)
    return d

/-- TR loaded from a selector and its descriptor, which is marked busy (40 R110, D14). That a missing page under byte 5 raises a page fault
before the instruction is the model's choice (log 37). -/
def loadTr (sel : Sel) (d : Descriptor) (s : State) : Run State := do
  let m ← orPageFault .before s (runStores s.xlat .sysWrite s.mem (busyStores Config.ltrMarksBusy (s.busyByteAddr sel) setBusyBit))
  return { s with mem := m, tr := { valid := true, sel := sel, base := descBase d, limit := effectiveLimit d } }

/-- LTR r/m16 (40 R110): privileged; loads both parts of TR from a TSS descriptor of the GDT and marks it busy. -/
def execLtr (pre : List Prefix) (src : RegMem) (s : State) : Host.Outcome State Fault Refusal :=
  finish do
    orElse (s.cpl == 0) (raising .gp 0 .before s)
    let sel ← readSel s pre src
    let d ← locateForLtr sel s
    let s' ← loadTr sel d s
    return { s' with eip := s.nextEip (.ltr pre src) }

/-- STR r/m16 (40 R111): not privileged; stores the visible part of TR. Refused while TR has never been loaded (70 R233). -/
def execStr (pre : List Prefix) (dst : RegMem) (s : State) : Host.Outcome State Fault Refusal :=
  finish do
    orElse s.tr.valid (.refused .trNeverLoaded)
    match dst with
    | .reg r => return { s with regs := s.regs.set16 r s.tr.sel, eip := s.nextEip (.str pre dst) }
    | .mem m =>
      let mem ← writeSelMem s (s.ref pre m) s.tr.sel
      return { s with mem := mem, eip := s.nextEip (.str pre dst) }

end Sys2Proof.Machine
end

