-- ==== Sys2Proof/Machine/FarTransfer.lean ====
section
/-! DEFINITION. JMP and CALL with a far operand (42_task_switch_instructions.md R170 to R173). -/

namespace Sys2Proof.Machine

/-- Step 1 for JMP and CALL: `max(CPL, RPL) <= DPL` (41 R122 to R124, C4). -/
def mayUse (s : State) (sel : Sel) (d : Descriptor) : Bool :=
  decide (max s.cpl.toNat (selRpl sel).toNat ≤ (descDpl d).toNat)

/-- `FarTransfer(cause, s, off)` (42 R170): a task switch when the selector picks a TSS descriptor or a task gate; every other target
is outside the spec. The offset is not used (R173). -/
def farTransfer (c : Cause) (sel : Sel) (nextEip : Word) (s : State) : Run State := do
  orElse (!selNull sel) (.refused .farNullSelector)
  match s.desc sel with
  | .outOfBounds => .error (.refused .farSelectorOutOfBounds)
  | .pageFault => .error (pageFaultIn .outgoing s)
  | .found d =>
    if isTss d then
      orElse (!selTi sel) (raising .gp (errCode sel false) .outgoing s)
      orElse (mayUse s sel d) (raising .gp (errCode sel false) .outgoing s)
      taskSwitch c sel false nextEip s
    else if isTaskGate d then
      orElse (mayUse s sel d) (raising .gp (errCode sel false) .outgoing s)
      orElse (descPresent d) (raising .np (errCode sel false) .outgoing s)
      taskSwitch c (gateSelector d) false nextEip s
    else .error (.refused .farTargetNotTask)

/-- The bytes of the offset in a far pointer (30 R92). -/
def offsetBytes : OpSize → Nat
  | .s16 => 2
  | .s32 => 4

/-- The selector of a far pointer in memory, after its offset; the whole pointer is read (30 R92). -/
def readFarPointer (s : State) (size : OpSize) (r : Ref) : Run Sel := do
  orElse ((s.segs.get r.seg).cache.allows r.off (offsetBytes size + 2) false) (.raised (segFault r.seg false) s)
  let _ ← orPageFault .before s (match size with
    | .s16 => (linRead2 s.xlat s.mem (.progRead s.cpl) (s.linear r)).map fun v => v.setWidth 32
    | .s32 => linRead4 s.xlat s.mem (.progRead s.cpl) (s.linear r))
  orPageFault .before s
    (linRead2 s.xlat s.mem (.progRead s.cpl) (s.linear r + BitVec.ofNat 32 (offsetBytes size)))

/-- JMP ptr16:32 (42 R171). -/
def execJmpPtr32 (pre : List Prefix) (off : BitVec 32) (sel : Sel) (s : State) : Host.Outcome State Fault Refusal :=
  finish (farTransfer .jmp sel (s.nextEip (.jmpPtr32 pre off sel)) s)

/-- JMP ptr16:16 (42 R171). -/
def execJmpPtr16 (pre : List Prefix) (off : BitVec 16) (sel : Sel) (s : State) : Host.Outcome State Fault Refusal :=
  finish (farTransfer .jmp sel (s.nextEip (.jmpPtr16 pre off sel)) s)

/-- JMP m16:32 and m16:16 (42 R171). -/
def execJmpMem (pre : List Prefix) (size : OpSize) (op : Mem) (s : State) : Host.Outcome State Fault Refusal :=
  finish do
    let sel ← readFarPointer s size (s.ref pre op)
    farTransfer .jmp sel (s.nextEip (.jmpMem pre size op)) s

/-- CALL ptr16:32 (42 R172). -/
def execCallPtr32 (pre : List Prefix) (off : BitVec 32) (sel : Sel) (s : State) : Host.Outcome State Fault Refusal :=
  finish (farTransfer .call sel (s.nextEip (.callPtr32 pre off sel)) s)

/-- CALL ptr16:16 (42 R172). -/
def execCallPtr16 (pre : List Prefix) (off : BitVec 16) (sel : Sel) (s : State) : Host.Outcome State Fault Refusal :=
  finish (farTransfer .call sel (s.nextEip (.callPtr16 pre off sel)) s)

/-- CALL m16:32 and m16:16 (42 R172). -/
def execCallMem (pre : List Prefix) (size : OpSize) (op : Mem) (s : State) : Host.Outcome State Fault Refusal :=
  finish do
    let sel ← readFarPointer s size (s.ref pre op)
    farTransfer .call sel (s.nextEip (.callMem pre size op)) s

end Sys2Proof.Machine
end

