-- ==== Sys2Proof/Machine/Interrupts.lean ====
section
/-! DEFINITION. IRET and the interrupt instructions (42_task_switch_instructions.md R174 to R176). -/

namespace Sys2Proof.Machine

/-- IRET (42 R174): with NT = 1 the return along the back-link; with NT = 0 outside the spec (R175). -/
def execIret (pre : List Prefix) (s : State) : Host.Outcome State Fault Refusal :=
  finish do
    orElse (flagNt s.eflags) (.refused .iretWithinTask)
    returnToLink (s.nextEip (.iret pre)) s

/-- INT imm8 (42 R176). -/
def execIntImm (pre : List Prefix) (n : BitVec 8) (s : State) : Host.Outcome State Fault Refusal :=
  finish (vectorToTask n false Config.intGateDplCheck (s.nextEip (.intImm pre n)) s)

/-- INT 3 (42 R176): vector 3. -/
def execInt3 (pre : List Prefix) (s : State) : Host.Outcome State Fault Refusal :=
  finish (vectorToTask 3 false Config.intGateDplCheck (s.nextEip (.int3 pre)) s)

/-- INTO (42 R176): vector 4 when OF = 1, else only EIP advances. -/
def execInto (pre : List Prefix) (s : State) : Host.Outcome State Fault Refusal :=
  if flagOf s.eflags then finish (vectorToTask 4 false Config.intGateDplCheck (s.nextEip (.into pre)) s)
  else .next { s with eip := s.nextEip (.into pre) }

end Sys2Proof.Machine
end

