-- ==== Sys2Proof/Machine/Dispatch.lean ====
section
/-! DEFINITION. One meaning per instruction of `opcode_table.json`. -/

namespace Sys2Proof.Machine

def exec (i : Instr) (s : State) : Host.Outcome State Fault Refusal :=
  match i with
  | .ltr pre src => Sys2Proof.Machine.execLtr pre src s
  | .str pre dst => Sys2Proof.Machine.execStr pre dst s
  | .jmpPtr32 pre off sel => Sys2Proof.Machine.execJmpPtr32 pre off sel s
  | .jmpPtr16 pre off sel => Sys2Proof.Machine.execJmpPtr16 pre off sel s
  | .jmpMem pre size op => Sys2Proof.Machine.execJmpMem pre size op s
  | .callPtr32 pre off sel => Sys2Proof.Machine.execCallPtr32 pre off sel s
  | .callPtr16 pre off sel => Sys2Proof.Machine.execCallPtr16 pre off sel s
  | .callMem pre size op => Sys2Proof.Machine.execCallMem pre size op s
  | .iret pre => Sys2Proof.Machine.execIret pre s
  | .intImm pre n => Sys2Proof.Machine.execIntImm pre n s
  | .int3 pre => Sys2Proof.Machine.execInt3 pre s
  | .into pre => Sys2Proof.Machine.execInto pre s

end Sys2Proof.Machine
end

