-- ==== Sys2Proof/Machine/Step.lean ====
section
/-! DEFINITION. One step: what the instruction boundary brings, else the instruction at CS:EIP (41 R158, 60 R201). -/

namespace Sys2Proof.Machine

/-- The instruction at CS:EIP, decoded and run. -/
def stepInstr (s : State) : Host.Outcome State Fault Refusal :=
  match s.decoded with
  | .ok i _ => exec i s
  | .short => cutOff s
  | .reject e => undecodable e s

/-- One step of the machine. -/
def step (s : State) : Host.Outcome State Fault Refusal :=
  match s.boundary with
  | .debugTrap s' => deliver debugTrap s'
  | .interrupt n s' => externalInterrupt n s'
  | .instruction s' => stepInstr s'

/-- A table word placed where the next step fetches, with nothing pending at this boundary (log 24). -/
def State.withFetchWord (s : State) (nbits w : Nat) : State :=
  { s with mem := placeBytes s s.mem s.eip (tableBytes nbits w), debugPending := false, extInts := [] }

end Sys2Proof.Machine
end

