-- ==== Sys2Proof/Safety.lean ====
section
/-! DEFINITION. What the claims are stated in: the invariant of the machine, the bytes a task switch stores, and when a task switch
goes through, in the words of Tables 7-1 and 7-2 (41_task_switch_operation.md R148, R159). -/

namespace Sys2Proof.Machine

/-! ### The invariant every step keeps -/

/-- Memory is in canonical form. VM is clear (41 R142). CPL is the RPL of CS (10 R15, 41 R146). CS holds a code segment and SS a writable
data segment of level CPL (41 R151, R152). TR and the LDT register name descriptors of the GDT (10 R37, R39; 41 R150). -/
structure State.Inv (s : State) : Prop where
  memWf : Memory.wf s.mem = true
  vmClear : flagVm s.eflags = false
  cplIsRpl : s.cpl = selRpl s.segs.cs.sel
  csUsable : s.segs.cs.cache.usable = true
  csIsCode : s.segs.cs.cache.access.getLsbD 4 = true ∧ s.segs.cs.cache.access.getLsbD 3 = true
  ssUsable : s.segs.ss.cache.usable = true
  ssWritable : s.segs.ss.cache.writable = true
  ssLevel : s.segs.ss.cache.access.extractLsb' 5 2 = s.cpl ∧ selRpl s.segs.ss.sel = s.cpl
  trInGdt : s.tr.valid = true → selTi s.tr.sel = false ∧ selNull s.tr.sel = false
  ldtInGdt : s.ldtr.usable = true → selTi s.ldtr.sel = false ∧ selNull s.ldtr.sel = false

/-! ### The bytes a task switch stores (41 R133 to R138, R145) -/

/-- `n` linear addresses from `a` on. -/
def span (a : Word) : Nat → List Word
  | 0 => []
  | n + 1 => a :: span (a + 1) n

/-- The linear addresses of stores. -/
def addrsOf (l : List Store) : List Word := l.map (·.1)

/-- The linear addresses of the saved fields in the outgoing TSS. -/
def savedAddrs (c : Cause) (retEip : Word) (s : State) : List Word := addrsOf (savedStores c retEip s)

/-- Every store of a task switch, in order: byte 5 of the outgoing descriptor (JMP, IRET), the saved fields, byte 5 of the incoming
descriptor (not IRET), the back-link of the incoming TSS (CALL, INT). -/
def switchStores (c : Cause) (sel : Sel) (newBase retEip : Word) (s : State) : List Store :=
  outgoingStores c retEip s ++ incomingStores c sel s ++ backLinkStores c newBase s

/-- The linear addresses a task switch stores to. -/
def switchAddrs (c : Cause) (sel : Sel) (newBase retEip : Word) (s : State) : List Word :=
  addrsOf (switchStores c sel newBase retEip s)

/-- The physical bytes behind linear stores, each translated in the memory that the ones before it left (20 R78). -/
def physStores (x : Xlat) (acc : Access) : Memory → List Store → List Nat
  | _, [] => []
  | m, (a, f) :: l =>
    match x.phys m a acc with
    | none => []
    | some p => p.toNat :: physStores x acc (Memory.write m p.toNat (f (Memory.read m p.toNat))) l

/-- What linear stores leave of memory: the canonical form, and every physical byte that is not behind one of them. -/
def StoresOnly (x : Xlat) (acc : Access) (l : List Store) (m m' : Memory) : Prop :=
  (Memory.wf m = true → Memory.wf m' = true) ∧ ∀ p, p ∉ physStores x acc m l → Memory.read m' p = Memory.read m p

/-! ### Translations of every address to itself -/

/-- In a memory every linear address maps to itself for every access: paging off (20 R60), or page tables that say so. -/
def Xlat.Flat (x : Xlat) (m : Memory) : Prop := ∀ a acc, x.phys m a acc = some a

/-- The same in that memory and in every one that differs from it only where the stores are: no store is to a page table that matters. -/
def Xlat.FlatUnder (x : Xlat) (l : List Store) (m : Memory) : Prop :=
  ∀ m', (∀ p, p ∉ (addrsOf l).map BitVec.toNat → Memory.read m' p = Memory.read m p) → x.Flat m'

/-! ### When a task switch goes through (Table 7-1) -/

/-- Tests 4 and 5, and what the LDT register then holds (41 R150, R154). -/
def LdtLoads (s : State) (l : Sel) (ldt : LdtReg) : Prop :=
  (selNull l = true ∧ ldt = { sel := l, usable := false, base := 0, limit := 0 }) ∨
    (selNull l = false ∧ selTi l = false ∧
      ∃ d, s.desc l = .found d ∧ isLdt d = true ∧ descPresent d = true ∧
        ldt = { sel := l, usable := true, base := descBase d, limit := effectiveLimit d })

/-- A selector's descriptor in the GDT or in the incoming task's LDT, as memory stands before the switch. -/
def State.descIn (s : State) (ldt : LdtReg) (sel : Sel) : Lookup := lookup s.xlat s.mem s.gdt ldt sel

/-- Tests 6 to 8 (41 R151). -/
def CodeLoads (s : State) (ldt : LdtReg) (c : Sel) : Prop :=
  selNull c = false ∧ ∃ d, s.descIn ldt c = .found d ∧ isCode d = true ∧ descPresent d = true ∧
    (if isConforming d then (descDpl d).toNat ≤ (selRpl c).toNat else descDpl d = selRpl c)

/-- Tests 9 to 12 (41 R152). -/
def StackLoads (s : State) (ldt : LdtReg) (cpl : BitVec 2) (v : Sel) : Prop :=
  selNull v = false ∧ ∃ d, s.descIn ldt v = .found d ∧ isWritableData d = true ∧ descPresent d = true ∧
    descDpl d = cpl ∧ selRpl v = cpl

/-- Tests 13 to 16 of one register (41 R153, R154). -/
def DataLoads (s : State) (ldt : LdtReg) (cpl : BitVec 2) (v : Sel) : Prop :=
  selNull v = true ∨ ∃ d, s.descIn ldt v = .found d ∧ descS d = true ∧ isReadable d = true ∧ descPresent d = true ∧
    (isConforming d = true ∨ cpl.toNat ≤ (descDpl d).toNat)

/-- The linear addresses of the descriptor a selector names. -/
def descAddrs (s : State) (ldt : LdtReg) (v : Sel) : List Word :=
  span ((if selTi v then ldt.base else s.gdt.base) + selOffset v) 8

/-- None of the addresses is in the other list. -/
def apart (l stores : List Word) : Bool := l.all fun a => !stores.contains a

/-- The incoming TSS descriptor passes steps 1 to 3 of Table 7-1 for a cause (41 R126 to R131). -/
def TargetReady (c : Cause) (sel : Sel) (d : Descriptor) (s : State) : Prop :=
  s.tr.valid = true ∧ selNull sel = false ∧ selTi sel = false ∧ s.desc sel = .found d ∧ isTss d = true ∧
    descPresent d = true ∧ isBusy d = !setsIncomingBusy c ∧ (descG d = true → 103 ≤ (rawLimit d).toNat) ∧
    103 ≤ (effectiveLimit d).toNat

/-- The selectors of an image. -/
def Image.sels (img : Image) : List Sel := [img.ldt, img.cs, img.ss, img.ds, img.es, img.fs, img.gs]

/-- What a task switch asks of the state before it so that steps 1 to 5 go through: the target passes tests 1 to 3; `img` is what the
incoming TSS holds; linear addresses map to themselves under both page directories, whatever the switch has stored; and the bytes the
switch reads after its stores are none of those it stores to (no structure overlaps another: 70 R234, R245). `ldt` is the LDT register that the
descriptors are looked up in. -/
structure LoadReady (c : Cause) (sel : Sel) (d : Descriptor) (img : Image) (ldt : LdtReg) (retEip : Word) (s : State) : Prop where
  flat : s.xlat.FlatUnder (switchStores c sel (descBase d) retEip s) s.mem
  flatNew : (s.xlat.under img.pdbr).FlatUnder (switchStores c sel (descBase d) retEip s) s.mem
  target : TargetReady c sel d s
  image : loadImage s.xlat s.mem (descBase d) = some img
  tssApart : apart (span (descBase d + 0x1C#32) 0x4A) (switchAddrs c sel (descBase d) retEip s) = true
  descApart : ∀ v ∈ img.sels, selNull v = false →
    apart (descAddrs s ldt v) (switchAddrs c sel (descBase d) retEip s) = true

/-- Everything a task switch asks: the above; the incoming EFLAGS image has VM = 0 (41 R142); and the selectors of the image pass
tests 4 to 16, `ldt` being the LDT register they leave. -/
structure SwitchReady (c : Cause) (sel : Sel) (d : Descriptor) (img : Image) (ldt : LdtReg) (retEip : Word) (s : State) : Prop
    extends LoadReady c sel d img ldt retEip s where
  vmClear : flagVm img.eflags = false
  ldtLoads : LdtLoads s img.ldt ldt
  code : CodeLoads s ldt img.cs
  stack : StackLoads s ldt (selRpl img.cs) img.ss
  data : ∀ v ∈ [img.ds, img.es, img.fs, img.gs], DataLoads s ldt (selRpl img.cs) v

/-! ### What a completed task switch leaves -/

/-- A segment register loaded with a selector: unusable when null, else with its descriptor's invisible part (10 R14, 41 R154). -/
def LoadedSeg (s : State) (ldt : LdtReg) (v : Sel) (g : SegReg) : Prop :=
  g.sel = v ∧ ((selNull v = true ∧ g.cache = .unloaded) ∨
    (selNull v = false ∧ ∃ d, s.descIn ldt v = .found d ∧ g.cache = .ofDesc d))

/-- What a completed task switch leaves outside memory (41 R137 to R147, R156, R157): the incoming task's registers as its TSS held
them, NT by the cause, CPL from CS, TR naming the incoming task, TS set, a debug trap pending exactly when the T bit is set. -/
structure Switched (c : Cause) (sel : Sel) (d : Descriptor) (img : Image) (ldt : LdtReg) (s t : State) : Prop where
  regs : t.regs = img.regs
  eip : t.eip = img.eip
  eflags : t.eflags = loadedFlags c img.eflags
  cpl : t.cpl = selRpl img.cs
  cs : LoadedSeg s ldt img.cs t.segs.cs
  ss : LoadedSeg s ldt img.ss t.segs.ss
  ds : LoadedSeg s ldt img.ds t.segs.ds
  es : LoadedSeg s ldt img.es t.segs.es
  fs : LoadedSeg s ldt img.fs t.segs.fs
  gs : LoadedSeg s ldt img.gs t.segs.gs
  ldtr : t.ldtr = ldt
  tr : t.tr = { valid := true, sel := sel, base := descBase d, limit := effectiveLimit d }
  cr0 : t.cr0 = s.cr0 ||| 0x00000008#32
  pdbr : t.pdbr = img.pdbr
  gdt : t.gdt = s.gdt
  idt : t.idt = s.idt
  trap : trapBit s.xlat s.mem (descBase d) = some t.debugPending
  cr2 : t.cr2 = s.cr2
  debugRegs : t.debugRegs = s.debugRegs
  testRegs : t.testRegs = s.testRegs
  extInts : t.extInts = s.extInts
  choices : t.choices = s.choices

/-- What a completed task switch leaves in memory where it stored (41 R133 to R138, R145): the outgoing task's registers in the
outgoing TSS, the busy bits, the back-link. -/
structure SwitchStored (c : Cause) (sel : Sel) (d : Descriptor) (retEip : Word) (s t : State) : Prop where
  eip : linRead4 s.xlat t.mem .sysRead (s.tr.base + 0x20#32) = some retEip
  eflags : linRead4 s.xlat t.mem .sysRead (s.tr.base + 0x24#32) = some (savedFlags c s.eflags)
  regs : ∀ r, linRead4 s.xlat t.mem .sysRead (s.tr.base + tssReg r) = some (s.regs.get r)
  segs : ∀ r, linRead2 s.xlat t.mem .sysRead (s.tr.base + tssSeg r) = some (s.segs.get r).sel
  outgoingBusy : clearsOutgoingBusy c = true →
    Memory.read t.mem (s.busyByteAddr s.tr.sel).toNat = Memory.read s.mem (s.busyByteAddr s.tr.sel).toNat &&& 0xFD#8
  incomingBusy : setsIncomingBusy c = true →
    Memory.read t.mem (s.busyByteAddr sel).toNat = Memory.read s.mem (s.busyByteAddr sel).toNat ||| 0x02#8
  backLink : writesBackLink c = true → linRead2 s.xlat t.mem .sysRead (descBase d) = some s.tr.sel

/-- A task switch with cause `c` to `sel`, saving `retEip`, completed from `s` in `t`: every register and every byte of memory. -/
def SwitchCompletes (c : Cause) (sel : Sel) (d : Descriptor) (img : Image) (ldt : LdtReg) (retEip : Word) (s t : State) : Prop :=
  Switched c sel d img ldt s t ∧ StoresOnly s.xlat .sysWrite (switchStores c sel (descBase d) retEip s) s.mem t.mem ∧
    (Memory.wf s.mem = true → (switchAddrs c sel (descBase d) retEip s).Nodup → SwitchStored c sel d retEip s t)

/-! ### The task structures are well formed (70 R234) -/

/-- A selector names a TSS descriptor of the GDT. -/
def State.TaskAt (s : State) (v : Sel) (d : Descriptor) : Prop :=
  selNull v = false ∧ selTi v = false ∧ s.desc v = .found d ∧ isTss d = true

/-- The chain of back-links from a task on, `nt` being its NT bit: it ends where NT is clear; else the back-link names a busy task, whose own
NT bit is in the EFLAGS image of its TSS (41 R163). -/
def State.Chain (s : State) : Bool → Word → List Sel → Prop
  | nt, _, [] => nt = false
  | nt, base, v :: l =>
    nt = true ∧ linRead2 s.xlat s.mem .sysRead base = some v ∧
      ∃ d f, s.TaskAt v d ∧ isBusy d = true ∧ linRead4 s.xlat s.mem .sysRead (descBase d + 0x24#32) = some f ∧
        s.Chain (flagNt f) (descBase d) l

/-- Two states that agree but for what is used up or recorded on the way to a task switch: the interrupt list, the pending trap, the count of free
values, CR2 and the debug registers. -/
def SameTask (s t : State) : Prop :=
  t = { s with extInts := t.extInts, debugPending := t.debugPending, choices := t.choices, cr2 := t.cr2, debugRegs := t.debugRegs }

/-- The tasks in execution: none until TR is loaded; then the current task and, after it, the tasks of its chain of back-links. -/
def State.Running (s : State) : List Sel → Prop
  | [] => s.tr.valid = false
  | v :: l => s.tr.valid = true ∧ v = s.tr.sel ∧ s.Chain (flagNt s.eflags) s.tr.base l

/-- A linear address of the GDT, or of the TSS that a descriptor of it defines. -/
def State.InStructure (s : State) (a : Word) : Prop :=
  a ∈ region s.gdt.base (s.gdt.limit.toNat + 1) ∨ ∃ v d, s.TaskAt v d ∧ a ∈ tssRegion (descBase d) (effectiveLimit d)

/-- The conditions of 70 R234; `l` are the tasks in execution, `left` the tasks that software has left busy. Two conditions are not R234's but the
model's, which their upkeep needs (log 2): no TSS overlaps the GDT, and no task is twice in `l`. -/
structure State.TasksWf (s : State) (l left : List Sel) : Prop where
  /-- TR names a present, busy TSS descriptor of the GDT, and holds its base and limit (10 R39, 40 R110). -/
  current : s.tr.valid = true → ∃ d, s.TaskAt s.tr.sel d ∧ descPresent d = true ∧ isBusy d = true ∧ s.tr.base = descBase d ∧
    s.tr.limit = effectiveLimit d
  /-- No two TSS descriptors have overlapping ranges (R245). -/
  tssApart : ∀ v w d e, s.TaskAt v d → s.TaskAt w e → selIndex v ≠ selIndex w →
    apart (span (descBase d) 0x68) (span (descBase e) 0x68) = true
  /-- No TSS overlaps the GDT (log 2). -/
  gdtApart : ∀ v d, s.TaskAt v d → apart (span (descBase d) 0x68) (span s.gdt.base (s.gdt.limit.toNat + 1)) = true
  /-- Every TSS, as its descriptor defines it, and the GDT are mapped alike by the page directories of all tasks (R244, 20 R74). -/
  common : ∀ v d p, s.TaskAt v d → linRead4 s.xlat s.mem .sysRead (descBase d + 0x1C#32) = some p →
    ∀ a, s.InStructure a → ∀ acc, (s.xlat.under p).phys s.mem a acc = s.xlat.phys s.mem a acc
  /-- The chain of the current task consists of busy tasks (41 R163). -/
  running : s.Running l
  /-- No task is twice in execution (log 2). -/
  once : (l.map selIndex).Nodup
  /-- Every busy task is current, on the chain, or left so by software. -/
  busy : ∀ v d, s.TaskAt v d → isBusy d = true → selIndex v ∈ (l ++ left).map selIndex

/-- The tasks in execution after a switch with a cause to `sel` (41 R161 to R163): CALL and INT put the new task before them, IRET takes the
current one away, JMP leaves the new task alone. -/
def runningAfter (c : Cause) (sel : Sel) (l : List Sel) : List Sel :=
  match c with
  | .call | .int => sel :: l
  | .jmp => [sel]
  | .iret => l.tail

/-- The tasks left busy by software after a switch: a JMP leaves the chain of its task. -/
def leftAfter (c : Cause) (l left : List Sel) : List Sel :=
  match c with
  | .jmp => l.tail ++ left
  | .call | .int | .iret => left

/-- Each byte of the GDT and of the TSSs has one physical byte of its own, whatever the access. -/
def State.OwnBytes (s : State) : Prop :=
  ∀ a b acc acc' p q, s.InStructure a → s.InStructure b → s.xlat.phys s.mem a acc = some p → s.xlat.phys s.mem b acc' = some q →
    (p = q ↔ a = b)

/-- The stores change no translation, under any page directory: none is to a page table. -/
def Xlat.KeptUnder (x : Xlat) (l : List Store) (m : Memory) : Prop :=
  ∀ m', (∀ p, p ∉ physStores x .sysWrite m l → Memory.read m' p = Memory.read m p) →
    ∀ pdbr a acc, (x.under pdbr).phys m' a acc = (x.under pdbr).phys m a acc

/-! ### The operands of the instructions, in the words of their rules -/

/-- The 16-bit source operand of LTR is `sel`: the low half of a register, or the two bytes at `EA` (40 R110). -/
def Operand16 (s : State) (pre : List Prefix) (src : RegMem) (sel : Sel) : Prop :=
  match src with
  | .reg r => sel = (s.regs.get r).extractLsb' 0 16
  | .mem m =>
    let r := s.ref pre m
    (s.segs.get r.seg).cache.allows r.off 2 false = true ∧
      linRead2 s.xlat s.mem (.progRead s.cpl) (s.linear r) = some sel

/-- When LTR goes through (40 R110); `p` is the physical address of the descriptor's byte 5. -/
structure LtrReady (pre : List Prefix) (src : RegMem) (sel : Sel) (d : Descriptor) (p : Word) (s : State) : Prop where
  level : s.cpl = 0
  operand : Operand16 s pre src sel
  notNull : selNull sel = false
  inGdt : selTi sel = false
  found : s.desc sel = .found d
  isTss : isTss d = true
  notBusy : isBusy d = false
  present : descPresent d = true
  mapped : s.xlat.phys s.mem (s.busyByteAddr sel) .sysWrite = some p

/-- The far pointer in memory of JMP and CALL can be read and its selector, after the offset, is `sel` (30 R92). -/
def FarPointer (s : State) (pre : List Prefix) (size : OpSize) (m : Mem) (sel : Sel) : Prop :=
  let r := s.ref pre m
  (s.segs.get r.seg).cache.allows r.off (offsetBytes size + 2) false = true ∧
    (∀ k < offsetBytes size, (s.xlat.phys s.mem (s.linear r + BitVec.ofNat 32 k) (.progRead s.cpl)).isSome = true) ∧
    linRead2 s.xlat s.mem (.progRead s.cpl) (s.linear r + BitVec.ofNat 32 (offsetBytes size)) = some sel

/-- `i` is a far JMP or CALL with cause `c`, and the selector of its operand is `sel` (42 R170 to R172). -/
def FarOperand (s : State) (i : Instr) (c : Cause) (sel : Sel) : Prop :=
  match i with
  | .jmpPtr32 _ _ v => c = .jmp ∧ sel = v
  | .jmpPtr16 _ _ v => c = .jmp ∧ sel = v
  | .jmpMem pre size m => c = .jmp ∧ FarPointer s pre size m sel
  | .callPtr32 _ _ v => c = .call ∧ sel = v
  | .callPtr16 _ _ v => c = .call ∧ sel = v
  | .callMem pre size m => c = .call ∧ FarPointer s pre size m sel
  | .ltr _ _ | .str _ _ | .iret _ | .intImm _ _ | .int3 _ | .into _ => False

/-- `i` is an interrupt instruction that enters vector `n`: INT n, INT 3, INTO with OF = 1 (42 R176). -/
def IntVector (s : State) (i : Instr) (n : BitVec 8) : Prop :=
  match i with
  | .intImm _ v => n = v
  | .int3 _ => n = 3
  | .into _ => n = 4 ∧ flagOf s.eflags = true
  | .ltr _ _ | .str _ _ | .jmpPtr32 _ _ _ | .jmpPtr16 _ _ _ | .jmpMem _ _ _ | .callPtr32 _ _ _ | .callPtr16 _ _ _
  | .callMem _ _ _ | .iret _ => False

/-- The cause with which an instruction may switch tasks (42 R183). -/
def causeOf : Instr → Option Cause
  | .jmpPtr32 _ _ _ | .jmpPtr16 _ _ _ | .jmpMem _ _ _ => some .jmp
  | .callPtr32 _ _ _ | .callPtr16 _ _ _ | .callMem _ _ _ => some .call
  | .intImm _ _ | .int3 _ | .into _ => some .int
  | .iret _ => some .iret
  | .ltr _ _ | .str _ _ => none

end Sys2Proof.Machine
end

