-- ==== Sys2Proof/WellFormed.lean ====
section
/-! DEFINITION. Which terms of `Instr` an encoding exists for. `big` is the D bit of the code segment: true where the default operand
and address sizes are 32 bits (30_encoding.md R93, log 18). -/

namespace Sys2Proof

/-- ESP cannot be a base without a SIB byte, and EBP cannot be a base without a displacement (log 16). -/
def Addr32.wf : Addr32 → Bool
  | .direct _ => true
  | .base b d => b != .esp && !(b == .ebp && d == .none)
  | .sib b index _ d => index != some .esp && !(b == .ebp && d == .none)
  | .sibDirect index _ _ => index != some .esp

/-- BP cannot be a base without a displacement (log 16). -/
def Addr16.wf : Addr16 → Bool
  | .direct _ => true
  | .base b d => !(b == .bp && d == .none)

/-- A memory operand is well formed and of the address size the prefixes give. -/
def Mem.wf (addr32 : Bool) : Mem → Bool
  | .a32 a => addr32 && a.wf
  | .a16 a => !addr32 && a.wf

def RegMem.wf (addr32 : Bool) : RegMem → Bool
  | .reg _ => true
  | .mem m => m.wf addr32

/-- The operand size agrees with the prefixes and the operands are well formed. -/
def Instr.operandsWf (big : Bool) : Instr → Bool
  | .ltr p o | .str p o => o.wf (addrSize32 big p)
  | .jmpPtr32 p _ _ | .callPtr32 p _ _ => opSize32 big p
  | .jmpPtr16 p _ _ | .callPtr16 p _ _ => !opSize32 big p
  | .jmpMem p z m | .callMem p z m => (z == farSize big p) && m.wf (addrSize32 big p)
  | .iret _ | .intImm _ _ | .int3 _ | .into _ => true

/-- An instruction a code segment with D bit `big` can hold: its operands fit its prefixes, of which there may be any number (log 17). -/
def Instr.wf (big : Bool) (i : Instr) : Bool := i.operandsWf big

end Sys2Proof
end

