-- ==== Sys2Proof/Certificates/Slice0/Obligations.lean ====
section
/-! DEFINITION. The statements for the provers. Each docstring names the rules of spec/ it formalises; where it rests on a choice of the
model it names the log entry. -/

section
open Sys2Proof Sys2Proof.Machine

/-! ### Encoding (30 R91 to R96) -/

/-- 30 R91 to R94: decoding the bytes of a well-formed instruction, whatever follows them, gives it back with every operand. -/
def Obligations.DecodeOfEncode : Prop :=
  ∀ (big : Bool) (i : Instr) (rest : List Byte), i.wf big = true → decode big (encode i ++ rest) = .ok i rest

/-- 30 R91 to R94: what the decoder takes is well formed, and the bytes it took are its encoding: no byte is dropped. -/
def Obligations.DecodedBytesAreTheEncoding : Prop :=
  ∀ (big : Bool) (bs rest : List Byte) (i : Instr), decode big bs = .ok i rest →
    i.wf big = true ∧ bs = encode i ++ rest

/-- 30 R94, R92: the worked encodings of the rule, read in a 32-bit code segment, and a word of each row without a worked encoding. That
ModRM bytes 2D and 1D (mod 00, rm 101) are followed by a 32-bit address is no rule of the spec, which leaves the addressing forms out
(R91), but the model's choice (log 16). -/
def Obligations.WorkedEncodings : Prop :=
  decode true [0x0F, 0x00, 0xD8] = .ok (.ltr [] (.reg .eax)) [] ∧
  decode true [0x0F, 0x00, 0xC8] = .ok (.str [] (.reg .eax)) [] ∧
  decode true [0x0F, 0x00, 0xCB] = .ok (.str [] (.reg .ebx)) [] ∧
  decode true [0xEA, 0x00, 0x00, 0x00, 0x00, 0x20, 0x00] = .ok (.jmpPtr32 [] 0 0x0020) [] ∧
  decode true [0x9A, 0x00, 0x00, 0x00, 0x00, 0x28, 0x00] = .ok (.callPtr32 [] 0 0x0028) [] ∧
  decode true [0xCF] = .ok (.iret []) [] ∧
  decode true [0xCD, 0x20] = .ok (.intImm [] 32) [] ∧
  decode true [0x66, 0xEA, 0x34, 0x12, 0x20, 0x00] = .ok (.jmpPtr16 [.opSize] 0x1234 0x0020) [] ∧
  decode true [0x66, 0x9A, 0x34, 0x12, 0x28, 0x00] = .ok (.callPtr16 [.opSize] 0x1234 0x0028) [] ∧
  decode true [0xFF, 0x2D, 0x00, 0x60, 0x00, 0x00] = .ok (.jmpMem [] .s32 (.a32 (.direct 0x6000))) [] ∧
  decode true [0xFF, 0x1D, 0x00, 0x60, 0x00, 0x00] = .ok (.callMem [] .s32 (.a32 (.direct 0x6000))) [] ∧
  decode true [0xCC] = .ok (.int3 []) [] ∧ decode true [0xCE] = .ok (.into []) []

/-- 30 R96: `FF /3` and `FF /5` with `mod = 11` are no instruction, after any prefixes; where a step meets them it takes the
invalid-opcode exception, vector 6, before the instruction. -/
def Obligations.FarPointerInRegisterRaises : Prop :=
  (∀ (big : Bool) (pre : List Prefix) (modrm : Byte) (rest : List Byte),
    modrm.extractLsb' 6 2 = 3#2 → (modrm.extractLsb' 3 3 = 3#3 ∨ modrm.extractLsb' 3 3 = 5#3) →
      decode big (pre.map Prefix.byte ++ 0xFF#8 :: modrm :: rest) = .reject .farPointerInRegister) ∧
  ∀ s : State, s.debugPending = false → s.extInts = [] → s.decoded = .reject .farPointerInRegister →
    step s = deliver { exc := .invalidOpcode, code := none, ctx := .before } s ∧ vectorOf .invalidOpcode = 6#8

/-- 30 R96: bytes that are no row of the table are rejected by name, after any prefixes (another opcode, another two-byte opcode, another member
of the `0F 00` or the `FF` group), and a step that meets them has no meaning; neither has one that meets prefixes around the whole
code segment and no opcode (log 17). -/
def Obligations.UndecodableBytesAreRefused : Prop :=
  (∀ (big : Bool) (pre : List Prefix) (op : Byte) (rest : List Byte), prefixOfByte op = none →
    op ∉ [0x0F#8, 0xEA#8, 0x9A#8, 0xFF#8, 0xCF#8, 0xCD#8, 0xCC#8, 0xCE#8] →
      decode big (pre.map Prefix.byte ++ op :: rest) = .reject (.otherOpcode op)) ∧
  (∀ (big : Bool) (pre : List Prefix) (op : Byte) (rest : List Byte), op ≠ 0x00#8 →
    decode big (pre.map Prefix.byte ++ 0x0F#8 :: op :: rest) = .reject (.otherOpcode0F op)) ∧
  (∀ (big : Bool) (pre : List Prefix) (modrm : Byte) (rest : List Byte), modrm.extractLsb' 3 3 ∉ [1#3, 3#3] →
    decode big (pre.map Prefix.byte ++ 0x0F#8 :: 0x00#8 :: modrm :: rest) =
      .reject (.otherGroupMember 0x00#8 (modrm.extractLsb' 3 3))) ∧
  (∀ (big : Bool) (pre : List Prefix) (modrm : Byte) (rest : List Byte), modrm.extractLsb' 3 3 ∉ [3#3, 5#3] →
    decode big (pre.map Prefix.byte ++ 0xFF#8 :: modrm :: rest) = .reject (.otherGroupMember 0xFF#8 (modrm.extractLsb' 3 3))) ∧
  ∀ s : State, s.debugPending = false → s.extInts = [] →
    (∀ e, s.decoded = .reject e → e ≠ .farPointerInRegister → step s = .refused (.undecodable e)) ∧
    (s.decoded = .short → s.fetch.2 = .enough → step s = .refused (.undecodable .onlyPrefixes))

/-! ### A step -/

/-- 41 R158, 60 R201: with nothing pending and no interrupt presented, a step is the instruction decoded at CS:EIP. An entry of the
environment's list is used up (log 13). -/
def Obligations.StepRunsTheDecodedInstruction : Prop :=
  ∀ (s : State) (i : Instr) (rest : List Byte), s.debugPending = false →
    (s.extInts = [] ∨ ∃ l, s.extInts = none :: l) → s.decoded = .ok i rest →
      step s = exec i { s with extInts := s.extInts.tail }

/-- 41 R158, 30 R91: when the bytes of a well-formed instruction stand at CS:EIP, within the limit of CS and mapped for fetching, a step
runs that instruction. -/
def Obligations.StepRunsTheStoredInstruction : Prop :=
  ∀ (s : State) (i : Instr), s.debugPending = false → s.extInts = [] → i.wf s.segs.cs.cache.big = true →
    (∀ (k : Nat) (b : Byte), (encode i)[k]? = some b →
      s.segs.cs.cache.inLimit (s.eip + BitVec.ofNat 32 k) 1 = true ∧
        ∃ p, s.xlat.phys s.mem (s.segs.cs.cache.base + (s.eip + BitVec.ofNat 32 k)) (.fetch s.cpl) = some p ∧
          Memory.read s.mem p.toNat = b) →
      step s = exec i s

/-- 41 R157, 60 R195: a debug trap that a switch left pending is delivered before anything else, with no error code, at the EIP the
state holds (the pending bit is the model's, log 12). -/
def Obligations.PendingDebugTrapComesFirst : Prop :=
  ∀ s : State, s.debugPending = true →
    step s = deliver { exc := .debug, code := none, ctx := .incoming } { s with debugPending := false } ∧
      vectorOf .debug = 1#8

/-- 42 R177: an external interrupt accepted between two instructions, through a task gate, is the task switch with cause INT to the gate's
selector, with no privilege check, EXT 1, saving the EIP of the next instruction; it completes when the target is ready (41 R121, R148,
R159). That interrupts come from a list in the state, an entry for each boundary, is the model's choice (log 13). A gate that is not present
raises NP selecting the IDT entry, with EXT 1: that is D30 with 60 R196, not R177. -/
def Obligations.ExternalInterruptSwitches : Prop :=
  ∀ (s : State) (n : BitVec 8) (l : List (Option (BitVec 8))) (g : Descriptor),
    s.debugPending = false → s.extInts = some n :: l →
    State.idtEntry { s with extInts := l } n = .found g → isTaskGate g = true →
      (descPresent g = false →
        step s = deliver { exc := .np, code := some (n.setWidth 16 * 8#16 + 3#16), ctx := .outgoing } { s with extInts := l }) ∧
      (descPresent g = true →
        step s = finish (taskSwitch .int (gateSelector g) true s.eip { s with extInts := l }) ∧
        ∀ d img ldt, SwitchReady .int (gateSelector g) d img ldt s.eip { s with extInts := l } →
          ∃ t, step s = .next t ∧ SwitchCompletes .int (gateSelector g) d img ldt s.eip { s with extInts := l } t)

/-! ### The invariant -/

/-- The state after reset meets the invariant (its values are the model's choice, log 1). -/
def Obligations.InvariantAtReset : Prop := State.Inv State.reset

/-- 10 R15, R37, R39, 41 R142, R146, R150 to R152: every step from a state that meets the invariant ends in one that does. -/
def Obligations.InvariantKeptByStep : Prop := ∀ s t : State, State.Inv s → step s = .next t → State.Inv t

/-- 70 R234: these operations keep the task structures well formed, where memory is canonical, each byte of the structures has a physical byte of
its own, and no store is to a page table: a switch with any cause, the return along the back-link among them (42 R174), whether it completes or
raises; LTR, where the tasks from the new one on form a chain, as they do when NT is clear; and whatever leaves the structures alone. The
statement says which tasks are then in execution, and which busy ones software has left so. No TSS overlapping the GDT, and no task twice in
execution, are no conditions of R234 but the model's choice (log 2). -/
def Obligations.TaskStructuresStayWellFormed : Prop :=
  let steady (l : List Store) (s : State) := Memory.wf s.mem = true ∧ s.OwnBytes ∧ s.xlat.KeptUnder l s.mem
  (∀ (c : Cause) (sel : Sel) (ext : Bool) (retEip : Word) (d : Descriptor) (s : State) (l left : List Sel), s.TasksWf l left →
    s.desc sel = .found d → steady (switchStores c sel (descBase d) retEip s) s →
    (c = .iret → flagNt s.eflags = true ∧ linRead2 s.xlat s.mem .sysRead s.tr.base = some sel) →
    (∀ t, (taskSwitch c sel ext retEip s = .ok t ∨
        ∃ r, r.ctx = .incoming ∧ taskSwitch c sel ext retEip s = .error (.raised r t)) →
      t.TasksWf (runningAfter c sel l) (leftAfter c l left)) ∧
    ∀ r t, r.ctx ≠ .incoming → taskSwitch c sel ext retEip s = .error (.raised r t) → t.TasksWf l left) ∧
  (∀ (pre : List Prefix) (src : RegMem) (sel : Sel) (d : Descriptor) (p : Word) (s t : State) (l left chain : List Sel),
    s.TasksWf l left → LtrReady pre src sel d p s → steady [(s.busyByteAddr sel, setBusyBit)] s →
    s.Chain (flagNt s.eflags) (descBase d) chain → (chain.map selIndex).Nodup →
    exec (.ltr pre src) s = .next t → t.TasksWf (sel :: chain) (l ++ left)) ∧
  ∀ (s t : State) (l left : List Sel), s.TasksWf l left → t.gdt = s.gdt → t.tr = s.tr → t.eflags = s.eflags → t.xlat = s.xlat →
    (∀ a, s.InStructure a → linRead1 t.xlat t.mem .sysRead a = linRead1 s.xlat s.mem .sysRead a ∧
      ∀ p acc, (s.xlat.under p).phys t.mem a acc = (s.xlat.under p).phys s.mem a acc) →
    t.TasksWf l left

/-! ### Memory (20 R60 to R63) -/

/-- 20 R62: little-endian reads of 2 and 4 bytes, writes that are their inverse (where no two of the bytes are one physical byte and the write
leaves their translation as it was), at any address; a descriptor and the immediate operands of an instruction in the same order. -/
def Obligations.LittleEndian : Prop :=
  (∀ (x : Xlat) (m : Memory) (acc : Access) (a : Word) (b0 b1 : Byte),
    linRead1 x m acc a = some b0 → linRead1 x m acc (a + 1) = some b1 → linRead2 x m acc a = some (b1 ++ b0)) ∧
  (∀ (x : Xlat) (m : Memory) (acc : Access) (a : Word) (b0 b1 b2 b3 : Byte),
    linRead1 x m acc a = some b0 → linRead1 x m acc (a + 1) = some b1 → linRead1 x m acc (a + 2) = some b2 →
    linRead1 x m acc (a + 3) = some b3 → linRead4 x m acc a = some (b3 ++ b2 ++ b1 ++ b0)) ∧
  (∀ (x : Xlat) (m : Memory) (acc : Access) (a : Word) (lo hi : BitVec 32),
    linRead4 x m acc a = some lo → linRead4 x m acc (a + 4) = some hi → linRead8 x m acc a = some (hi ++ lo)) ∧
  (∀ (x : Xlat) (m m' : Memory) (acc : Access) (a : Word) (v : BitVec 16),
    Memory.wf m = true → linWrite x acc m a (bytes2 v) = some m' → (physStores x acc m (storeBytes a (bytes2 v))).Nodup →
    ((span a 2).map fun b => (x.phys m' b acc).map BitVec.toNat) = (physStores x acc m (storeBytes a (bytes2 v))).map some →
      linRead2 x m' acc a = some v) ∧
  (∀ (x : Xlat) (m m' : Memory) (acc : Access) (a : Word) (v : BitVec 32),
    Memory.wf m = true → linWrite x acc m a (bytes4 v) = some m' → (physStores x acc m (storeBytes a (bytes4 v))).Nodup →
    ((span a 4).map fun b => (x.phys m' b acc).map BitVec.toNat) = (physStores x acc m (storeBytes a (bytes4 v))).map some →
      linRead4 x m' acc a = some v) ∧
  ∀ (b0 b1 b2 b3 b4 b5 : Byte),
    decode true [0xEA, b0, b1, b2, b3, b4, b5] = .ok (.jmpPtr32 [] (b3 ++ b2 ++ b1 ++ b0) (b5 ++ b4)) [] ∧
      decode false [0x9A, b0, b1, b2, b3] = .ok (.callPtr16 [] (b1 ++ b0) (b3 ++ b2)) []

/-- 20 R60, R71: with `PG = 0` every linear address is its own physical address, for every access. -/
def Obligations.PagingOffMapsToItself : Prop :=
  ∀ (s : State) (m : Memory) (a : Word) (acc : Access), s.pg = false → s.xlat.phys m a acc = some a

/-- 10 R16, R31, R32, R41, R47: the fields of a selector and of a descriptor of bytes `b0` to `b7`, the effective limit, and every predicate of
the access byte. -/
def Obligations.SelectorAndDescriptorFields : Prop :=
  (∀ sel : Sel, selRpl sel = sel.extractLsb' 0 2 ∧ selTi sel = sel.getLsbD 2 ∧ selIndex sel = sel.extractLsb' 3 13 ∧
    (selNull sel = true ↔ sel &&& 0xFFFC#16 = 0#16)) ∧
  ∀ b0 b1 b2 b3 b4 b5 b6 b7 : Byte,
    let d : Descriptor := b7 ++ b6 ++ b5 ++ b4 ++ b3 ++ b2 ++ b1 ++ b0
    accessByte d = b5 ∧ descBase d = b7 ++ b4 ++ b3 ++ b2 ∧ rawLimit d = b6.extractLsb' 0 4 ++ b1 ++ b0 ∧
      descG d = b6.getLsbD 7 ∧ descPresent d = b5.getLsbD 7 ∧ descDpl d = b5.extractLsb' 5 2 ∧
      gateSelector d = b3 ++ b2 ∧ (isTaskGate d = true ↔ b5 &&& 0x1F#8 = 5#8) ∧
      (isTss d = true ↔ b5 &&& 0x1F#8 = 9#8 ∨ b5 &&& 0x1F#8 = 11#8) ∧ (isBusy d = true ↔ b5 &&& 0x0F#8 = 11#8) ∧
      (isLdt d = true ↔ b5 &&& 0x1F#8 = 2#8) ∧ descS d = b5.getLsbD 4 ∧
      (isCode d = true ↔ b5 &&& 0x18#8 = 0x18#8) ∧ (isData d = true ↔ b5 &&& 0x18#8 = 0x10#8) ∧
      (isConforming d = true ↔ b5 &&& 0x1C#8 = 0x1C#8) ∧
      (isReadable d = true ↔ b5 &&& 0x18#8 = 0x10#8 ∨ b5 &&& 0x1A#8 = 0x1A#8) ∧
      (isWritableData d = true ↔ b5 &&& 0x1A#8 = 0x12#8) ∧
      (effectiveLimit d).toNat =
        (if descG d then (rawLimit d).toNat * 4096 + 4095 else (rawLimit d).toNat)

/-! ### LTR and STR (40 R110, R111; 70 R233) -/

/-- 40 R110: LTR at CPL 0 with a selector of a present TSS descriptor of the GDT that is not busy loads both parts of TR, marks the
descriptor busy and advances EIP, and changes nothing else; every other operand, and every other CPL, raises the exception of the rule
before the instruction. -/
def Obligations.LtrByItsRule : Prop :=
  (∀ (pre : List Prefix) (src : RegMem) (sel : Sel) (d : Descriptor) (p : Word) (s : State),
    LtrReady pre src sel d p s →
      exec (.ltr pre src) s = .next { s with
        mem := Memory.write s.mem p.toNat (Memory.read s.mem p.toNat ||| 0x02#8)
        tr := { valid := true, sel := sel, base := descBase d, limit := effectiveLimit d }
        eip := s.eip + BitVec.ofNat 32 (Instr.ltr pre src).length }) ∧
  (∀ (pre : List Prefix) (src : RegMem) (s : State), s.cpl ≠ 0 →
    exec (.ltr pre src) s = deliver { exc := .gp, code := some 0, ctx := .before } s) ∧
  ∀ (pre : List Prefix) (src : RegMem) (sel : Sel) (s : State), s.cpl = 0 → Operand16 s pre src sel →
    (selNull sel = true → exec (.ltr pre src) s = deliver { exc := .gp, code := some 0, ctx := .before } s) ∧
    (selNull sel = false → selTi sel = true →
      exec (.ltr pre src) s = deliver { exc := .gp, code := some (sel &&& 0xFFFC#16), ctx := .before } s) ∧
    (selNull sel = false → selTi sel = false → s.desc sel = .outOfBounds →
      exec (.ltr pre src) s = deliver { exc := .gp, code := some (sel &&& 0xFFFC#16), ctx := .before } s) ∧
    ∀ d : Descriptor, selNull sel = false → selTi sel = false → s.desc sel = .found d →
      (isTss d = false →
        exec (.ltr pre src) s = deliver { exc := .gp, code := some (sel &&& 0xFFFC#16), ctx := .before } s) ∧
      (isTss d = true → isBusy d = true →
        exec (.ltr pre src) s = deliver { exc := .gp, code := some (sel &&& 0xFFFC#16), ctx := .before } s) ∧
      (isTss d = true → isBusy d = false → descPresent d = false →
        exec (.ltr pre src) s = deliver { exc := .np, code := some (sel &&& 0xFFFC#16), ctx := .before } s)

/-- 40 R110: what LTR leaves unchanged. A next state is LTR's own, in which only EIP, TR and byte 5 of the descriptor named by the
operand differ; or an exception was taken, from the state before the instruction (its count of free values apart, log 7). -/
def Obligations.LtrFrame : Prop :=
  ∀ (pre : List Prefix) (src : RegMem) (s t : State), exec (.ltr pre src) s = .next t →
    (∃ sel, readSel s pre src = .ok sel ∧ t = { s with eip := t.eip, tr := t.tr, mem := t.mem } ∧ t.tr.sel = sel ∧
      StoresOnly s.xlat .sysWrite [(s.busyByteAddr sel, setBusyBit)] s.mem t.mem) ∨
    ∃ r s1, s1 = { s with choices := s1.choices } ∧ deliver r s1 = .next t

/-- 40 R111: STR, at any CPL, stores TR.sel in the low half of a register, the high half kept, or in two bytes of memory, and advances
EIP; nothing else changes. Where TR has never been loaded it is refused (D22). -/
def Obligations.StrByItsRule : Prop :=
  (∀ (pre : List Prefix) (r : Reg) (s : State), s.tr.valid = true →
    exec (.str pre (.reg r)) s = .next { s with
      regs := s.regs.set r ((s.regs.get r).extractLsb' 16 16 ++ s.tr.sel)
      eip := s.eip + BitVec.ofNat 32 (Instr.str pre (.reg r)).length }) ∧
  (∀ (pre : List Prefix) (m : Mem) (s : State) (m' : Memory), s.tr.valid = true →
    (s.segs.get (s.ref pre m).seg).cache.allows (s.ref pre m).off 2 true = true →
    linWrite s.xlat (.progWrite s.cpl) s.mem (s.linear (s.ref pre m)) (bytes2 s.tr.sel) = some m' →
      exec (.str pre (.mem m)) s =
        .next { s with mem := m', eip := s.eip + BitVec.ofNat 32 (Instr.str pre (.mem m)).length }) ∧
  ∀ (pre : List Prefix) (dst : RegMem) (s : State), s.tr.valid = false → exec (.str pre dst) s = .refused .trNeverLoaded

/-- 40 R111: what STR leaves unchanged. To a register: every other register and all of memory. To memory: every register and every byte
but the two at the operand's address. Or an exception of the memory write was taken: a failed segment check (log 19) or a page fault, before
the instruction and with neither byte stored. That nothing is stored when the second byte's page alone is missing is no rule of the spec
but the model's choice (log 39, PRESUMED). -/
def Obligations.StrFrame : Prop :=
  (∀ (pre : List Prefix) (r : Reg) (s t : State), exec (.str pre (.reg r)) s = .next t →
    t = { s with regs := t.regs, eip := t.eip } ∧ ∀ q, q ≠ r → t.regs.get q = s.regs.get q) ∧
  ∀ (pre : List Prefix) (m : Mem) (s t : State), exec (.str pre (.mem m)) s = .next t →
    (t = { s with mem := t.mem, eip := t.eip } ∧
      StoresOnly s.xlat (.progWrite s.cpl) (storeBytes (s.linear (s.ref pre m)) (bytes2 s.tr.sel)) s.mem t.mem) ∨
    ∃ r s1, s1 = { s with choices := s1.choices } ∧ deliver r s1 = .next t

/-- 70 R233: TR.valid is false at the start, LTR sets it, and a task switch, STR and IRET with NT = 1 are refused while it is false. -/
def Obligations.TrMustBeLoadedFirst : Prop :=
  State.reset.tr.valid = false ∧
  (∀ (pre : List Prefix) (src : RegMem) (sel : Sel) (d : Descriptor) (p : Word) (s : State),
    LtrReady pre src sel d p s → ∃ t, exec (.ltr pre src) s = .next t ∧ t.tr.valid = true) ∧
  ∀ s : State, s.tr.valid = false →
    (∀ c sel ext retEip, taskSwitch c sel ext retEip s = .error (.refused .trNeverLoaded)) ∧
    (∀ pre dst, exec (.str pre dst) s = .refused .trNeverLoaded) ∧
    (∀ pre, flagNt s.eflags = true → exec (.iret pre) s = .refused .trNeverLoaded)

/-! ### JMP and CALL (41 R122 to R126, 42 R170 to R173) -/

/-- 41 R123: a far JMP or CALL whose selector picks a TSS descriptor switches to it when `max(CPL, RPL) <= DPL`, and raises
GP(selector) in the outgoing task with nothing changed when not, or when the descriptor is in the LDT (10 R37, 42 R170). -/
def Obligations.TssDescriptorPrivilege : Prop :=
  ∀ (i : Instr) (c : Cause) (v : Sel) (d : Descriptor) (s : State), FarOperand s i c v → selNull v = false →
    s.desc v = .found d → isTss d = true →
      exec i s =
        if selTi v = false ∧ max s.cpl.toNat (v.extractLsb' 0 2).toNat ≤ (descDpl d).toNat then finish (taskSwitch c v false (s.nextEip i) s)
        else deliver { exc := .gp, code := some (v &&& 0xFFFC#16), ctx := .outgoing } s

/-- 41 R124: a far JMP or CALL whose selector picks a task gate, in the GDT or in the current LDT: GP(selector) when
`max(CPL, RPL) > DPL` of the gate, else NP(selector) when the gate is not present, else the switch to the gate's SELECTOR. -/
def Obligations.TaskGatePrivilege : Prop :=
  ∀ (i : Instr) (c : Cause) (v : Sel) (g : Descriptor) (s : State), FarOperand s i c v → selNull v = false →
    s.desc v = .found g → isTaskGate g = true →
      exec i s =
        if max s.cpl.toNat (v.extractLsb' 0 2).toNat ≤ (descDpl g).toNat then
          if descPresent g then finish (taskSwitch c (g.extractLsb' 16 16) false (s.nextEip i) s)
          else deliver { exc := .np, code := some (v &&& 0xFFFC#16), ctx := .outgoing } s
        else deliver { exc := .gp, code := some (v &&& 0xFFFC#16), ctx := .outgoing } s

/-- 41 R121, R123, 42 R171, R172: JMP and CALL, in every operand form, to a ready TSS descriptor they may use complete the switch. -/
def Obligations.FarTransferToTssCompletes : Prop :=
  ∀ (i : Instr) (c : Cause) (v : Sel) (d : Descriptor) (img : Image) (ldt : LdtReg) (s : State), FarOperand s i c v →
    max s.cpl.toNat (selRpl v).toNat ≤ (descDpl d).toNat → SwitchReady c v d img ldt (s.nextEip i) s →
      ∃ t, exec i s = .next t ∧ SwitchCompletes c v d img ldt (s.nextEip i) s t

/-- 41 R124, R125: JMP and CALL, in every operand form, through a present task gate they may use complete the switch to a ready task,
whatever the DPL of its descriptor and the RPL in the gate. -/
def Obligations.FarTransferThroughGateCompletes : Prop :=
  ∀ (i : Instr) (c : Cause) (v : Sel) (g d : Descriptor) (img : Image) (ldt : LdtReg) (s : State), FarOperand s i c v →
    selNull v = false → s.desc v = .found g → isTaskGate g = true → descPresent g = true →
    max s.cpl.toNat (selRpl v).toNat ≤ (descDpl g).toNat → SwitchReady c (gateSelector g) d img ldt (s.nextEip i) s →
      ∃ t, exec i s = .next t ∧ SwitchCompletes c (gateSelector g) d img ldt (s.nextEip i) s t

/-- 42 R170: a null selector, one outside its table, and a descriptor that is neither a TSS descriptor nor a task gate are outside the
spec: refused by name. -/
def Obligations.OtherFarTransfersAreRefused : Prop :=
  ∀ (i : Instr) (c : Cause) (v : Sel) (s : State), FarOperand s i c v →
    (selNull v = true → exec i s = .refused .farNullSelector) ∧
    (selNull v = false → s.desc v = .outOfBounds → exec i s = .refused .farSelectorOutOfBounds) ∧
    ∀ d, selNull v = false → s.desc v = .found d → isTss d = false → isTaskGate d = false →
      exec i s = .refused .farTargetNotTask

/-- 42 R173: any value of the offset gives the same result; in every operand form the result is that of the selector alone. -/
def Obligations.OffsetIsNotUsed : Prop :=
  (∀ (pre : List Prefix) (off off' : BitVec 32) (v : Sel) (s : State),
    exec (.jmpPtr32 pre off v) s = exec (.jmpPtr32 pre off' v) s ∧
      exec (.callPtr32 pre off v) s = exec (.callPtr32 pre off' v) s) ∧
  (∀ (pre : List Prefix) (off off' : BitVec 16) (v : Sel) (s : State),
    exec (.jmpPtr16 pre off v) s = exec (.jmpPtr16 pre off' v) s ∧
      exec (.callPtr16 pre off v) s = exec (.callPtr16 pre off' v) s) ∧
  ∀ (i : Instr) (c : Cause) (v : Sel) (s : State), FarOperand s i c v →
    exec i s = finish (farTransfer c v (s.nextEip i) s)

/-- 41 R164: a JMP or CALL to a busy task, the current one and those on its back-link chain among them, directly or through a task gate,
raises GP selecting that task in the current task with nothing changed. -/
def Obligations.NoReentry : Prop :=
  ∀ (i : Instr) (c : Cause) (v : Sel) (d : Descriptor) (s : State), FarOperand s i c v → s.tr.valid = true →
    (selNull v = false → selTi v = false → s.desc v = .found d → isTss d = true → descPresent d = true → isBusy d = true →
      max s.cpl.toNat (selRpl v).toNat ≤ (descDpl d).toNat →
        exec i s = deliver { exc := .gp, code := some (v &&& 0xFFFC#16), ctx := .outgoing } s) ∧
    ∀ g, selNull v = false → s.desc v = .found g → isTaskGate g = true → descPresent g = true →
      max s.cpl.toNat (selRpl v).toNat ≤ (descDpl g).toNat → selNull (gateSelector g) = false →
      selTi (gateSelector g) = false → s.desc (gateSelector g) = .found d → isTss d = true → descPresent d = true →
      isBusy d = true →
        exec i s = deliver { exc := .gp, code := some (gateSelector g &&& 0xFFFC#16), ctx := .outgoing } s

/-! ### The task switch: tests 1 to 3 (41 R126 to R132) -/

/-- 41 R128 to R130, with the failures of R126: which exception each bad target raises, in the outgoing context with nothing changed. -/
def Obligations.BadTargetsRaise : Prop :=
  ∀ (c : Cause) (sel : Sel) (ext : Bool) (retEip : Word) (s : State), s.tr.valid = true →
    let ec := (sel &&& 0xFFFC#16) ||| (if ext then 1#16 else 0#16)
    let bad := if c = .iret then Exc.ts else Exc.gp
    let raises (e : Exc) :=
      taskSwitch c sel ext retEip s = .error (.raised { exc := e, code := some ec, ctx := .outgoing } s)
    (selNull sel = true ∨ selTi sel = true → raises bad) ∧
    (selNull sel = false → selTi sel = false → s.desc sel = .outOfBounds → raises bad) ∧
    ∀ d, selNull sel = false → selTi sel = false → s.desc sel = .found d →
      (isTss d = false → raises bad) ∧
      (isTss d = true → descPresent d = false → raises .np) ∧
      (isTss d = true → descPresent d = true → c ≠ .iret → isBusy d = true → raises .gp) ∧
      (isTss d = true → descPresent d = true → c = .iret → isBusy d = false → raises .ts)

/-- 41 R131: test 3 on the effective limit, with the case the rule refuses (G = 1 and a raw LIMIT below 103). -/
def Obligations.LimitTest : Prop :=
  ∀ (c : Cause) (sel : Sel) (ext : Bool) (retEip : Word) (d : Descriptor) (s : State), s.tr.valid = true →
    selNull sel = false → selTi sel = false → s.desc sel = .found d → isTss d = true → descPresent d = true →
    (isBusy d = true ↔ c = .iret) →
      (descG d = false → (rawLimit d).toNat < 103 →
        taskSwitch c sel ext retEip s =
          .error (.raised
            { exc := .ts, code := some ((sel &&& 0xFFFC#16) ||| (if ext then 1#16 else 0#16)), ctx := .outgoing } s)) ∧
      (descG d = true → (rawLimit d).toNat < 103 →
        taskSwitch c sel ext retEip s = .error (.refused .tssLimitReadingsDiffer)) ∧
      (103 ≤ (rawLimit d).toNat → locateTss c sel ext s = .ok d)

/-- 41 R132, R149, 60 R190: an exception of a task switch in the outgoing context leaves the state as it was (its count of free values
apart, log 7); one in the incoming context leaves the outgoing task saved, TR naming the incoming task, TS set, CPL the incoming task's
and every register as its TSS held it. That the saved fields are read back is said, as for a completed switch, where linear addresses map to
themselves and no two stores overlap. -/
def Obligations.ContextOfASwitchException : Prop :=
  ∀ (c : Cause) (sel : Sel) (ext : Bool) (retEip : Word) (s t : State) (r : Raise),
    taskSwitch c sel ext retEip s = .error (.raised r t) →
      (r.ctx = .outgoing ∧ t = { s with choices := t.choices }) ∨
      (r.ctx = .incoming ∧ r.exc ∈ [.ts, .np, .gp, .sf] ∧
        ∃ d m img, s.desc sel = .found d ∧
          runStores s.xlat .sysWrite s.mem (outgoingStores c retEip s ++ incomingStores c sel s) = some m ∧
          loadImage s.xlat m (descBase d) = some img ∧ t.regs = img.regs ∧ t.eip = img.eip ∧
          t.eflags = loadedFlags c img.eflags ∧ t.cpl = selRpl img.cs ∧ t.segs.es.sel = img.es ∧ t.segs.cs.sel = img.cs ∧
          t.segs.ss.sel = img.ss ∧ t.segs.ds.sel = img.ds ∧ t.segs.fs.sel = img.fs ∧ t.segs.gs.sel = img.gs ∧
          t.ldtr.sel = img.ldt ∧ t.pdbr = img.pdbr ∧ t.cr0 = s.cr0 ||| 0x00000008#32 ∧ t.gdt = s.gdt ∧ t.idt = s.idt ∧
          t.tr = { valid := true, sel := sel, base := descBase d, limit := effectiveLimit d } ∧
          StoresOnly s.xlat .sysWrite (switchStores c sel (descBase d) retEip s) s.mem t.mem ∧
          (s.xlat.FlatUnder (switchStores c sel (descBase d) retEip s) s.mem → Memory.wf s.mem = true →
            (switchAddrs c sel (descBase d) retEip s).Nodup → SwitchStored c sel d retEip s t))

/-! ### The task switch: tests 4 to 16 (41 R148 to R155) -/

/-- 41 R150: an LDT selector that is not null and names no LDT descriptor of the GDT (test 4), or one not present (test 5), raises TS
selecting the incoming TSS in the incoming context. -/
def Obligations.LdtTests : Prop :=
  ∀ (c : Cause) (sel : Sel) (ext : Bool) (d : Descriptor) (img : Image) (ldt : LdtReg) (retEip : Word) (s : State),
    LoadReady c sel d img ldt retEip s → flagVm img.eflags = false → selNull img.ldt = false →
    (selTi img.ldt = true ∨ s.desc img.ldt = .outOfBounds ∨
      ∃ l, s.desc img.ldt = .found l ∧ (isLdt l = false ∨ descPresent l = false)) →
      ∃ t, taskSwitch c sel ext retEip s =
        .error (.raised
          { exc := .ts, code := some ((sel &&& 0xFFFC#16) ||| (if ext then 1#16 else 0#16)), ctx := .incoming } t)

/-- 41 R151: with the LDT loaded, the first of tests 6 to 8 that CS fails, selecting the code segment, in the incoming context: TS for a
selector that is not valid, NP for a segment not present, TS for a DPL that does not match the RPL. -/
def Obligations.CodeSegmentTests : Prop :=
  ∀ (c : Cause) (sel : Sel) (ext : Bool) (d : Descriptor) (img : Image) (ldt : LdtReg) (retEip : Word) (s : State),
    LoadReady c sel d img ldt retEip s → flagVm img.eflags = false → LdtLoads s img.ldt ldt →
    let raises (e : Exc) := ∃ t, taskSwitch c sel ext retEip s =
      .error (.raised
        { exc := e, code := some ((img.cs &&& 0xFFFC#16) ||| (if ext then 1#16 else 0#16)), ctx := .incoming } t)
    (selNull img.cs = true → raises .ts) ∧
    (selNull img.cs = false → s.descIn ldt img.cs = .outOfBounds → raises .ts) ∧
    ∀ k, selNull img.cs = false → s.descIn ldt img.cs = .found k →
      (isCode k = false → raises .ts) ∧
      (isCode k = true → descPresent k = false → raises .np) ∧
      (isCode k = true → descPresent k = true → isConforming k = false → descDpl k ≠ selRpl img.cs → raises .ts) ∧
      (isCode k = true → descPresent k = true → isConforming k = true → (selRpl img.cs).toNat < (descDpl k).toNat → raises .ts)

/-- 41 R152: with CS passed, the first of tests 9 to 12 that SS fails, selecting the stack segment, in the incoming context. -/
def Obligations.StackSegmentTests : Prop :=
  ∀ (c : Cause) (sel : Sel) (ext : Bool) (d : Descriptor) (img : Image) (ldt : LdtReg) (retEip : Word) (s : State),
    LoadReady c sel d img ldt retEip s → flagVm img.eflags = false → LdtLoads s img.ldt ldt → CodeLoads s ldt img.cs →
    let raises (e : Exc) := ∃ t, taskSwitch c sel ext retEip s =
      .error (.raised
        { exc := e, code := some ((img.ss &&& 0xFFFC#16) ||| (if ext then 1#16 else 0#16)), ctx := .incoming } t)
    (selNull img.ss = true → raises .gp) ∧
    (selNull img.ss = false → s.descIn ldt img.ss = .outOfBounds → raises .gp) ∧
    ∀ k, selNull img.ss = false → s.descIn ldt img.ss = .found k →
      (isWritableData k = false → raises .gp) ∧
      (isWritableData k = true → descPresent k = false → raises .sf) ∧
      (isWritableData k = true → descPresent k = true → descDpl k ≠ selRpl img.cs → raises .sf) ∧
      (isWritableData k = true → descPresent k = true → descDpl k = selRpl img.cs → selRpl img.ss ≠ selRpl img.cs → raises .gp)

/-- 41 R153, R155: with CS and SS passed, when a register of DS, ES, FS, GS fails, the exception reported is that of the first failing test
of some register that fails (which one is free, log 14), selecting its segment, in the incoming context. -/
def Obligations.DataSegmentTests : Prop :=
  ∀ (c : Cause) (sel : Sel) (ext : Bool) (d : Descriptor) (img : Image) (ldt : LdtReg) (retEip : Word) (s : State),
    LoadReady c sel d img ldt retEip s → flagVm img.eflags = false → LdtLoads s img.ldt ldt → CodeLoads s ldt img.cs →
    StackLoads s ldt (selRpl img.cs) img.ss →
    (∃ v ∈ [img.ds, img.es, img.fs, img.gs], ¬DataLoads s ldt (selRpl img.cs) v) →
      ∃ v ∈ [img.ds, img.es, img.fs, img.gs], ∃ e t, selNull v = false ∧
        taskSwitch c sel ext retEip s =
          .error (.raised
            { exc := e, code := some ((v &&& 0xFFFC#16) ||| (if ext then 1#16 else 0#16)), ctx := .incoming } t) ∧
        ((e = .gp ∧ s.descIn ldt v = .outOfBounds) ∨
          ∃ k, s.descIn ldt v = .found k ∧
            ((e = .gp ∧ (descS k = false ∨ isReadable k = false)) ∨
              (e = .np ∧ descS k = true ∧ isReadable k = true ∧ descPresent k = false) ∨
              (e = .gp ∧ descS k = true ∧ isReadable k = true ∧ descPresent k = true ∧ isConforming k = false ∧
                (descDpl k).toNat < (selRpl img.cs).toNat)))

/-- 41 R142: a switch to a TSS whose EFLAGS image has VM = 1 is refused. -/
def Obligations.VirtualModeImageIsRefused : Prop :=
  ∀ (c : Cause) (sel : Sel) (ext : Bool) (d : Descriptor) (img : Image) (ldt : LdtReg) (retEip : Word) (s : State),
    LoadReady c sel d img ldt retEip s → img.eflags.getLsbD 17 = true →
      taskSwitch c sel ext retEip s = .error (.refused .virtual8086Image)

/-! ### The task switch: what it does (41 R133 to R147) -/

/-- 41 R139: every completed task switch sets TS, changes no other bit of CR0, and does not depend on TS. -/
def Obligations.EverySwitchSetsTs : Prop :=
  ∀ (c : Cause) (sel : Sel) (ext : Bool) (retEip : Word) (s t : State), taskSwitch c sel ext retEip s = .ok t →
    t.msw.getLsbD 3 = true ∧ (∀ k, k ≠ 3 → t.cr0.getLsbD k = s.cr0.getLsbD k) ∧
      taskSwitch c sel ext retEip { s with cr0 := s.cr0 ^^^ 0x00000008#32 } = .ok t

/-- 41 R143, R144 (and R156): every switch by CALL and INT sets NT of the incoming task, by JMP clears it, whatever its saved flags said;
the other bits, and NT for IRET, are those of the image in its TSS, which is not rewritten. -/
def Obligations.NestedTaskFlag : Prop :=
  (∀ (c : Cause) (sel : Sel) (ext : Bool) (retEip : Word) (s t : State), taskSwitch c sel ext retEip s = .ok t →
    (c = .call ∨ c = .int → t.eflags.getLsbD 14 = true) ∧ (c = .jmp → t.eflags.getLsbD 14 = false)) ∧
  ∀ (c : Cause) (sel : Sel) (ext : Bool) (d : Descriptor) (img : Image) (ldt : LdtReg) (retEip : Word) (s t : State),
    SwitchReady c sel d img ldt retEip s → taskSwitch c sel ext retEip s = .ok t →
      (∀ k, k ≠ 14 → t.eflags.getLsbD k = img.eflags.getLsbD k) ∧
      (c = .iret → t.eflags.getLsbD 14 = img.eflags.getLsbD 14) ∧
      linRead4 s.xlat t.mem .sysRead (descBase d + 0x24#32) = some img.eflags

/-- 41 R133 to R138, R145: where linear addresses map to themselves and no two stores overlap, a completed switch leaves the outgoing
task's registers in its TSS, the busy bits and the back-link as the rules say. -/
def Obligations.SwitchStoresItsFields : Prop :=
  ∀ (c : Cause) (sel : Sel) (ext : Bool) (retEip : Word) (s t : State) (d : Descriptor), s.desc sel = .found d →
    s.xlat.FlatUnder (switchStores c sel (descBase d) retEip s) s.mem → Memory.wf s.mem = true →
    (switchAddrs c sel (descBase d) retEip s).Nodup → taskSwitch c sel ext retEip s = .ok t → SwitchStored c sel d retEip s t

/-- 10 R23, R49, 41 R142, R167: what a completed task switch loads and what it leaves unchanged, whatever the paging. The general registers,
EFLAGS, EIP, the selectors, CPL and PDBR are those of the image that the incoming TSS holds once the outgoing task is saved; the GDT and IDT
registers, CR2, the debug and test registers (60 R213), every bit of CR0 but TS, and every physical byte that is not behind one of the
addresses it stores to, are as they were. -/
def Obligations.SwitchFrame : Prop :=
  ∀ (c : Cause) (sel : Sel) (ext : Bool) (retEip : Word) (s t : State), taskSwitch c sel ext retEip s = .ok t →
    ∃ d m img, s.desc sel = .found d ∧
      runStores s.xlat .sysWrite s.mem (outgoingStores c retEip s ++ incomingStores c sel s) = some m ∧
      loadImage s.xlat m (descBase d) = some img ∧ t.regs = img.regs ∧ t.eip = img.eip ∧
      t.eflags = loadedFlags c img.eflags ∧ t.cpl = selRpl img.cs ∧ t.segs.es.sel = img.es ∧ t.segs.cs.sel = img.cs ∧
      t.segs.ss.sel = img.ss ∧ t.segs.ds.sel = img.ds ∧ t.segs.fs.sel = img.fs ∧ t.segs.gs.sel = img.gs ∧
      t.ldtr.sel = img.ldt ∧ t.pdbr = img.pdbr ∧
      t.tr = { valid := true, sel := sel, base := descBase d, limit := effectiveLimit d } ∧
      t.gdt = s.gdt ∧ t.idt = s.idt ∧ t.cr0 = s.cr0 ||| 0x00000008#32 ∧ t.cr2 = s.cr2 ∧
      t.debugRegs = s.debugRegs ∧ t.testRegs = s.testRegs ∧ t.extInts = s.extInts ∧ t.choices = s.choices ∧
      StoresOnly s.xlat .sysWrite (switchStores c sel (descBase d) retEip s) s.mem t.mem

/-- 10 R23 (a), R24, R29: step 3 writes the registers of the dynamic set into the TSS of the task switched out, the general registers, the
selectors, EFLAGS and EIP, and no byte of its back-link, of the static set or of the reserved halves of its slots. -/
def Obligations.SavedFieldsAreTheRegistersOfTheDynamicSet : Prop :=
  ∀ (c : Cause) (retEip : Word) (s : State) (k : Nat), k < 0x68 →
    (s.tr.base + BitVec.ofNat 32 k ∉ savedAddrs c retEip s ↔
      k < 0x20 ∨ 0x60 ≤ k ∨ (0x48 ≤ k ∧ 2 ≤ k % 4))

/-- 20 R68, R74: a switch that completes met no missing page in either TSS or at either busy bit, and both page directories map every address
of both TSSs, as their descriptors define them, and of the GDT alike: when PDBR is read, and when the last store is made. -/
def Obligations.CompletedSwitchesMeetNoMissingPage : Prop :=
  ∀ (c : Cause) (sel : Sel) (ext : Bool) (retEip : Word) (s t : State) (d : Descriptor),
    taskSwitch c sel ext retEip s = .ok t → s.desc sel = .found d →
      (∀ a ∈ span s.tr.base 0x68 ++ span (descBase d) 0x68,
        (s.xlat.phys s.mem a .sysRead).isSome = true ∧ (s.xlat.phys s.mem a .sysWrite).isSome = true) ∧
      (s.xlat.phys s.mem (s.busyByteAddr s.tr.sel) .sysWrite).isSome = true ∧
      (s.xlat.phys s.mem (s.busyByteAddr sel) .sysWrite).isSome = true ∧
      ∀ a, a ∈ span s.tr.base 0x68 ++ span (descBase d) 0x68 ++ span s.gdt.base (s.gdt.limit.toNat + 1) ∨
          (∃ k, k ≤ s.tr.limit.toNat ∧ a = s.tr.base + BitVec.ofNat 32 k) ∨
          (∃ k, k ≤ (effectiveLimit d).toNat ∧ a = descBase d + BitVec.ofNat 32 k) →
        ∀ acc ∈ Access.all, s.xlat.phys t.mem a acc = (s.xlat.under t.pdbr).phys t.mem a acc ∧
          ∀ m, runStores s.xlat .sysWrite s.mem (outgoingStores c retEip s ++ incomingStores c sel s) = some m →
            s.xlat.phys m a acc = (s.xlat.under t.pdbr).phys m a acc

/-- 20 R68, D24, U2: a switch whose target passes tests 1 to 3 raises a page fault in the outgoing context exactly when paging is on and the
first byte it touches is not accessible, with nothing changed; with that byte accessible it is refused unless every byte of both TSSs, and byte
5 of both descriptors, is. The first byte touched is, in the order of 41 R121, byte 5 of the outgoing descriptor for JMP, the EFLAGS slot of the
outgoing TSS for CALL and INT, its back-link for IRET, whose return reads it before the switch (log 5; what the fault carries is free, log 7). -/
def Obligations.MissingPagesOfASwitch : Prop :=
  let faults (o : Run State) (s : State) := ∃ code,
    o = .error (.raised { exc := .pageFault, code := code, ctx := .outgoing } { s with choices := s.choices + 1 })
  (∀ (c : Cause) (sel : Sel) (ext : Bool) (retEip : Word) (s : State) (d : Descriptor), s.tr.valid = true →
    locateTss c sel ext s = .ok d →
    let present (a : Word) := (s.xlat.phys s.mem a .sysRead).isSome = true ∧ (s.xlat.phys s.mem a .sysWrite).isSome = true
    let whole := (∀ a ∈ span s.tr.base 0x68 ++ span (descBase d) 0x68, present a) ∧
      (s.xlat.phys s.mem (s.busyByteAddr s.tr.sel) .sysWrite).isSome = true ∧
      (s.xlat.phys s.mem (s.busyByteAddr sel) .sysWrite).isSome = true
    let first := match c with
      | .jmp => (s.xlat.phys s.mem (s.busyByteAddr s.tr.sel) .sysWrite).isSome = true
      | .call | .int => present (s.tr.base + 0x24#32)
      | .iret => present s.tr.base
    (faults (taskSwitch c sel ext retEip s) s ↔ s.pg = true ∧ ¬first) ∧
      (first → whole ∨ (s.pg = true ∧ taskSwitch c sel ext retEip s = .error (.refused .pageFaultPartWay)))) ∧
  ∀ (nextEip : Word) (s : State), s.tr.valid = true →
    (s.xlat.phys s.mem s.tr.base .sysRead = none → faults (returnToLink nextEip s) s) ∧
    ((s.xlat.phys s.mem s.tr.base .sysRead).isSome = true → s.xlat.phys s.mem (s.tr.base + 1#32) .sysRead = none →
      returnToLink nextEip s = .error (.refused .pageFaultPartWay))

/-- 10 R24, 41 R142: PDBR is loaded from the incoming TSS when paging is enabled, and keeps its value when not. -/
def Obligations.PdbrIsReadOnlyWithPaging : Prop :=
  ∀ (c : Cause) (sel : Sel) (ext : Bool) (d : Descriptor) (img : Image) (ldt : LdtReg) (retEip : Word) (s t : State),
    SwitchReady c sel d img ldt retEip s → taskSwitch c sel ext retEip s = .ok t →
      (if s.pg then linRead4 s.xlat s.mem .sysRead (descBase d + 0x1C#32) else some s.pdbr) = some t.pdbr

/-! ### Whole-machine rules -/

/-- 10 R40, R49, 41 R120: every step leaves CPL, EFLAGS, the segment registers, the LDT register, PDBR and CR0 as they were, and TR too unless
the instruction was LTR; or it ended in a completed task switch, and they are what that switch left (with, at most, an error code pushed,
log 10). That switch started in the state before the step, or where a switch from it had raised an exception, but for what is used up or
recorded on the way: the interrupt list, the pending trap, the count of free values, CR2 and DR6 (log 12, log 13, log 14, log 32). -/
def Obligations.OnlyATaskSwitchChangesTheTask : Prop :=
  ∀ s t : State, step s = .next t →
    (t.cpl = s.cpl ∧ t.eflags = s.eflags ∧ t.segs = s.segs ∧ t.ldtr = s.ldtr ∧ t.pdbr = s.pdbr ∧ t.cr0 = s.cr0 ∧
      (t.tr = s.tr ∨ ∃ pre src rest, s.decoded = .ok (.ltr pre src) rest)) ∨
    ∃ c sel ext retEip s0 u, taskSwitch c sel ext retEip s0 = .ok u ∧ t = { u with regs := t.regs, mem := t.mem } ∧
      (SameTask s s0 ∨ ∃ c' sel' ext' retEip' s1 r s2, SameTask s s1 ∧
        taskSwitch c' sel' ext' retEip' s1 = .error (.raised r s2) ∧ SameTask s2 s0)

/-- 10 R18, R49, 60 R213: no step changes the GDT register, the IDT register, PG or a test register, nor a debug register but DR6, which only an
exception changes (log 32). -/
def Obligations.TablesAreShared : Prop :=
  ∀ s t : State, step s = .next t →
    t.gdt = s.gdt ∧ t.idt = s.idt ∧ t.pg = s.pg ∧ t.testRegs = s.testRegs ∧ t.debugRegs = { s.debugRegs with dr6 := t.debugRegs.dr6 }

/-- 10 R13: no step clears TS. -/
def Obligations.TsIsNeverCleared : Prop := ∀ s t : State, step s = .next t → s.ts = true → t.ts = true

/-! ### IRET and the interrupt instruction (42 R174 to R179) -/

/-- 42 R174: IRET with NT = 1 reads the back-link of the current TSS and, when its target is ready, completes the switch to it, with no
privilege check. -/
def Obligations.IretReturnsAlongTheBackLink : Prop :=
  ∀ (pre : List Prefix) (link : Sel) (d : Descriptor) (img : Image) (ldt : LdtReg) (s : State), flagNt s.eflags = true →
    linRead2 s.xlat s.mem .sysRead s.tr.base = some link →
    SwitchReady .iret link d img ldt (s.nextEip (.iret pre)) s →
      ∃ t, exec (.iret pre) s = .next t ∧ SwitchCompletes .iret link d img ldt (s.nextEip (.iret pre)) s t

/-- 42 R175: IRET with NT = 0 is outside the spec. Of the two treatments the rule offers, a refusal or another specification, the model takes
the refusal (log 35). -/
def Obligations.IretWithinATaskIsRefused : Prop :=
  ∀ (pre : List Prefix) (s : State), s.eflags.getLsbD 14 = false → exec (.iret pre) s = .refused .iretWithinTask

/-- 42 R176: INT n, INT 3 and INTO with OF = 1 through a task gate: GP(8n + 2) where the open DPL check is made and fails, NP(8n + 2) when
the gate is not present, else the switch with cause INT; another IDT entry is outside the spec; INTO with OF = 0 only advances EIP. -/
def Obligations.InterruptInstructionByItsRule : Prop :=
  (∀ (i : Instr) (n : BitVec 8) (g : Descriptor) (s : State), IntVector s i n → s.idtEntry n = .found g →
    (isTaskGate g = true →
      exec i s =
        if Config.intGateDplCheck = true ∧ (descDpl g).toNat < s.cpl.toNat then
          deliver { exc := .gp, code := some (n.setWidth 16 * 8#16 + 2#16), ctx := .outgoing } s
        else if descPresent g then finish (taskSwitch .int (g.extractLsb' 16 16) false (s.nextEip i) s)
        else deliver { exc := .np, code := some (n.setWidth 16 * 8#16 + 2#16), ctx := .outgoing } s) ∧
    (isTaskGate g = false → exec i s = .refused (.idtEntryNotTaskGate n))) ∧
  ∀ (pre : List Prefix) (s : State), s.eflags.getLsbD 11 = false →
    exec (.into pre) s = .next { s with eip := s.eip + BitVec.ofNat 32 (Instr.into pre).length }

/-- 42 R176, 41 R160: INT n, INT 3 and INTO with OF = 1 through a present task gate complete the switch to a ready task, where the open DPL
check is not made or passes. -/
def Obligations.InterruptInstructionCompletes : Prop :=
  ∀ (i : Instr) (n : BitVec 8) (g d : Descriptor) (img : Image) (ldt : LdtReg) (s : State), IntVector s i n →
    s.idtEntry n = .found g → isTaskGate g = true → descPresent g = true →
    (Config.intGateDplCheck = true → s.cpl.toNat ≤ (descDpl g).toNat) →
    SwitchReady .int (gateSelector g) d img ldt (s.nextEip i) s →
      ∃ t, exec i s = .next t ∧ SwitchCompletes .int (gateSelector g) d img ldt (s.nextEip i) s t

/-- 10 R23, R49, 41 R167: what JMP, CALL, IRET and the interrupt instruction leave unchanged. A next state is that of a completed task
switch of the instruction's cause, which stores to the addresses of `switchStores` and nowhere else; or INTO advanced EIP alone; or an
exception was taken, from the state before or from the state the instruction's switch had reached. -/
def Obligations.SwitchingInstructionsFrame : Prop :=
  ∀ (i : Instr) (c : Cause) (s t : State), causeOf i = some c → exec i s = .next t →
    (taskSwitch c t.tr.sel false (s.nextEip i) s = .ok t ∧
      StoresOnly s.xlat .sysWrite (switchStores c t.tr.sel t.tr.base (s.nextEip i) s) s.mem t.mem ∧
      t.gdt = s.gdt ∧ t.idt = s.idt ∧ t.cr0 = s.cr0 ||| 0x00000008#32 ∧ t.cr2 = s.cr2 ∧
      t.debugRegs = s.debugRegs ∧ t.testRegs = s.testRegs ∧ t.extInts = s.extInts ∧ t.choices = s.choices) ∨
    (flagOf s.eflags = false ∧ (∃ pre, i = .into pre) ∧ t = { s with eip := s.nextEip i }) ∨
    ∃ r s1, deliver r s1 = .next t ∧
      (s1 = { s with choices := s1.choices } ∨
        ∃ sel, taskSwitch c sel false (s.nextEip i) s = .error (.raised r s1))

/-! ### Taking an exception (60 R190 to R205, 42 R178, R182) -/

/-- 42 R178, R181, 60 R203: an exception whose IDT entry is a present task gate enters the handler task when it is ready, with EXT 1 and the
EIP of the state saved. With paging off, an exception with an error code then has it pushed, 4 bytes zero-extended, on the handler's
stack, ESP decremented by 4 (42 R182 offers this or no delivery; log 10). What the exception records in CR2 or DR6 is log 32. -/
def Obligations.ExceptionEntersHandlerTask : Prop :=
  ∀ (r : Raise) (g d : Descriptor) (img : Image) (ldt : LdtReg) (s : State), s.idtEntry (vectorOf r.exc) = .found g →
    isTaskGate g = true → descPresent g = true → SwitchReady .int (gateSelector g) d img ldt s.eip (recorded r s) →
      (r.code = none → ∃ t, deliver r s = .next t ∧ SwitchCompletes .int (gateSelector g) d img ldt s.eip (recorded r s) t) ∧
      ∀ code k, r.code = some code → s.pg = false → Memory.wf s.mem = true → s.descIn ldt img.ss = .found k →
        (SegCache.ofDesc k).allows (img.regs.esp - 4#32) 4 true = true →
          ∃ u t, SwitchCompletes .int (gateSelector g) d img ldt s.eip (recorded r s) u ∧ deliver r s = .next t ∧
            t = { u with regs := { u.regs with esp := img.regs.esp - 4#32 }, mem := t.mem } ∧
            StoresOnly u.xlat (.progWrite u.cpl)
              (storeBytes (descBase k + (img.regs.esp - 4#32)) (bytes4 (code.setWidth 32))) u.mem t.mem ∧
            linRead4 u.xlat t.mem (.progRead u.cpl) (descBase k + (img.regs.esp - 4#32)) = some (code.setWidth 32)

/-- 60 R190, R203, 42 R182: what taking an exception leaves unchanged: a next state is that of a completed switch with cause INT through the
task gate of its IDT entry, or that state with the error code stored at SS:ESP - 4 and ESP decremented (log 10). Before the switch a page
fault changed CR2 at most, a debug exception DR6, and no other exception anything (log 32). -/
def Obligations.ExceptionFrame : Prop :=
  ∀ (r : Raise) (s t : State), deliver r s = .next t →
    ∃ g s1 u, s.idtEntry (vectorOf r.exc) = .found g ∧ isTaskGate g = true ∧ descPresent g = true ∧
      (r.exc = .pageFault ∧ s1 = { s with cr2 := s1.cr2, choices := s1.choices } ∨
        r.exc = .debug ∧ s1 = { s with debugRegs := { s.debugRegs with dr6 := s1.debugRegs.dr6 }, choices := s1.choices } ∨
        r.exc ≠ .pageFault ∧ r.exc ≠ .debug ∧ s1 = s) ∧
      taskSwitch .int (gateSelector g) true s.eip s1 = .ok u ∧
      StoresOnly s.xlat .sysWrite (switchStores .int (gateSelector g) u.tr.base s.eip s) s.mem u.mem ∧
      ((r.code = none ∧ t = u) ∨
        ∃ code, r.code = some code ∧
          t = { u with regs := { u.regs with esp := u.regs.esp - 4#32 }, mem := t.mem } ∧
          StoresOnly u.xlat (.progWrite u.cpl)
            (storeBytes (u.segs.ss.cache.base + (u.regs.esp - 4#32)) (bytes4 (code.setWidth 32))) u.mem t.mem)

/-- 60 R190 (the second of its two choices, log 8): an exception whose IDT entry is no task gate, or lies outside the IDT (log 21), is a
terminal outcome that records the exception, its error code, its context and the state with the saved EIP (in which CR2 or DR6 may have been
written, log 32). -/
def Obligations.OtherDeliveryIsTerminal : Prop :=
  ∀ (r : Raise) (s : State),
    (s.idtEntry (vectorOf r.exc) = .outOfBounds → deliver r s = .fault (.raised r (recorded r s))) ∧
    (∀ g, s.idtEntry (vectorOf r.exc) = .found g → isTaskGate g = false → deliver r s = .fault (.raised r (recorded r s))) ∧
    (recorded r s).eip = s.eip

/-- 60 R196, R205 (log 9): a second exception while an exception enters its handler task is recorded with the first, and is terminal; when it
is one of the handler task's own descriptor, or of the handler's stack that cannot take the error code (log 10, log 19), its error code has
EXT 1. -/
def Obligations.SecondExceptionIsTerminal : Prop :=
  ∀ (r : Raise) (g : Descriptor) (s : State), s.idtEntry (vectorOf r.exc) = .found g → isTaskGate g = true →
    (∀ r2 s2, enterHandler r g (recorded r s) = .error (.raised r2 s2) →
      deliver r s = .fault (.raisedDuringDelivery r r2 s2)) ∧
    (∀ d, descPresent g = true → s.tr.valid = true → selNull (gateSelector g) = false → selTi (gateSelector g) = false →
      s.desc (gateSelector g) = .found d → isTss d = true → descPresent d = true → isBusy d = true →
        deliver r s = .fault (.raisedDuringDelivery r
          { exc := .gp, code := some ((gateSelector g &&& 0xFFFC#16) ||| 1#16), ctx := .outgoing } (recorded r s))) ∧
    ∀ d img ldt code k, descPresent g = true → SwitchReady .int (gateSelector g) d img ldt s.eip (recorded r s) →
      r.code = some code → s.descIn ldt img.ss = .found k →
      (SegCache.ofDesc k).allows (img.regs.esp - 4#32) 4 true = false →
        ∃ u, deliver r s = .fault (.raisedDuringDelivery r { exc := .sf, code := some 0x0001, ctx := .incoming } u)

/-- 60 R191 to R197: the vector numbers; 60 R196: the fields of an error code that selects a selector, or an IDT entry. -/
def Obligations.VectorsAndErrorCodes : Prop :=
  vectorOf .np = 11#8 ∧ vectorOf .gp = 13#8 ∧ vectorOf .ts = 10#8 ∧ vectorOf .sf = 12#8 ∧ vectorOf .debug = 1#8 ∧
  vectorOf .pageFault = 14#8 ∧
  (∀ (v : Sel) (ext : Bool), (errCode v ext).getLsbD 0 = ext ∧ (errCode v ext).getLsbD 1 = false ∧
    (errCode v ext).getLsbD 2 = selTi v ∧ (errCode v ext).extractLsb' 3 13 = selIndex v) ∧
  ∀ (n : BitVec 8) (ext : Bool), (idtErrCode n ext).getLsbD 0 = ext ∧ (idtErrCode n ext).getLsbD 1 = true ∧
    (idtErrCode n ext).getLsbD 2 = false ∧ (idtErrCode n ext).toNat / 8 = n.toNat

/-! ### A call and its return (41 R136) -/

/-- 41 R136, R163, 42 R174, R180, with paging off: a task that calls another, whose first act is IRET, resumes after its CALL with every
register, EFLAGS, every selector, TR.sel and TR.base as they were, where its TR names its own busy descriptor and no TSS overlaps the other or the
GDT (70 R234). -/
def Obligations.CallThenIretRestoresTheCaller : Prop :=
  ∀ (i : Instr) (v : Sel) (a d : Descriptor) (img : Image) (ldt : LdtReg) (pre : List Prefix) (s t u : State),
    s.pg = false → Memory.wf s.mem = true → FarOperand s i .call v → SwitchReady .call v d img ldt (s.nextEip i) s →
    selNull s.tr.sel = false → selTi s.tr.sel = false → s.desc s.tr.sel = .found a → isBusy a = true →
    descBase a = s.tr.base → apart (span s.tr.base 0x68) (span (descBase d) 0x68) = true →
    apart (span s.tr.base 0x68) (span s.gdt.base (s.gdt.limit.toNat + 1)) = true →
    apart (span (descBase d) 0x68) (span s.gdt.base (s.gdt.limit.toNat + 1)) = true →
    max s.cpl.toNat (selRpl v).toNat ≤ (descDpl d).toNat → exec i s = .next t →
    returnToLink (t.nextEip (.iret pre)) t = .ok u →
      exec (.iret pre) t = .next u ∧ u.regs = s.regs ∧ u.eip = s.nextEip i ∧ u.eflags = s.eflags ∧
        (∀ r, (u.segs.get r).sel = (s.segs.get r).sel) ∧ u.cpl = selRpl s.segs.cs.sel ∧ u.tr.sel = s.tr.sel ∧
        u.tr.base = s.tr.base

end
end

