-- ==== Sys2Proof/Laws/PerInstr.lean ====
section
/-! SUPPORT. Statements about every instruction as syntax, one lemma per constructor of `Instr`. -/

namespace Sys2Proof.Laws.EncodedLength

/-- How many bytes follow the prefixes: the least and the most, by the `length` column of `opcode_table.json` and, for a memory operand,
the family's addressing forms (30 R91, log 16). -/
def bounds : Instr → Nat × Nat
  | .ltr _ _ | .str _ _ => (3, 8)
  | .jmpMem _ _ _ | .callMem _ _ _ => (2, 7)
  | .jmpPtr32 _ _ _ | .callPtr32 _ _ _ => (7, 7)
  | .jmpPtr16 _ _ _ | .callPtr16 _ _ _ => (5, 5)
  | .intImm _ _ => (2, 2)
  | .iret _ | .int3 _ | .into _ => (1, 1)

/-- The length of an instruction lies within the bounds of its row, its prefixes counted one byte each. -/
def Statement (i : Instr) : Prop :=
  i.pre.length + (bounds i).1 ≤ i.length ∧ i.length ≤ i.pre.length + (bounds i).2

theorem disp32_length (d : Disp32) : d.bytes.length ≤ 4 := by cases d <;> simp [Disp32.bytes, bytes4]
theorem disp16_length (d : Disp16) : d.bytes.length ≤ 2 := by cases d <;> simp [Disp16.bytes, bytes2]

theorem mem_length (n : BitVec 3) (m : Mem) : 1 ≤ (m.bytes n).length ∧ (m.bytes n).length ≤ 6 := by
  cases m with
  | a32 a =>
    cases a with
    | direct d => simp [Mem.bytes, bytes4]
    | base b d => have := disp32_length d; simp only [Mem.bytes, List.length_cons]; omega
    | sib b i sc d => have := disp32_length d; simp only [Mem.bytes, List.length_cons]; omega
    | sibDirect i sc d => simp [Mem.bytes, bytes4]
  | a16 a =>
    cases a with
    | direct d => simp [Mem.bytes, bytes2]
    | base b d => have := disp16_length d; simp only [Mem.bytes, List.length_cons]; omega

theorem regMem_length (n : BitVec 3) (o : RegMem) : 1 ≤ (o.bytes n).length ∧ (o.bytes n).length ≤ 6 := by
  cases o with
  | reg r => simp [RegMem.bytes]
  | mem m => exact mem_length n m

theorem length_eq (i : Instr) : i.length = i.pre.length + (encodeBody i).length := by
  simp [Instr.length, encode]

theorem ltr (pre : List Prefix) (src : RegMem) : Statement (.ltr pre src) := by
  have := regMem_length 3 src
  simp only [Statement, length_eq, bounds, encodeBody, List.length_cons]; omega
theorem str (pre : List Prefix) (dst : RegMem) : Statement (.str pre dst) := by
  have := regMem_length 1 dst
  simp only [Statement, length_eq, bounds, encodeBody, List.length_cons]; omega
theorem jmpPtr32 (pre : List Prefix) (off : BitVec 32) (sel : Sel) : Statement (.jmpPtr32 pre off sel) := by
  simp [Statement, length_eq, bounds, encodeBody, bytes4, bytes2]
theorem jmpPtr16 (pre : List Prefix) (off : BitVec 16) (sel : Sel) : Statement (.jmpPtr16 pre off sel) := by
  simp [Statement, length_eq, bounds, encodeBody, bytes2]
theorem jmpMem (pre : List Prefix) (size : OpSize) (op : Mem) : Statement (.jmpMem pre size op) := by
  have := mem_length 5 op
  simp only [Statement, length_eq, bounds, encodeBody, List.length_cons]; omega
theorem callPtr32 (pre : List Prefix) (off : BitVec 32) (sel : Sel) : Statement (.callPtr32 pre off sel) := by
  simp [Statement, length_eq, bounds, encodeBody, bytes4, bytes2]
theorem callPtr16 (pre : List Prefix) (off : BitVec 16) (sel : Sel) : Statement (.callPtr16 pre off sel) := by
  simp [Statement, length_eq, bounds, encodeBody, bytes2]
theorem callMem (pre : List Prefix) (size : OpSize) (op : Mem) : Statement (.callMem pre size op) := by
  have := mem_length 3 op
  simp only [Statement, length_eq, bounds, encodeBody, List.length_cons]; omega
theorem iret (pre : List Prefix) : Statement (.iret pre) := by simp [Statement, length_eq, bounds, encodeBody]
theorem intImm (pre : List Prefix) (n : BitVec 8) : Statement (.intImm pre n) := by
  simp [Statement, length_eq, bounds, encodeBody]
theorem int3 (pre : List Prefix) : Statement (.int3 pre) := by simp [Statement, length_eq, bounds, encodeBody]
theorem into (pre : List Prefix) : Statement (.into pre) := by simp [Statement, length_eq, bounds, encodeBody]

end Sys2Proof.Laws.EncodedLength
end

