-- ==== Sys2Proof/Laws/State.lean ====
section
/-! SUPPORT. One lemma per field per update of the state, by definition; later proofs unfold no record update. -/

namespace Sys2Proof.Machine

/-! ### General registers -/

@[simp] theorem Gprs.get_set_same (g : Gprs) (r : Reg) (v : Word) : (g.set r v).get r = v := by cases r <;> rfl

@[simp] theorem Gprs.get_set_other (g : Gprs) {r q : Reg} (v : Word) (h : q ≠ r) : (g.set r v).get q = g.get q := by
  cases r <;> cases q <;> first | rfl | exact absurd rfl h

theorem append_low {n m : Nat} (a : BitVec n) (b : BitVec m) : (a ++ b).extractLsb' 0 m = b := by
  ext i hi
  simp [BitVec.getLsbD_append, hi]

theorem append_high {n m : Nat} (a : BitVec n) (b : BitVec m) : (a ++ b).extractLsb' m n = a := by
  ext i hi
  simp [BitVec.getLsbD_append, hi]

/-- A 16-bit write is read back in the low half. -/
theorem Gprs.get_set16_low (g : Gprs) (r : Reg) (v : BitVec 16) : (g.set16 r v).get16 r = v := by
  rw [Gprs.get16, Gprs.set16, Gprs.get_set_same]
  exact append_low _ _

/-- A 16-bit write keeps bits 31:16 (40 R111). -/
theorem Gprs.get_set16_high (g : Gprs) (r : Reg) (v : BitVec 16) :
    ((g.set16 r v).get r).extractLsb' 16 16 = (g.get r).extractLsb' 16 16 := by
  rw [Gprs.set16, Gprs.get_set_same]
  exact append_high _ _

@[simp] theorem Gprs.get_set16_other (g : Gprs) {r q : Reg} (v : BitVec 16) (h : q ≠ r) :
    (g.set16 r v).get q = g.get q := by simp [Gprs.set16, h]

/-! ### Segment registers -/

@[simp] theorem Segs.get_set_same (g : Segs) (r : SReg) (v : SegReg) : (g.set r v).get r = v := by cases r <;> rfl

@[simp] theorem Segs.get_set_other (g : Segs) {r q : SReg} (v : SegReg) (h : q ≠ r) : (g.set r v).get q = g.get q := by
  cases r <;> cases q <;> first | rfl | exact absurd rfl h

/-! ### The loads of a task switch -/

section EnterTask
variable (c : Cause) (sel : Sel) (d : Descriptor) (img : Image) (m : Memory) (s : State)

@[simp] theorem enterTask_regs : (enterTask c sel d img m s).regs = img.regs := rfl
@[simp] theorem enterTask_eip : (enterTask c sel d img m s).eip = img.eip := rfl
@[simp] theorem enterTask_eflags : (enterTask c sel d img m s).eflags = loadedFlags c img.eflags := rfl
@[simp] theorem enterTask_cpl : (enterTask c sel d img m s).cpl = selRpl img.cs := rfl
@[simp] theorem enterTask_es : (enterTask c sel d img m s).segs.es = .untested img.es := rfl
@[simp] theorem enterTask_cs : (enterTask c sel d img m s).segs.cs = .untested img.cs := rfl
@[simp] theorem enterTask_ss : (enterTask c sel d img m s).segs.ss = .untested img.ss := rfl
@[simp] theorem enterTask_ds : (enterTask c sel d img m s).segs.ds = .untested img.ds := rfl
@[simp] theorem enterTask_fs : (enterTask c sel d img m s).segs.fs = .untested img.fs := rfl
@[simp] theorem enterTask_gs : (enterTask c sel d img m s).segs.gs = .untested img.gs := rfl
@[simp] theorem enterTask_cr0 : (enterTask c sel d img m s).cr0 = setTs s.cr0 := rfl
@[simp] theorem enterTask_pdbr : (enterTask c sel d img m s).pdbr = img.pdbr := rfl
@[simp] theorem enterTask_cr2 : (enterTask c sel d img m s).cr2 = s.cr2 := rfl
@[simp] theorem enterTask_debugRegs : (enterTask c sel d img m s).debugRegs = s.debugRegs := rfl
@[simp] theorem enterTask_testRegs : (enterTask c sel d img m s).testRegs = s.testRegs := rfl
@[simp] theorem enterTask_gdt : (enterTask c sel d img m s).gdt = s.gdt := rfl
@[simp] theorem enterTask_idt : (enterTask c sel d img m s).idt = s.idt := rfl
@[simp] theorem enterTask_ldtr :
    (enterTask c sel d img m s).ldtr = { sel := img.ldt, usable := false, base := 0, limit := 0 } := rfl
@[simp] theorem enterTask_tr : (enterTask c sel d img m s).tr =
    { valid := true, sel := sel, base := descBase d, limit := effectiveLimit d } := rfl
@[simp] theorem enterTask_mem : (enterTask c sel d img m s).mem = m := rfl
@[simp] theorem enterTask_extInts : (enterTask c sel d img m s).extInts = s.extInts := rfl
@[simp] theorem enterTask_debugPending : (enterTask c sel d img m s).debugPending = false := rfl
@[simp] theorem enterTask_choices : (enterTask c sel d img m s).choices = s.choices := rfl

end EnterTask

@[simp] theorem untested_sel (v : Sel) : (SegReg.untested v).sel = v := rfl
@[simp] theorem untested_cache (v : Sel) : (SegReg.untested v).cache = .unloaded := rfl

/-! ### The translation of a state -/

@[simp] theorem xlat_pg (s : State) : s.xlat.pg = s.pg := rfl
@[simp] theorem xlat_pdbr (s : State) : s.xlat.pdbr = s.pdbr := rfl

/-- With paging off the physical address is the linear address (20 R60). -/
theorem Xlat.phys_of_pg_off {x : Xlat} (h : x.pg = false) (m : Memory) (a : Word) (acc : Access) : x.phys m a acc = some a := by
  simp [Xlat.phys, h]

/-! ### What an exception records -/

section Recorded
variable (r : Raise) (s : State)

/-- Recording an exception changes CR2, the debug registers and the count of free values only. -/
theorem recorded_eq : recorded r s =
    { s with cr2 := (recorded r s).cr2, debugRegs := (recorded r s).debugRegs, choices := (recorded r s).choices } := by
  unfold recorded
  cases r.exc <;> rfl

@[simp] theorem recorded_regs : (recorded r s).regs = s.regs := by rw [recorded_eq]
@[simp] theorem recorded_eip : (recorded r s).eip = s.eip := by rw [recorded_eq]
@[simp] theorem recorded_eflags : (recorded r s).eflags = s.eflags := by rw [recorded_eq]
@[simp] theorem recorded_cpl : (recorded r s).cpl = s.cpl := by rw [recorded_eq]
@[simp] theorem recorded_segs : (recorded r s).segs = s.segs := by rw [recorded_eq]
@[simp] theorem recorded_cr0 : (recorded r s).cr0 = s.cr0 := by rw [recorded_eq]
@[simp] theorem recorded_pdbr : (recorded r s).pdbr = s.pdbr := by rw [recorded_eq]
@[simp] theorem recorded_testRegs : (recorded r s).testRegs = s.testRegs := by rw [recorded_eq]
@[simp] theorem recorded_gdt : (recorded r s).gdt = s.gdt := by rw [recorded_eq]
@[simp] theorem recorded_idt : (recorded r s).idt = s.idt := by rw [recorded_eq]
@[simp] theorem recorded_ldtr : (recorded r s).ldtr = s.ldtr := by rw [recorded_eq]
@[simp] theorem recorded_tr : (recorded r s).tr = s.tr := by rw [recorded_eq]
@[simp] theorem recorded_mem : (recorded r s).mem = s.mem := by rw [recorded_eq]
@[simp] theorem recorded_extInts : (recorded r s).extInts = s.extInts := by rw [recorded_eq]
@[simp] theorem recorded_debugPending : (recorded r s).debugPending = s.debugPending := by rw [recorded_eq]
@[simp] theorem recorded_xlat : (recorded r s).xlat = s.xlat := by rw [recorded_eq]; rfl
@[simp] theorem recorded_idtEntry (n : BitVec 8) : (recorded r s).idtEntry n = s.idtEntry n := by rw [recorded_eq]; rfl
@[simp] theorem recorded_desc (v : Sel) : (recorded r s).desc v = s.desc v := by rw [recorded_eq]; rfl

/-- An exception that is no page fault and no debug exception records nothing. -/
theorem recorded_of_other (h : r.exc ≠ .pageFault) (h' : r.exc ≠ .debug) : recorded r s = s := by
  unfold recorded
  cases hr : r.exc <;> first | rfl | exact absurd hr h | exact absurd hr h'

end Recorded

/-! ### Placing a table word -/

section WithFetchWord
variable (s : State) (nbits w : Nat)

@[simp] theorem withFetchWord_regs : (s.withFetchWord nbits w).regs = s.regs := rfl
@[simp] theorem withFetchWord_eip : (s.withFetchWord nbits w).eip = s.eip := rfl
@[simp] theorem withFetchWord_segs : (s.withFetchWord nbits w).segs = s.segs := rfl
@[simp] theorem withFetchWord_cr0 : (s.withFetchWord nbits w).cr0 = s.cr0 := rfl
@[simp] theorem withFetchWord_eflags : (s.withFetchWord nbits w).eflags = s.eflags := rfl
@[simp] theorem withFetchWord_cpl : (s.withFetchWord nbits w).cpl = s.cpl := rfl
@[simp] theorem withFetchWord_pdbr : (s.withFetchWord nbits w).pdbr = s.pdbr := rfl
@[simp] theorem withFetchWord_cr2 : (s.withFetchWord nbits w).cr2 = s.cr2 := rfl
@[simp] theorem withFetchWord_debugRegs : (s.withFetchWord nbits w).debugRegs = s.debugRegs := rfl
@[simp] theorem withFetchWord_testRegs : (s.withFetchWord nbits w).testRegs = s.testRegs := rfl
@[simp] theorem withFetchWord_gdt : (s.withFetchWord nbits w).gdt = s.gdt := rfl
@[simp] theorem withFetchWord_idt : (s.withFetchWord nbits w).idt = s.idt := rfl
@[simp] theorem withFetchWord_ldtr : (s.withFetchWord nbits w).ldtr = s.ldtr := rfl
@[simp] theorem withFetchWord_choices : (s.withFetchWord nbits w).choices = s.choices := rfl
@[simp] theorem withFetchWord_tr : (s.withFetchWord nbits w).tr = s.tr := rfl
@[simp] theorem withFetchWord_debugPending : (s.withFetchWord nbits w).debugPending = false := rfl
@[simp] theorem withFetchWord_extInts : (s.withFetchWord nbits w).extInts = [] := rfl

end WithFetchWord

/-! ### Control bits -/

theorem setTs_ts (c : Word) : (setTs c).getLsbD 3 = true := by
  simp only [setTs, BitVec.getLsbD_or]
  simp

theorem setTs_other (c : Word) {i : Nat} (h : i ≠ 3) : (setTs c).getLsbD i = c.getLsbD i := by
  have h8 : (8#32).getLsbD i = false := by
    by_cases hi : i < 32
    · have : ∀ j : Fin 32, j.val ≠ 3 → (8#32).getLsbD j.val = false := by decide
      exact this ⟨i, hi⟩ h
    · exact BitVec.getLsbD_of_ge _ _ (by omega)
  simp [setTs, BitVec.getLsbD_or, h8]

end Sys2Proof.Machine
end

