-- ==== Sys2Proof/Laws/Memory.lean ====
section
/-! SUPPORT. Memory: read after write, the canonical form kept, and what a linear access can do. -/

namespace Sys2Proof.Machine

/-! ### One byte -/

/-- Below the least listed address nothing is listed. -/
theorem Memory.read_below {lo : Nat} {m : Memory} (h : Memory.wfFrom lo m = true) {a : Nat} (ha : a < lo) :
    Memory.read m a = Config.unwrittenByte := by
  induction m generalizing lo with
  | nil => rfl
  | cons c m ih =>
    obtain ⟨k, b⟩ := c
    simp only [Memory.wfFrom, Bool.and_eq_true, decide_eq_true_eq] at h
    have hk : k ≠ a := by omega
    simp only [Memory.read, hk, if_false]
    exact ih h.2 (by omega)

/-- A write leaves every other byte. -/
theorem Memory.read_write_other (m : Memory) {a p : Nat} (b : Byte) (h : p ≠ a) :
    Memory.read (Memory.write m a b) p = Memory.read m p := by
  have h' : a ≠ p := fun e => h e.symm
  induction m with
  | nil => by_cases hb : b = Config.unwrittenByte <;> simp [Memory.write, Memory.read, hb, h']
  | cons c m ih =>
    obtain ⟨k, c⟩ := c
    simp only [Memory.write]
    split
    · simp only [Memory.read, ih]
    · split
      · rename_i hk
        subst hk
        split <;> simp [Memory.read, h']
      · split <;> simp [Memory.read, h']

/-- A write is read back. -/
theorem Memory.read_write_same {lo : Nat} {m : Memory} (hwf : Memory.wfFrom lo m = true) (a : Nat) (b : Byte) :
    Memory.read (Memory.write m a b) a = b := by
  induction m generalizing lo with
  | nil => by_cases hb : b = Config.unwrittenByte <;> simp [Memory.write, Memory.read, hb]
  | cons c m ih =>
    obtain ⟨k, c⟩ := c
    simp only [Memory.wfFrom, Bool.and_eq_true, decide_eq_true_eq] at hwf
    simp only [Memory.write]
    split
    · rename_i hk
      have : k ≠ a := by omega
      simp only [Memory.read, this, if_false]
      exact ih hwf.2
    · split
      · rename_i _ hk
        subst hk
        split
        · rename_i hb
          rw [Memory.read_below hwf.2 (by omega), hb]
        · simp [Memory.read]
      · split
        · rename_i hlt hne hb
          have : k ≠ a := hne
          simp only [Memory.read, this, if_false]
          rw [Memory.read_below hwf.2 (by omega), hb]
        · simp [Memory.read]

theorem Memory.wfFrom_mono {lo lo' : Nat} {m : Memory} (h : Memory.wfFrom lo m = true) (hle : lo' ≤ lo) :
    Memory.wfFrom lo' m = true := by
  cases m with
  | nil => rfl
  | cons c m =>
    obtain ⟨k, b⟩ := c
    simp only [Memory.wfFrom, Bool.and_eq_true, decide_eq_true_eq] at h ⊢
    exact ⟨⟨⟨by omega, h.1.1.2⟩, h.1.2⟩, h.2⟩

/-- A write keeps the canonical form. -/
theorem Memory.wfFrom_write {lo : Nat} {m : Memory} (hwf : Memory.wfFrom lo m = true) {a : Nat} (b : Byte)
    (hlo : lo ≤ a) (ha : a < 2 ^ 32) : Memory.wfFrom lo (Memory.write m a b) = true := by
  induction m generalizing lo with
  | nil =>
    by_cases hb : b = Config.unwrittenByte
    · simp [Memory.write, hb, Memory.wfFrom]
    · simp only [Memory.write, hb, if_false, Memory.wfFrom, Bool.and_true, Bool.and_eq_true, decide_eq_true_eq, bne_iff_ne]
      exact ⟨⟨hlo, ha⟩, hb⟩
  | cons c m ih =>
    obtain ⟨k, c⟩ := c
    have hcons := hwf
    simp only [Memory.wfFrom, Bool.and_eq_true, decide_eq_true_eq, bne_iff_ne] at hwf
    obtain ⟨⟨⟨h1, h2⟩, h3⟩, h4⟩ := hwf
    simp only [Memory.write]
    split
    · simp only [Memory.wfFrom, Bool.and_eq_true, decide_eq_true_eq, bne_iff_ne]
      exact ⟨⟨⟨h1, h2⟩, h3⟩, ih h4 (by omega)⟩
    · split
      · rename_i _ hk
        subst hk
        split
        · exact Memory.wfFrom_mono h4 (by omega)
        · rename_i hb
          simp only [Memory.wfFrom, Bool.and_eq_true, decide_eq_true_eq, bne_iff_ne]
          exact ⟨⟨⟨h1, h2⟩, hb⟩, h4⟩
      · split
        · exact hcons
        · rename_i hlt hne hb
          simp only [Memory.wfFrom, Bool.and_eq_true, decide_eq_true_eq, bne_iff_ne]
          exact ⟨⟨⟨hlo, ha⟩, hb⟩, ⟨⟨⟨by omega, h2⟩, h3⟩, h4⟩⟩

theorem Memory.wf_write {m : Memory} (hwf : Memory.wf m = true) (a : Word) (b : Byte) :
    Memory.wf (Memory.write m a.toNat b) = true :=
  Memory.wfFrom_write hwf b (Nat.zero_le _) a.isLt

/-- The memory of reset is in canonical form. -/
theorem reset_mem_wf : Memory.wf State.reset.mem = true := rfl

/-! ### Linear stores -/

@[simp] theorem runStores_nil (x : Xlat) (acc : Access) (m : Memory) : runStores x acc m [] = some m := rfl

/-- The first store is made, and the others in the memory it leaves. -/
theorem runStores_cons {x : Xlat} {acc : Access} {m m' : Memory} {a : Word} {f : Byte → Byte} {l : List Store} :
    runStores x acc m ((a, f) :: l) = some m' ↔
      ∃ p, x.phys m a acc = some p ∧ runStores x acc (Memory.write m p.toNat (f (Memory.read m p.toNat))) l = some m' := by
  rw [runStores]
  cases x.phys m a acc <;> simp

/-- Stores after stores. -/
theorem runStores_append {x : Xlat} {acc : Access} {m m' : Memory} {l l' : List Store} :
    runStores x acc m (l ++ l') = some m' ↔ ∃ m1, runStores x acc m l = some m1 ∧ runStores x acc m1 l' = some m' := by
  induction l generalizing m with
  | nil => simp
  | cons st l ih =>
    obtain ⟨a, f⟩ := st
    simp only [List.cons_append, runStores_cons, ih]
    constructor
    · rintro ⟨p, hp, m1, h1, h2⟩
      exact ⟨m1, ⟨p, hp, h1⟩, h2⟩
    · rintro ⟨m1, ⟨p, hp, h1⟩, h2⟩
      exact ⟨p, hp, m1, h1, h2⟩

@[simp] theorem physStores_nil (x : Xlat) (acc : Access) (m : Memory) : physStores x acc m [] = [] := rfl

theorem physStores_cons {x : Xlat} {acc : Access} {m : Memory} {a : Word} {f : Byte → Byte} {p : Word}
    (h : x.phys m a acc = some p) (l : List Store) :
    physStores x acc m ((a, f) :: l) =
      p.toNat :: physStores x acc (Memory.write m p.toNat (f (Memory.read m p.toNat))) l := by simp [physStores, h]

/-- What linear stores can do: the canonical form is kept and every byte outside the stores reads as before. -/
theorem runStores_ok {x : Xlat} {acc : Access} {m m' : Memory} {l : List Store} (h : runStores x acc m l = some m') :
    StoresOnly x acc l m m' := by
  induction l generalizing m with
  | nil =>
    obtain rfl : m = m' := Option.some.inj h
    exact ⟨id, fun _ _ => rfl⟩
  | cons st l ih =>
    obtain ⟨a, f⟩ := st
    obtain ⟨p, hp, h⟩ := runStores_cons.1 h
    obtain ⟨hw, hr⟩ := ih h
    refine ⟨fun hm => hw (Memory.wf_write hm p _), fun q hq => ?_⟩
    rw [physStores_cons hp, List.mem_cons, not_or] at hq
    rw [hr q hq.2, Memory.read_write_other _ _ hq.1]

/-- What a linear write can do. -/
theorem linWrite_ok {x : Xlat} {acc : Access} {m m' : Memory} {a : Word} {bs : List Byte}
    (h : linWrite x acc m a bs = some m') : StoresOnly x acc (storeBytes a bs) m m' := runStores_ok h

/-- The addresses of bytes stored one after another. -/
@[simp] theorem addrsOf_storeBytes (a : Word) (bs : List Byte) : addrsOf (storeBytes a bs) = span a bs.length := by
  induction bs generalizing a with
  | nil => rfl
  | cons b bs ih => simpa [storeBytes, addrsOf, span] using ih (a + 1)

@[simp] theorem addrsOf_append (l l' : List Store) : addrsOf (l ++ l') = addrsOf l ++ addrsOf l' := List.map_append

/-! ### Linear reads -/

/-- Two translations and memories that read a list of linear bytes alike. -/
def AgreeOn (x : Xlat) (m : Memory) (x' : Xlat) (m' : Memory) (acc : Access) (l : List Word) : Prop :=
  ∀ a ∈ l, linRead1 x' m' acc a = linRead1 x m acc a

theorem span_two (a : Word) : span a 2 = [a, a + 1] := rfl

theorem span_add (a : Word) (n m : Nat) : span a (n + m) = span a n ++ span (a + BitVec.ofNat 32 n) m := by
  induction n generalizing a with
  | zero => simp [span]
  | succ n ih =>
    have e : a + 1 + BitVec.ofNat 32 n = a + BitVec.ofNat 32 (n + 1) := by
      rw [BitVec.add_assoc, Nat.add_comm n 1, BitVec.ofNat_add]
      rfl
    rw [Nat.succ_add, span, span, ih, e, List.cons_append]

/-- The addresses of a span. -/
theorem mem_span {a b : Word} {n : Nat} : b ∈ span a n ↔ ∃ k < n, b = a + BitVec.ofNat 32 k := by
  induction n generalizing a with
  | zero => simp [span]
  | succ n ih =>
    simp only [span, List.mem_cons, ih]
    have e (k : Nat) : a + 1 + BitVec.ofNat 32 k = a + BitVec.ofNat 32 (k + 1) := by
      rw [BitVec.add_assoc, Nat.add_comm k 1, BitVec.ofNat_add]
      rfl
    constructor
    · rintro (rfl | ⟨k, hk, rfl⟩)
      · exact ⟨0, by omega, by simp⟩
      · exact ⟨k + 1, by omega, e k⟩
    · rintro ⟨k, hk, rfl⟩
      cases k with
      | zero => exact .inl (by simp)
      | succ k => exact .inr ⟨k, by omega, (e k).symm⟩

theorem span_four (a : Word) : span a 4 = [a, a + 1, a + 2, a + 3] := by
  rw [span_add a 2 2]
  simp only [span_two, List.cons_append, List.nil_append, BitVec.add_assoc]
  rfl

theorem span_eight (a : Word) : span a 8 = span a 4 ++ span (a + 4) 4 := span_add a 4 4

theorem linRead2_congr {x x' : Xlat} {m m' : Memory} {acc : Access} {a : Word} (h : AgreeOn x m x' m' acc (span a 2)) :
    linRead2 x' m' acc a = linRead2 x m acc a := by
  rw [span_two] at h
  rw [linRead2, linRead2, h a (by simp), h (a + 1) (by simp)]

theorem linRead4_congr {x x' : Xlat} {m m' : Memory} {acc : Access} {a : Word} (h : AgreeOn x m x' m' acc (span a 4)) :
    linRead4 x' m' acc a = linRead4 x m acc a := by
  rw [span_four] at h
  rw [linRead4, linRead4, h a (by simp), h (a + 1) (by simp), h (a + 2) (by simp), h (a + 3) (by simp)]

theorem linRead8_congr {x x' : Xlat} {m m' : Memory} {acc : Access} {a : Word} (h : AgreeOn x m x' m' acc (span a 8)) :
    linRead8 x' m' acc a = linRead8 x m acc a := by
  rw [span_eight] at h
  rw [linRead8, linRead8, linRead4_congr fun b hb => h b (List.mem_append_left _ hb),
    linRead4_congr fun b hb => h b (List.mem_append_right _ hb)]

/-! ### Where linear addresses map to themselves -/

theorem Xlat.flat_of_pg_off {x : Xlat} (h : x.pg = false) (m : Memory) : x.Flat m :=
  fun a acc => Xlat.phys_of_pg_off h m a acc

theorem Xlat.flatUnder_of_pg_off {x : Xlat} (h : x.pg = false) (l : List Store) (m : Memory) : x.FlatUnder l m :=
  fun m' _ => Xlat.flat_of_pg_off h m'

theorem Xlat.FlatUnder.flat {x : Xlat} {l : List Store} {m : Memory} (h : x.FlatUnder l m) : x.Flat m := h m fun _ _ => rfl

/-- A byte read is the byte of memory. -/
theorem linRead1_of_flat {x : Xlat} {m : Memory} (h : x.Flat m) (acc : Access) (a : Word) :
    linRead1 x m acc a = some (Memory.read m a.toNat) := by simp [linRead1, h a acc]

/-- The memories that differ from one only at some linear addresses, mapped to themselves. -/
def Near (l : List Word) (m m' : Memory) : Prop := ∀ p, p ∉ l.map BitVec.toNat → Memory.read m' p = Memory.read m p

theorem Near.refl (l : List Word) (m : Memory) : Near l m m := fun _ _ => rfl

theorem Near.trans {l : List Word} {m m' m'' : Memory} (h : Near l m m') (h' : Near l m' m'') : Near l m m'' :=
  fun p hp => (h' p hp).trans (h p hp)

theorem Near.mono {l l' : List Word} {m m' : Memory} (h : Near l m m') (hs : ∀ a ∈ l, a ∈ l') : Near l' m m' :=
  fun p hp => h p fun hm => by
    obtain ⟨a, ha, rfl⟩ := List.mem_map.1 hm
    exact hp (List.mem_map_of_mem (hs a ha))

/-- A byte at an address that is not among them reads as before. -/
theorem Near.read {l : List Word} {m m' : Memory} (h : Near l m m') {a : Word} (ha : a ∉ l) :
    Memory.read m' a.toNat = Memory.read m a.toNat := by
  refine h _ fun hm => ?_
  obtain ⟨b, hb, he⟩ := List.mem_map.1 hm
  exact ha (BitVec.eq_of_toNat_eq he ▸ hb)

/-- Stores among those that a translation is flat under complete, and stay among them. -/
theorem runStores_of_flat {x : Xlat} {acc : Access} {L : List Store} {m0 : Memory} (hx : x.FlatUnder L m0) {l : List Store}
    (hl : ∀ st ∈ l, st ∈ L) {m : Memory} (hm : Near (addrsOf L) m0 m) :
    ∃ m', runStores x acc m l = some m' ∧ Near (addrsOf L) m0 m' := by
  induction l generalizing m with
  | nil => exact ⟨m, rfl, hm⟩
  | cons st l ih =>
    obtain ⟨a, f⟩ := st
    have ha : a ∈ addrsOf L := List.mem_map_of_mem (f := (·.1)) (hl _ (List.mem_cons_self ..))
    have hstep : Near (addrsOf L) m0 (Memory.write m a.toNat (f (Memory.read m a.toNat))) :=
      hm.trans fun p hp => Memory.read_write_other _ _ fun e => hp (e ▸ List.mem_map_of_mem ha)
    obtain ⟨m', h, hn⟩ := ih (fun st h => hl st (List.mem_cons_of_mem _ h)) hstep
    exact ⟨m', runStores_cons.2 ⟨a, hx m hm a acc, h⟩, hn⟩

/-- The same for all of them. -/
theorem runStores_all {x : Xlat} (acc : Access) {L : List Store} {m : Memory} (hx : x.FlatUnder L m) :
    ∃ m', runStores x acc m L = some m' ∧ Near (addrsOf L) m m' :=
  runStores_of_flat hx (fun _ h => h) (Near.refl _ _)

/-- Stores that completed differ only at their own addresses. -/
theorem runStores_near {x : Xlat} {acc : Access} {L l : List Store} {m0 m m' : Memory} (hx : x.FlatUnder L m0)
    (hl : ∀ st ∈ l, st ∈ L) (hm : Near (addrsOf L) m0 m) (h : runStores x acc m l = some m') : Near (addrsOf l) m m' := by
  induction l generalizing m with
  | nil =>
    obtain rfl : m = m' := Option.some.inj h
    exact Near.refl _ _
  | cons st l ih =>
    obtain ⟨a, f⟩ := st
    obtain ⟨p, hp, h⟩ := runStores_cons.1 h
    obtain rfl : a = p := by simpa [hx m hm a acc] using hp
    have ha : a ∈ addrsOf L := List.mem_map_of_mem (f := (·.1)) (hl _ (List.mem_cons_self ..))
    have hstep : Near (addrsOf L) m0 (Memory.write m a.toNat (f (Memory.read m a.toNat))) :=
      hm.trans fun p hp => Memory.read_write_other _ _ fun e => hp (e ▸ List.mem_map_of_mem ha)
    have hn := ih (fun st h => hl st (List.mem_cons_of_mem _ h)) hstep h
    intro p hp
    simp only [addrsOf, List.map_cons, List.mem_cons, not_or] at hp
    exact (hn p (by simpa [addrsOf] using hp.2)).trans (Memory.read_write_other _ _ hp.1)

/-- Where linear addresses map to themselves, a linear write completes. -/
theorem linWrite_of_flat {x : Xlat} {m : Memory} {a : Word} {bs : List Byte} (hx : x.FlatUnder (storeBytes a bs) m)
    (acc : Access) : ∃ m', linWrite x acc m a bs = some m' := (runStores_all acc hx).imp fun _ h => h.1

theorem apart_iff {l stores : List Word} : apart l stores = true ↔ ∀ a ∈ l, a ∉ stores := by
  simp [apart]

/-- Two spans, one wholly below the other, are apart. -/
theorem apart_of_below {a b : Word} {n m : Nat} (h : a.toNat + n ≤ b.toNat) (hb : b.toNat + m ≤ 2 ^ 32) :
    apart (span a n) (span b m) = true ∧ apart (span b m) (span a n) = true := by
  have key (c : Word) (h1 : c ∈ span a n) (h2 : c ∈ span b m) : False := by
    obtain ⟨k, hk, rfl⟩ := mem_span.1 h1
    obtain ⟨j, hj, e⟩ := mem_span.1 h2
    have := congrArg BitVec.toNat e
    simp only [BitVec.toNat_add, BitVec.toNat_ofNat] at this
    omega
  exact ⟨apart_iff.2 fun c h1 h2 => key c h1 h2, apart_iff.2 fun c h1 h2 => key c h2 h1⟩

/-- Linear bytes outside the addresses stored to read alike. -/
theorem agreeOn_of_apart {x x' : Xlat} {m m' : Memory} (hx : x.Flat m) (hx' : x'.Flat m') {acc : Access}
    {l stores : List Word} (hf : Near stores m m') (h : ∀ a ∈ l, a ∉ stores) : AgreeOn x m x' m' acc l := by
  intro a ha
  rw [linRead1_of_flat hx, linRead1_of_flat hx', hf.read (h a ha)]

end Sys2Proof.Machine
end

