-- ==== Sys2Proof/Laws/Ops.lean ====
section
/-! SUPPORT. What each shared operation can do, said once: when it completes, and what it then changes. -/

namespace Sys2Proof.Machine

/-! ### Sequencing -/

/-- A sequence completes when both parts do. -/
theorem run_bind_ok {α β : Type} {x : Run α} {f : α → Run β} {b : β} :
    (x >>= f) = .ok b ↔ ∃ a, x = .ok a ∧ f a = .ok b := by
  cases x <;> simp [bind, Except.bind]

theorem orElse_ok {c : Bool} {st : Stop} {u : Unit} : orElse c st = .ok u ↔ c = true := by
  cases c <;> simp [orElse]

theorem orPartWay_ok {α : Type} {o : Option α} {a : α} : orPartWay o = .ok a ↔ o = some a := by
  cases o <;> simp [orPartWay]

theorem orPageFault_ok {α : Type} {ctx : Context} {s : State} {o : Option α} {a : α} :
    orPageFault ctx s o = .ok a ↔ o = some a := by
  cases o <;> simp [orPageFault]

@[simp] theorem orElse_true (st : Stop) : orElse true st = .ok () := rfl
@[simp] theorem orElse_false (st : Stop) : orElse false st = .error st := rfl
@[simp] theorem orPartWay_some {α : Type} (a : α) : orPartWay (some a) = .ok a := rfl
@[simp] theorem orPageFault_some {α : Type} (ctx : Context) (s : State) (a : α) : orPageFault ctx s (some a) = .ok a := rfl
@[simp] theorem run_ok_bind {α β : Type} (a : α) (f : α → Run β) : ((Except.ok a : Run α) >>= f) = f a := rfl
@[simp] theorem run_error_bind {α β : Type} (e : Stop) (f : α → Run β) : ((Except.error e : Run α) >>= f) = .error e := rfl
theorem run_pure {α : Type} (a : α) : (pure a : Run α) = .ok a := rfl

/-! ### Locating the incoming TSS descriptor -/

/-- Tests 1 to 3 pass exactly for a target that is ready (41 R126 to R131). -/
theorem locateTss_ok {c : Cause} {sel : Sel} {ext : Bool} {s : State} {d : Descriptor} :
    locateTss c sel ext s = .ok d ↔
      selNull sel = false ∧ selTi sel = false ∧ s.desc sel = .found d ∧ isTss d = true ∧ descPresent d = true ∧
        isBusy d = !setsIncomingBusy c ∧ (descG d = true → 103 ≤ (rawLimit d).toNat) ∧
        103 ≤ (effectiveLimit d).toNat := by
  simp only [locateTss, run_bind_ok, orElse_ok]
  cases hl : s.desc sel with
  | outOfBounds => simp
  | pageFault => simp
  | found e =>
    simp only [run_bind_ok, orElse_ok, run_pure, Except.ok.injEq, Lookup.found.injEq, decide_eq_true_eq,
      Bool.not_eq_true', Bool.and_eq_false_iff, decide_eq_false_iff_not, Nat.not_lt]
    simp only [Config.tssMinLimit]
    by_cases hd : e = d
    · subst hd
      cases hn : selNull sel <;> cases ht : selTi sel <;> cases hs : setsIncomingBusy c <;> cases hb : isBusy e <;>
        cases hg : descG e <;> simp_all
    · simp [hd]

/-- With paging off there is nothing to check (20 R60). -/
theorem pagesPresent_of_pg_off {s : State} (h : s.pg = false) (c : Cause) (sel : Sel) (d : Descriptor) :
    pagesPresent c s sel d = .ok () := by simp [pagesPresent, h]

theorem commonMapping_of_pg_off {s : State} (h : s.pg = false) (m : Memory) (d : Descriptor) (pdbr : Word) :
    commonMapping s m d pdbr = true := by simp [commonMapping, h]

/-! ### The stores of a task switch -/

/-- Steps 3 to 5 up to the loads, taken apart (41 R133 to R147). -/
theorem loadTask_ok {c : Cause} {sel : Sel} {d : Descriptor} {retEip : Word} {s t : State} :
    loadTask c sel d retEip s = .ok t ↔
      ∃ m img m', runStores s.xlat .sysWrite s.mem (outgoingStores c retEip s ++ incomingStores c sel s) = some m ∧
        loadImage s.xlat m (descBase d) = some img ∧ flagVm img.eflags = false ∧
        commonMapping s m d img.pdbr = true ∧
        runStores s.xlat .sysWrite m (backLinkStores c (descBase d) s) = some m' ∧
        commonMapping s m' d img.pdbr = true ∧ t = enterTask c sel d img m' s := by
  simp only [loadTask, run_bind_ok, orPartWay_ok, orElse_ok, run_pure, Except.ok.injEq, Bool.not_eq_true', exists_and_left,
    eq_comm (a := t)]
  simp

/-- The memory a switch loads its task with is that of all its stores, in order. -/
theorem loadTask_runs {c : Cause} {sel : Sel} {d : Descriptor} {retEip : Word} {s t : State}
    (h : loadTask c sel d retEip s = .ok t) :
    runStores s.xlat .sysWrite s.mem (switchStores c sel (descBase d) retEip s) = some t.mem := by
  obtain ⟨m, img, m', h1, -, -, -, h2, -, rfl⟩ := loadTask_ok.1 h
  exact runStores_append.2 ⟨m, h1, h2⟩

/-- What the stores of the whole switch leave of memory. -/
theorem loadTask_stores {c : Cause} {sel : Sel} {d : Descriptor} {retEip : Word} {s t : State}
    (h : loadTask c sel d retEip s = .ok t) :
    StoresOnly s.xlat .sysWrite (switchStores c sel (descBase d) retEip s) s.mem t.mem := runStores_ok (loadTask_runs h)

/-! ### Tests 4 to 16 -/

/-- Tests 4 and 5 passed: only the LDT register changed, and it holds an LDT of the GDT or none (41 R150, R154). -/
theorem testLdt_ok {x : Xlat} {ext : Bool} {s t : State} (h : testLdt x ext s = .ok t) :
    ∃ l : LdtReg, t = { s with ldtr := l } ∧ l.sel = s.ldtr.sel ∧
      ((selNull l.sel = true ∧ l.usable = false) ∨
        (selNull l.sel = false ∧ selTi l.sel = false ∧ l.usable = true ∧
          ∃ d, s.newDesc x l.sel = .found d ∧ isLdt d = true ∧ descPresent d = true ∧ l.base = descBase d ∧
            l.limit = effectiveLimit d)) := by
  simp only [testLdt, Config.nullSelOk, if_true] at h
  split at h
  · rename_i hn
    cases h
    exact ⟨_, rfl, rfl, .inl ⟨hn, rfl⟩⟩
  · rename_i hn
    split at h
    · cases h
    · rename_i ht
      split at h
      · cases h
      · cases h
      · rename_i d hd
        simp only [run_bind_ok, orElse_ok, run_pure, Except.ok.injEq] at h
        obtain ⟨-, h1, -, h2, rfl⟩ := h
        exact ⟨_, rfl, rfl, .inr ⟨by simpa using hn, by simpa using ht, rfl, d, hd, h1, h2, rfl, rfl⟩⟩

/-- Tests 6 to 8 passed: only the invisible part of CS changed (41 R151). -/
theorem testCs_ok {x : Xlat} {ext : Bool} {s t : State} (h : testCs x ext s = .ok t) :
    ∃ d, selNull s.segs.cs.sel = false ∧ s.newDesc x s.segs.cs.sel = .found d ∧ isCode d = true ∧ descPresent d = true ∧
      codeDplMatches d (selRpl s.segs.cs.sel) = true ∧
      t = { s with segs := { s.segs with cs := { sel := s.segs.cs.sel, cache := .ofDesc d } } } := by
  simp only [testCs] at h
  split at h
  · cases h
  · rename_i hn
    split at h
    · cases h
    · cases h
    · rename_i d hd
      simp only [run_bind_ok, orElse_ok, run_pure, Except.ok.injEq] at h
      obtain ⟨-, h1, -, h2, -, h3, rfl⟩ := h
      exact ⟨d, by simpa using hn, hd, h1, h2, h3, rfl⟩

/-- Tests 9 to 12 passed: only the invisible part of SS changed (41 R152). -/
theorem testSs_ok {x : Xlat} {ext : Bool} {s t : State} (h : testSs x ext s = .ok t) :
    ∃ d, selNull s.segs.ss.sel = false ∧ s.newDesc x s.segs.ss.sel = .found d ∧ isWritableData d = true ∧
      descPresent d = true ∧ descDpl d = s.cpl ∧ selRpl s.segs.ss.sel = s.cpl ∧
      t = { s with segs := { s.segs with ss := { sel := s.segs.ss.sel, cache := .ofDesc d } } } := by
  simp only [testSs] at h
  split at h
  · cases h
  · rename_i hn
    split at h
    · cases h
    · cases h
    · rename_i d hd
      simp only [run_bind_ok, orElse_ok, run_pure, Except.ok.injEq, beq_iff_eq] at h
      obtain ⟨-, h1, -, h2, -, h3, -, h4, rfl⟩ := h
      exact ⟨d, by simpa using hn, hd, h1, h2, h3, h4, rfl⟩

/-- Tests 13 to 16 passed: only the invisible parts of DS, ES, FS, GS changed (41 R153). -/
theorem testDataRegs_ok {x : Xlat} {ext : Bool} {s t : State} (h : testDataRegs x ext s = .ok t) :
    dataFailures x ext s = [] ∧
      t = { s with
        segs :=
          { s.segs with
            ds := loadData x ext s .ds, es := loadData x ext s .es
            fs := loadData x ext s .fs, gs := loadData x ext s .gs } } := by
  simp only [testDataRegs] at h
  split at h
  · cases h
  · split at h
    · rename_i hf
      exact ⟨hf, by cases h; rfl⟩
    · cases h
    · cases h

/-- After tests 4 to 16 only the LDT register's invisible part and the invisible parts of the segment registers differ. -/
structure OnlyInvisible (s t : State) : Prop where
  regs : t.regs = s.regs
  eip : t.eip = s.eip
  eflags : t.eflags = s.eflags
  cpl : t.cpl = s.cpl
  es : t.segs.es.sel = s.segs.es.sel
  cs : t.segs.cs.sel = s.segs.cs.sel
  ss : t.segs.ss.sel = s.segs.ss.sel
  ds : t.segs.ds.sel = s.segs.ds.sel
  fs : t.segs.fs.sel = s.segs.fs.sel
  gs : t.segs.gs.sel = s.segs.gs.sel
  cr0 : t.cr0 = s.cr0
  pdbr : t.pdbr = s.pdbr
  cr2 : t.cr2 = s.cr2
  debugRegs : t.debugRegs = s.debugRegs
  testRegs : t.testRegs = s.testRegs
  gdt : t.gdt = s.gdt
  idt : t.idt = s.idt
  ldtSel : t.ldtr.sel = s.ldtr.sel
  tr : t.tr = s.tr
  mem : t.mem = s.mem
  extInts : t.extInts = s.extInts
  debugPending : t.debugPending = s.debugPending
  choices : t.choices = s.choices

/-- The tests passed, in order. -/
theorem runTests_steps {x : Xlat} {ext : Bool} {s t : State} (h : runTests x ext s = .ok t) :
    ∃ s1 s2 s3, testLdt x ext s = .ok s1 ∧ testCs x ext s1 = .ok s2 ∧ testSs x ext s2 = .ok s3 ∧
      testDataRegs x ext s3 = .ok t := by
  simpa only [runTests, run_bind_ok, exists_and_left] using h

/-- What passing tests 4 to 16 can do. -/
theorem runTests_ok {x : Xlat} {ext : Bool} {s t : State} (h : runTests x ext s = .ok t) :
    OnlyInvisible s t ∧
      (t.segs.cs.cache.usable = true ∧ t.segs.cs.cache.access.getLsbD 4 = true ∧ t.segs.cs.cache.access.getLsbD 3 = true) ∧
      (t.segs.ss.cache.usable = true ∧ t.segs.ss.cache.writable = true ∧
        t.segs.ss.cache.access.extractLsb' 5 2 = s.cpl ∧ selRpl s.segs.ss.sel = s.cpl) ∧
      (t.ldtr.usable = true → selTi s.ldtr.sel = false ∧ selNull s.ldtr.sel = false) := by
  obtain ⟨s1, s2, s3, h1, h2, h3, h4⟩ := runTests_steps h
  obtain ⟨l, rfl, hl, hll⟩ := testLdt_ok h1
  obtain ⟨dc, -, -, hc, -, -, rfl⟩ := testCs_ok h2
  obtain ⟨ds, -, -, hs, -, hd, hr, rfl⟩ := testSs_ok h3
  obtain ⟨-, rfl⟩ := testDataRegs_ok h4
  simp only [isWritableData, isData, isCode, descS, Bool.and_eq_true, Bool.not_eq_true'] at hc hs
  refine ⟨⟨rfl, rfl, rfl, rfl, rfl, rfl, rfl, rfl, rfl, rfl, rfl, rfl, rfl, rfl, rfl, rfl, rfl, hl, rfl, rfl, rfl, rfl, rfl⟩,
    ⟨rfl, hc.1, hc.2⟩, ⟨rfl, ?_, hd, hr⟩, ?_⟩
  · simp only [SegCache.writable, SegCache.ofDesc, Bool.and_eq_true, Bool.not_eq_true']
    exact hs
  · intro hu
    rw [← hl]
    rcases hll with ⟨-, hf⟩ | ⟨h1, h2, -⟩
    · exact absurd (hu.symm.trans hf) (by decide)
    · exact ⟨h2, h1⟩

/-! ### The task switch -/

/-- A task switch, taken apart (41 R121). -/
theorem taskSwitch_ok {c : Cause} {sel : Sel} {ext : Bool} {retEip : Word} {s t : State} :
    taskSwitch c sel ext retEip s = .ok t ↔
      s.tr.valid = true ∧ ∃ d, locateTss c sel ext s = .ok d ∧ pagesPresent c s sel d = .ok () ∧
        ∃ s1, loadTask c sel d retEip s = .ok s1 ∧
          ∃ s2, runTests (s.xlat.under s1.pdbr) ext s1 = .ok s2 ∧
            ∃ b, trapBit (s.xlat.under s1.pdbr) s2.mem s2.tr.base = some b ∧ t = { s2 with debugPending := b } := by
  simp only [taskSwitch, run_bind_ok, orElse_ok, orPartWay_ok, run_pure, Except.ok.injEq, eq_comm (a := t)]
  constructor
  · rintro ⟨-, hv, d, hd, ⟨⟩, hp, s1, h1, s2, h2, b, hb, ht⟩
    exact ⟨hv, d, hd, hp, s1, h1, s2, h2, b, hb, ht⟩
  · rintro ⟨hv, d, hd, hp, s1, h1, s2, h2, b, hb, ht⟩
    exact ⟨(), hv, d, hd, (), hp, s1, h1, s2, h2, b, hb, ht⟩

/-- What a completed task switch can do, whatever the paging (41 R133 to R158). -/
structure SwitchResult (c : Cause) (sel : Sel) (retEip : Word) (s t : State) (d : Descriptor) (img : Image) : Prop where
  found : s.desc sel = .found d
  vm : flagVm img.eflags = false
  regs : t.regs = img.regs
  eip : t.eip = img.eip
  eflags : t.eflags = loadedFlags c img.eflags
  cpl : t.cpl = selRpl img.cs
  es : t.segs.es.sel = img.es
  cs : t.segs.cs.sel = img.cs
  ss : t.segs.ss.sel = img.ss
  ds : t.segs.ds.sel = img.ds
  fs : t.segs.fs.sel = img.fs
  gs : t.segs.gs.sel = img.gs
  ldtSel : t.ldtr.sel = img.ldt
  csCache : t.segs.cs.cache.usable = true ∧ t.segs.cs.cache.access.getLsbD 4 = true ∧
    t.segs.cs.cache.access.getLsbD 3 = true
  ssCache : t.segs.ss.cache.usable = true ∧ t.segs.ss.cache.writable = true ∧
    t.segs.ss.cache.access.extractLsb' 5 2 = t.cpl ∧ selRpl t.segs.ss.sel = t.cpl
  cr0 : t.cr0 = setTs s.cr0
  pdbr : t.pdbr = img.pdbr
  cr2 : t.cr2 = s.cr2
  debugRegs : t.debugRegs = s.debugRegs
  testRegs : t.testRegs = s.testRegs
  gdt : t.gdt = s.gdt
  idt : t.idt = s.idt
  ldtr : t.ldtr.usable = true → selTi t.ldtr.sel = false ∧ selNull t.ldtr.sel = false
  tr : t.tr = { valid := true, sel := sel, base := descBase d, limit := effectiveLimit d }
  trSel : selTi sel = false ∧ selNull sel = false
  extInts : t.extInts = s.extInts
  choices : t.choices = s.choices
  mem : StoresOnly s.xlat .sysWrite (switchStores c sel (descBase d) retEip s) s.mem t.mem
  image : ∃ m, runStores s.xlat .sysWrite s.mem (outgoingStores c retEip s ++ incomingStores c sel s) = some m ∧
    loadImage s.xlat m (descBase d) = some img ∧
    runStores s.xlat .sysWrite m (backLinkStores c (descBase d) s) = some t.mem

theorem taskSwitch_result {c : Cause} {sel : Sel} {ext : Bool} {retEip : Word} {s t : State}
    (h : taskSwitch c sel ext retEip s = .ok t) : ∃ d img, SwitchResult c sel retEip s t d img := by
  obtain ⟨-, d, hd, -, s1, hl, s2, ht, b, -, rfl⟩ := taskSwitch_ok.1 h
  obtain ⟨hn, hti, hf, -⟩ := locateTss_ok.1 hd
  have hst := loadTask_stores hl
  obtain ⟨m, img, m', hm, hi, hv, -, hm', -, rfl⟩ := loadTask_ok.1 hl
  obtain ⟨o, hc, ⟨hs1, hs2, hs3, hs4⟩, hldt⟩ := runTests_ok ht
  refine ⟨d, img, ?_⟩
  constructor <;> try first
    | exact hf | exact hv | exact o.regs | exact o.eip | exact o.eflags | exact o.cpl | exact o.cs | exact hc | exact o.cr0
    | exact o.pdbr | exact o.cr2 | exact o.debugRegs | exact o.testRegs | exact o.es | exact o.ss | exact o.ds | exact o.fs | exact o.gs
    | exact o.ldtSel | exact o.gdt | exact o.idt | exact o.tr | exact ⟨hti, hn⟩ | exact o.extInts | exact o.choices
  · exact ⟨hs1, hs2, hs3.trans o.cpl.symm, (o.ss ▸ hs4).trans o.cpl.symm⟩
  · intro hu
    exact o.ldtSel ▸ hldt hu
  · exact o.mem ▸ hst
  · exact ⟨m, hm, hi, hm'.trans (congrArg some o.mem.symm)⟩

/-! ### Taking an exception and the other ways in -/

/-- Pushing an error code changes ESP and memory only (42 R182). -/
theorem pushErrorCode_ok {code : BitVec 16} {s t : State} (h : pushErrorCode code s = .ok t) :
    ∃ m, linWrite s.xlat (.progWrite s.cpl) s.mem (s.linear { seg := .ss, off := s.regs.esp - 4#32 })
        (bytes4 (code.setWidth 32)) = some m ∧
      t = { s with regs := { s.regs with esp := s.regs.esp - 4#32 }, mem := m } := by
  simp only [pushErrorCode, run_bind_ok, orElse_ok, orPageFault_ok, run_pure, Except.ok.injEq] at h
  obtain ⟨-, -, m, hm, rfl⟩ := h
  exact ⟨m, hm, rfl⟩

/-- Entering a handler task: a task switch with cause INT, then perhaps an error code pushed (42 R178, R182). -/
theorem enterHandler_ok {r : Raise} {gate : Descriptor} {s t : State} (h : enterHandler r gate s = .ok t) :
    ∃ s1, taskSwitch .int (gateSelector gate) true s.eip s = .ok s1 ∧
      (t = s1 ∨ ∃ code, r.code = some code ∧ pushErrorCode code s1 = .ok t) := by
  simp only [enterHandler, Config.errcodePush, if_true, run_bind_ok, orElse_ok] at h
  obtain ⟨-, -, s1, h1, h2⟩ := h
  refine ⟨s1, h1, ?_⟩
  cases hc : r.code with
  | none => rw [hc] at h2; exact .inl (by simpa [run_pure, eq_comm] using h2)
  | some code => rw [hc] at h2; exact .inr ⟨code, rfl, h2⟩

/-- An exception is taken only through a task gate of the IDT (60 R190). -/
theorem deliver_next {r : Raise} {s t : State} (h : deliver r s = .next t) :
    ∃ gate, s.idtEntry (vectorOf r.exc) = .found gate ∧ isTaskGate gate = true ∧ enterHandler r gate (recorded r s) = .ok t := by
  simp only [deliver, enterThroughIdt, recorded_idtEntry] at h
  split at h
  · cases h
  · cases h
  · rename_i gate hg
    split at h
    · rename_i ht
      split at h
      · rename_i s' hs
        cases h
        exact ⟨gate, hg, ht, hs⟩
      · cases h
      · cases h
    · cases h

/-- The end of an instruction: it completed, or its exception was taken. -/
theorem finish_next {o : Run State} {t : State} (h : finish o = .next t) :
    o = .ok t ∨ ∃ r s, o = .error (.raised r s) ∧ deliver r s = .next t := by
  cases o with
  | ok s => simp only [finish, Host.Outcome.next.injEq] at h; exact .inl (by rw [h])
  | error e =>
    cases e with
    | raised r s => exact .inr ⟨r, s, rfl, h⟩
    | refused x => simp [finish] at h

@[simp] theorem finish_ok (t : State) : finish (.ok t) = .next t := rfl
@[simp] theorem finish_raised (r : Raise) (s : State) : finish (.error (.raised r s)) = deliver r s := rfl
@[simp] theorem finish_refused (x : Refusal) : finish (.error (.refused x)) = .refused x := rfl

/-- The return reads the back-link of the current TSS and switches to it (42 R174). -/
theorem returnToLink_ok {nextEip : Word} {s t : State} :
    returnToLink nextEip s = .ok t ↔
      s.tr.valid = true ∧ ∃ link, linRead2 s.xlat s.mem .sysRead (s.tr.base + tssBackLink) = some link ∧
        taskSwitch .iret link false nextEip s = .ok t := by
  simp only [returnToLink, run_bind_ok, orElse_ok, orPageFault_ok, orPartWay_ok, linRead2]
  cases linRead1 s.xlat s.mem .sysRead (s.tr.base + tssBackLink) <;>
    cases linRead1 s.xlat s.mem .sysRead (s.tr.base + tssBackLink + 1) <;> simp

/-- Through the IDT into a task (42 R176, R177). -/
theorem vectorToTask_ok {n : BitVec 8} {ext dplCheck : Bool} {retEip : Word} {s t : State} :
    vectorToTask n ext dplCheck retEip s = .ok t ↔
      ∃ g, s.idtEntry n = .found g ∧ isTaskGate g = true ∧ (dplCheck = true → s.cpl.toNat ≤ (descDpl g).toNat) ∧
        descPresent g = true ∧ taskSwitch .int (gateSelector g) ext retEip s = .ok t := by
  simp only [vectorToTask]
  cases s.idtEntry n with
  | outOfBounds => simp
  | pageFault => simp [pageFaultIn]
  | found g =>
    cases hg : isTaskGate g with
    | false => simp [hg]
    | true =>
      cases dplCheck <;> simp [run_bind_ok, orElse_ok, hg]

/-- A far transfer into a task (42 R170). -/
theorem farTransfer_ok {c : Cause} {sel : Sel} {nextEip : Word} {s t : State} :
    farTransfer c sel nextEip s = .ok t ↔
      selNull sel = false ∧ ∃ d, s.desc sel = .found d ∧ mayUse s sel d = true ∧
        ((isTss d = true ∧ selTi sel = false ∧ taskSwitch c sel false nextEip s = .ok t) ∨
          (isTss d = false ∧ isTaskGate d = true ∧ descPresent d = true ∧
            taskSwitch c (gateSelector d) false nextEip s = .ok t)) := by
  simp only [farTransfer, run_bind_ok, orElse_ok, Bool.not_eq_true']
  cases s.desc sel with
  | outOfBounds => simp
  | pageFault => simp [pageFaultIn]
  | found d =>
    cases h1 : isTss d <;> cases h2 : isTaskGate d <;> cases h3 : mayUse s sel d <;> cases h4 : descPresent d <;>
      cases h5 : selTi sel <;> simp [h1, h2, h3, h4]

/-! ### A step -/

/-- Nothing pending: the step is the instruction at CS:EIP (41 R158). -/
theorem step_of_quiet {s : State} (hd : s.debugPending = false) (he : s.extInts = []) : step s = stepInstr s := by
  simp [step, State.boundary, hd, he]

/-- The environment presents nothing at this boundary. -/
theorem step_of_none {s : State} {rest : List (Option (BitVec 8))} (hd : s.debugPending = false)
    (he : s.extInts = none :: rest) : step s = stepInstr { s with extInts := rest } := by
  simp [step, State.boundary, hd, he]

end Sys2Proof.Machine
end

