-- ==== Sys2Proof/Laws/Switch.lean ====
section
/-! SUPPORT. A task switch whose target is ready completes, and what it then leaves. -/

namespace Sys2Proof.Machine

/-! ### The page checks under a mapping of every address to itself -/

theorem accessible_of_flat {s : State} (h : s.xlat.Flat s.mem) (a : Word) : s.accessible a = true := by
  simp [State.accessible, h a]

theorem firstAccessible_of_flat {s : State} (h : s.xlat.Flat s.mem) (c : Cause) : s.firstAccessible c = true := by
  cases c <;> simp [State.firstAccessible, accessible_of_flat h, h (s.busyByteAddr s.tr.sel)]

theorem pagesPresent_of_flat {s : State} (h : s.xlat.Flat s.mem) (c : Cause) (sel : Sel) (d : Descriptor) :
    pagesPresent c s sel d = .ok () := by
  have hall (l : List Word) : l.all s.accessible = true := List.all_eq_true.2 fun a _ => accessible_of_flat h a
  unfold pagesPresent
  split
  · simp only [firstAccessible_of_flat h c, hall, h (s.busyByteAddr s.tr.sel), h (s.busyByteAddr sel), Option.isSome_some,
      orElse_true, run_ok_bind]
  · rfl

theorem commonMapping_of_flat {s : State} {m : Memory} {pdbr : Word} (h : s.xlat.Flat m) (h' : (s.xlat.under pdbr).Flat m)
    (d : Descriptor) : commonMapping s m d pdbr = true := by
  rw [commonMapping, Bool.or_eq_true]
  refine .inr (List.all_eq_true.2 fun a _ => ?_)
  simp [mapsAlike, h a, h' a]

/-! ### Reads of the incoming task after the stores -/

/-- A span inside another, by offset. -/
theorem mem_span_of_offset {a b : Word} {n k len : Nat} (h : b ∈ span (a + BitVec.ofNat 32 k) n) (hk : k + n ≤ len) :
    b ∈ span a len := by
  obtain ⟨r, rfl⟩ := Nat.exists_eq_add_of_le hk
  rw [span_add, span_add, List.mem_append, List.mem_append]
  exact .inl (.inr h)

/-- A TSS read after stores apart from it gives the image it held before. -/
theorem loadImage_congr {x : Xlat} {m m' : Memory} (hx : x.Flat m) (hx' : x.Flat m') {base : Word} {stores : List Word}
    (hf : Near stores m m') (ha : ∀ a ∈ span (base + 0x1C#32) 0x4A, a ∉ stores) :
    loadImage x m' base = loadImage x m base := by
  have agree (k n : Nat) (h : k + n ≤ 0x4A) :
      AgreeOn x m x m' .sysRead (span (base + 0x1C#32 + BitVec.ofNat 32 k) n) :=
    agreeOn_of_apart hx hx' hf fun a hm => ha a (mem_span_of_offset hm h)
  have r4 (off : Word) (k : Nat) (h : k + 4 ≤ 0x4A) (e : off = 0x1C#32 + BitVec.ofNat 32 k) :
      linRead4 x m' .sysRead (base + off) = linRead4 x m .sysRead (base + off) :=
    linRead4_congr (by rw [e, ← BitVec.add_assoc]; exact agree k 4 h)
  have r2 (off : Word) (k : Nat) (h : k + 2 ≤ 0x4A) (e : off = 0x1C#32 + BitVec.ofNat 32 k) :
      linRead2 x m' .sysRead (base + off) = linRead2 x m .sysRead (base + off) :=
    linRead2_congr (by rw [e, ← BitVec.add_assoc]; exact agree k 2 h)
  have hr (r : Reg) : linRead4 x m' .sysRead (base + tssReg r) = linRead4 x m .sysRead (base + tssReg r) := by
    cases r
    exacts [r4 _ 0x0C (by decide) rfl, r4 _ 0x10 (by decide) rfl, r4 _ 0x14 (by decide) rfl, r4 _ 0x18 (by decide) rfl,
      r4 _ 0x1C (by decide) rfl, r4 _ 0x20 (by decide) rfl, r4 _ 0x24 (by decide) rfl, r4 _ 0x28 (by decide) rfl]
  have hs (r : SReg) : linRead2 x m' .sysRead (base + tssSeg r) = linRead2 x m .sysRead (base + tssSeg r) := by
    cases r
    exacts [r2 _ 0x2C (by decide) rfl, r2 _ 0x30 (by decide) rfl, r2 _ 0x34 (by decide) rfl, r2 _ 0x38 (by decide) rfl,
      r2 _ 0x3C (by decide) rfl, r2 _ 0x40 (by decide) rfl]
  have hg : loadGprs x m' base = loadGprs x m base := by simp only [loadGprs, hr]
  simp only [loadImage, hg, hs, r2 tssLdt 0x44 (by decide) rfl, r4 tssEflags 0x08 (by decide) rfl,
    r4 tssEip 0x04 (by decide) rfl, r4 tssPdbr 0x00 (by decide) rfl]

/-- The T bit after stores apart from the TSS. -/
theorem trapBit_congr {x x' : Xlat} {m m' : Memory} (hx : x.Flat m) (hx' : x'.Flat m') {base : Word} {stores : List Word}
    (hf : Near stores m m') (ha : ∀ a ∈ span (base + 0x1C#32) 0x4A, a ∉ stores) :
    trapBit x' m' base = trapBit x m base := by
  have e : base + tssTrap = base + 0x1C#32 + BitVec.ofNat 32 0x48 := by rw [BitVec.add_assoc]; rfl
  rw [trapBit, trapBit, e]
  congr 1
  exact linRead2_congr (agreeOn_of_apart hx hx' hf fun a hm => ha a (mem_span_of_offset hm (by decide)))

/-- A descriptor read after stores apart from it is the one that was there. -/
theorem lookup_congr {s : State} {x' : Xlat} {m' : Memory} (hx : s.xlat.Flat s.mem) (hx' : x'.Flat m') {ldt : LdtReg} {v : Sel}
    {stores : List Word} (hf : Near stores s.mem m') (ha : ∀ a ∈ descAddrs s ldt v, a ∉ stores) :
    lookup x' m' s.gdt ldt v = lookup s.xlat s.mem s.gdt ldt v := by
  have h8 : linRead8 x' m' .sysRead ((if selTi v then ldt.base else s.gdt.base) + selOffset v) =
      linRead8 s.xlat s.mem .sysRead ((if selTi v then ldt.base else s.gdt.base) + selOffset v) :=
    linRead8_congr (agreeOn_of_apart hx hx' hf ha)
  cases ht : selTi v <;> simp only [ht, if_true, if_false, Bool.false_eq_true] at h8 <;> simp [lookup, ht, h8]

/-- A GDT selector's descriptor does not depend on the LDT register. -/
theorem lookup_gdt {x : Xlat} {m : Memory} {gdt : TableReg} {l l' : LdtReg} {v : Sel} (h : selTi v = false) :
    lookup x m gdt l v = lookup x m gdt l' v := by simp [lookup, h]

/-! ### The tests pass -/

/-- A data segment register whose selector may be loaded passes tests 13 to 16. -/
theorem testData_passes {x : Xlat} {ext : Bool} {s0 s : State} {ldt : LdtReg} {r : SReg}
    (hd : ∀ v, v = (s.segs.get r).sel → selNull v = false → s.newDesc x v = s0.descIn ldt v)
    (h : DataLoads s0 ldt s.cpl (s.segs.get r).sel) :
    ∃ c, testData x ext s r = .passes c ∧ LoadedSeg s0 ldt (s.segs.get r).sel { sel := (s.segs.get r).sel, cache := c } := by
  cases hn : selNull (s.segs.get r).sel with
  | true => exact ⟨.unloaded, by simp [testData, hn, Config.nullSelOk], rfl, .inl ⟨hn, rfl⟩⟩
  | false =>
    rcases h with h | ⟨d, hf, h1, h2, h3, h4⟩
    · rw [hn] at h; cases h
    · refine ⟨.ofDesc d, ?_, rfl, .inr ⟨hn, d, hf, rfl⟩⟩
      have h4' : (isConforming d || decide (s.cpl.toNat ≤ (descDpl d).toNat)) = true := by simpa using h4
      simp [testData, hn, hd _ rfl hn, hf, h1, h2, h3, h4']

theorem loadedSeg_loadData {x : Xlat} {ext : Bool} {s0 s : State} {ldt : LdtReg} {r : SReg} {c : SegCache} {v : Sel}
    (h : testData x ext s r = .passes c) (hv : (s.segs.get r).sel = v)
    (hl : LoadedSeg s0 ldt (s.segs.get r).sel { sel := (s.segs.get r).sel, cache := c }) :
    LoadedSeg s0 ldt v (loadData x ext s r) := by
  subst hv
  simpa [loadData, h] using hl

/-- The four data segment registers pass together. -/
theorem testDataRegs_passes {x : Xlat} {ext : Bool} {s : State}
    (h : ∀ r ∈ dataRegs, ∃ c, testData x ext s r = .passes c) :
    testDataRegs x ext s = .ok { s with
      segs :=
        { s.segs with
          ds := loadData x ext s .ds, es := loadData x ext s .es
          fs := loadData x ext s .fs, gs := loadData x ext s .gs } } := by
  obtain ⟨c1, h1⟩ := h .ds (by decide)
  obtain ⟨c2, h2⟩ := h .es (by decide)
  obtain ⟨c3, h3⟩ := h .fs (by decide)
  obtain ⟨c4, h4⟩ := h .gs (by decide)
  simp [testDataRegs, dataFailures, dataRegs, h1, h2, h3, h4]

/-- Tests 4 to 16 pass on loaded selectors whose descriptors read as they did before the switch. -/
theorem runTests_passes {x : Xlat} {ext : Bool} {s0 s : State} {ldt : LdtReg}
    (hl : s.newDesc x s.ldtr.sel = s0.desc s.ldtr.sel ∨ selNull s.ldtr.sel = true)
    (hd : ∀ v ∈ [s.segs.cs.sel, s.segs.ss.sel, s.segs.ds.sel, s.segs.es.sel, s.segs.fs.sel, s.segs.gs.sel],
      selNull v = false → lookup x s.mem s.gdt ldt v = s0.descIn ldt v)
    (hldt : LdtLoads s0 s.ldtr.sel ldt) (hcs : CodeLoads s0 ldt s.segs.cs.sel) (hss : StackLoads s0 ldt s.cpl s.segs.ss.sel)
    (hdata : ∀ v ∈ [s.segs.ds.sel, s.segs.es.sel, s.segs.fs.sel, s.segs.gs.sel], DataLoads s0 ldt s.cpl v) :
    ∃ g, runTests x ext s = .ok { s with ldtr := ldt, segs := g } ∧
      LoadedSeg s0 ldt s.segs.cs.sel g.cs ∧ LoadedSeg s0 ldt s.segs.ss.sel g.ss ∧ LoadedSeg s0 ldt s.segs.ds.sel g.ds ∧
      LoadedSeg s0 ldt s.segs.es.sel g.es ∧ LoadedSeg s0 ldt s.segs.fs.sel g.fs ∧ LoadedSeg s0 ldt s.segs.gs.sel g.gs := by
  have h1 : testLdt x ext s = .ok { s with ldtr := ldt } := by
    rcases hldt with ⟨hn, rfl⟩ | ⟨hn, ht, d, hf, hi, hp, rfl⟩
    · simp [testLdt, hn, Config.nullSelOk]
    · rcases hl with hl | hl
      · simp [testLdt, hn, ht, hl, hf, hi, hp, run_pure]
      · rw [hn] at hl; cases hl
  obtain ⟨hcn, dc, hcf, hc1, hc2, hc3⟩ := hcs
  have hcm : codeDplMatches dc (selRpl s.segs.cs.sel) = true := by
    unfold codeDplMatches
    split at hc3 <;> simp_all
  have h2 : testCs x ext { s with ldtr := ldt } =
      .ok { s with ldtr := ldt, segs := { s.segs with cs := { sel := s.segs.cs.sel, cache := .ofDesc dc } } } := by
    simp [testCs, hcn, State.newDesc, hd _ (by simp) hcn, hcf, hc1, hc2, hcm, run_pure]
  obtain ⟨hsn, ds, hsf, hs1, hs2, hs3, hs4⟩ := hss
  have h3 : testSs x ext
        { s with ldtr := ldt, segs := { s.segs with cs := { sel := s.segs.cs.sel, cache := .ofDesc dc } } } =
      .ok { s with
        ldtr := ldt
        segs :=
          { s.segs with
            cs := { sel := s.segs.cs.sel, cache := .ofDesc dc }, ss := { sel := s.segs.ss.sel, cache := .ofDesc ds } } } := by
    simp [testSs, hsn, State.newDesc, hd _ (by simp) hsn, hsf, hs1, hs2, hs3, hs4, run_pure]
  let s3 : State :=
    { s with
      ldtr := ldt
      segs :=
        { s.segs with
          cs := { sel := s.segs.cs.sel, cache := .ofDesc dc }, ss := { sel := s.segs.ss.sel, cache := .ofDesc ds } } }
  have pass (r : SReg) (hr : (s3.segs.get r).sel ∈ [s.segs.ds.sel, s.segs.es.sel, s.segs.fs.sel, s.segs.gs.sel]) :
      ∃ c, testData x ext s3 r = .passes c ∧
        LoadedSeg s0 ldt (s3.segs.get r).sel { sel := (s3.segs.get r).sel, cache := c } := by
    refine testData_passes (s0 := s0) (ldt := ldt) ?_ (hdata _ hr)
    rintro v rfl hn
    exact hd _ (by simp only [List.mem_cons] at hr ⊢; tauto) hn
  obtain ⟨c1, p1, l1⟩ := pass .ds (by simp [s3, Segs.get])
  obtain ⟨c2, p2, l2⟩ := pass .es (by simp [s3, Segs.get])
  obtain ⟨c3, p3, l3⟩ := pass .fs (by simp [s3, Segs.get])
  obtain ⟨c4, p4, l4⟩ := pass .gs (by simp [s3, Segs.get])
  have h4 := testDataRegs_passes (x := x) (ext := ext) (s := s3) (by
    intro r hr
    simp only [dataRegs, List.mem_cons, List.not_mem_nil, or_false] at hr
    rcases hr with rfl | rfl | rfl | rfl
    · exact ⟨c1, p1⟩
    · exact ⟨c2, p2⟩
    · exact ⟨c3, p3⟩
    · exact ⟨c4, p4⟩)
  have h4' := h4
  rw [show testDataRegs x ext s3 = runTests x ext s by simp only [runTests, h1, h2, h3, run_ok_bind, s3]] at h4'
  refine ⟨_, h4', ⟨rfl, .inr ⟨hcn, dc, hcf, rfl⟩⟩, ⟨rfl, .inr ⟨hsn, ds, hsf, rfl⟩⟩, loadedSeg_loadData p1 rfl l1,
    loadedSeg_loadData p2 rfl l2, loadedSeg_loadData p3 rfl l3, loadedSeg_loadData p4 rfl l4⟩

/-! ### The whole switch -/

/-- Steps 3 to 5 complete for a ready target, and the loaded state is `enterTask` of the image before. -/
theorem loadTask_of_ready {c : Cause} {sel : Sel} {d : Descriptor} {img : Image} {ldt : LdtReg} {retEip : Word} {s : State}
    (h : LoadReady c sel d img ldt retEip s) (hv : flagVm img.eflags = false) :
    ∃ m, loadTask c sel d retEip s = .ok (enterTask c sel d img m s) ∧
      Near (switchAddrs c sel (descBase d) retEip s) s.mem m := by
  obtain ⟨m1, h1, n1⟩ := runStores_of_flat (acc := .sysWrite) (l := outgoingStores c retEip s ++ incomingStores c sel s) h.flat
    (fun st hs => List.mem_append_left _ hs) (Near.refl _ _)
  obtain ⟨m2, h2, n2⟩ := runStores_of_flat (acc := .sysWrite) (l := backLinkStores c (descBase d) s) h.flat
    (fun st hs => List.mem_append_right _ hs) n1
  have himg : loadImage s.xlat m1 (descBase d) = some img :=
    (loadImage_congr h.flat.flat (h.flat _ n1) n1 (apart_iff.1 h.tssApart)).trans h.image
  exact ⟨m2, loadTask_ok.2 ⟨m1, img, m2, h1, himg, hv, commonMapping_of_flat (h.flat _ n1) (h.flatNew _ n1) _, h2,
    commonMapping_of_flat (h.flat _ n2) (h.flatNew _ n2) _, rfl⟩, n2⟩

/-- A task switch to a ready target completes. -/
theorem taskSwitch_of_ready {c : Cause} {sel : Sel} {d : Descriptor} {img : Image} {ldt : LdtReg} {retEip : Word} {s : State}
    (ext : Bool) (h : SwitchReady c sel d img ldt retEip s) :
    ∃ t, taskSwitch c sel ext retEip s = .ok t ∧ Switched c sel d img ldt s t ∧
      StoresOnly s.xlat .sysWrite (switchStores c sel (descBase d) retEip s) s.mem t.mem := by
  obtain ⟨m, hl, hst⟩ := loadTask_of_ready h.toLoadReady h.vmClear
  have hx' : (s.xlat.under img.pdbr).Flat m := h.flatNew _ hst
  obtain ⟨hv, hn, hti, hf, ht, hp, hb, hg, hlim⟩ := h.target
  have reads (v : Sel) (hv : v ∈ img.sels) (hn : selNull v = false) :
      lookup (s.xlat.under img.pdbr) m s.gdt ldt v = s.descIn ldt v :=
    lookup_congr h.flat.flat hx' hst (apart_iff.1 (h.descApart v hv hn))
  obtain ⟨g, hr, l1, l2, l3, l4, l5, l6⟩ :=
    runTests_passes (x := (s.xlat.under img.pdbr)) (ext := ext) (s0 := s) (s := enterTask c sel d img m s) (ldt := ldt)
      (by
        cases hnl : selNull img.ldt with
        | true => exact .inr hnl
        | false =>
          have htl : selTi img.ldt = false := by
            rcases h.ldtLoads with ⟨h0, -⟩ | ⟨-, h0, -⟩
            · rw [hnl] at h0; cases h0
            · exact h0
          refine .inl ?_
          have := reads img.ldt (by simp [Image.sels]) hnl
          exact (lookup_gdt htl).trans (this.trans (lookup_gdt htl)))
      (by
        intro v hv hn
        refine reads v ?_ hn
        simp only [enterTask_cs, enterTask_ss, enterTask_ds, enterTask_es, enterTask_fs, enterTask_gs, untested_sel] at hv
        exact List.mem_cons_of_mem _ hv)
      h.ldtLoads h.code h.stack h.data
  have htrap : ∃ b, trapBit (s.xlat.under img.pdbr) m (descBase d) = some b := by
    simp only [trapBit, linRead2, linRead1_of_flat hx']
    exact ⟨_, rfl⟩
  obtain ⟨b, hb'⟩ := htrap
  have hst' : StoresOnly s.xlat .sysWrite (switchStores c sel (descBase d) retEip s) s.mem m := loadTask_stores hl
  refine ⟨_, taskSwitch_ok.2 ⟨hv, d, locateTss_ok.2 ⟨hn, hti, hf, ht, hp, hb, hg, hlim⟩,
    pagesPresent_of_flat h.flat.flat c sel d, _, hl, _, hr, b, hb', rfl⟩, ?_, hst'⟩
  exact
    { regs := rfl, eip := rfl, eflags := rfl, cpl := rfl, cs := l1, ss := l2, ds := l3, es := l4, fs := l5, gs := l6
      ldtr := rfl, tr := rfl, cr0 := rfl, pdbr := rfl, gdt := rfl, idt := rfl
      trap := (trapBit_congr h.flat.flat hx' hst (apart_iff.1 h.tssApart)).symm.trans hb'
      cr2 := rfl, debugRegs := rfl, testRegs := rfl, extInts := rfl, choices := rfl }

end Sys2Proof.Machine
end

