-- ==== Sys2Proof/Laws/Stored.lean ====
section
/-! SUPPORT. What a store leaves where it stored: bytes written are read back, alone and across the stores of a whole task switch. -/

namespace Sys2Proof.Machine

/-! ### Values and their bytes (20 R62) -/

theorem of2_bytes2 (v : BitVec 16) : of2 (v.extractLsb' 0 8) (v.extractLsb' 8 8) = v := by
  unfold of2
  bv_normalize

theorem of4_bytes4 (v : BitVec 32) :
    of4 (v.extractLsb' 0 8) (v.extractLsb' 8 8) (v.extractLsb' 16 8) (v.extractLsb' 24 8) = v := by
  unfold of4
  bv_normalize

/-! ### Bytes that stand in memory -/

/-- A list of bytes stands at a linear address on, where addresses map to themselves. -/
def Holds (m : Memory) : Word → List Byte → Prop
  | _, [] => True
  | a, b :: bs => Memory.read m a.toNat = b ∧ Holds m (a + 1) bs

/-- Each store is in the memory after all of them, where no two have one address. -/
theorem runStores_read {x : Xlat} {acc : Access} {L l : List Store} {m0 m m' : Memory} (hx : x.FlatUnder L m0)
    (hl : ∀ st ∈ l, st ∈ L) (hm : Near (addrsOf L) m0 m) (hw : Memory.wf m = true) (hn : (addrsOf l).Nodup)
    (h : runStores x acc m l = some m') {st : Store} (hs : st ∈ l) :
    Memory.read m' st.1.toNat = st.2 (Memory.read m st.1.toNat) := by
  induction l generalizing m with
  | nil => cases hs
  | cons st' l ih =>
    obtain ⟨a, f⟩ := st'
    obtain ⟨p, hp, h⟩ := runStores_cons.1 h
    obtain rfl : a = p := by simpa [hx m hm a acc] using hp
    simp only [addrsOf, List.map_cons, List.nodup_cons] at hn
    have ha : a ∈ addrsOf L := List.mem_map_of_mem (f := (·.1)) (hl _ (List.mem_cons_self ..))
    have hl' : ∀ st ∈ l, st ∈ L := fun st h => hl st (List.mem_cons_of_mem _ h)
    have hm' : Near (addrsOf L) m0 (Memory.write m a.toNat (f (Memory.read m a.toNat))) :=
      hm.trans fun p hp => Memory.read_write_other _ _ fun e => hp (e ▸ List.mem_map_of_mem ha)
    rcases List.mem_cons.1 hs with rfl | hs
    · rw [(runStores_near hx hl' hm' h).read hn.1, Memory.read_write_same hw]
    · rw [ih hl' hm' (Memory.wf_write hw a _) hn.2 h hs, Memory.read_write_other]
      intro e
      exact hn.1 (BitVec.eq_of_toNat_eq e ▸ List.mem_map_of_mem hs)

theorem holds_of_read {m : Memory} {a : Word} {bs : List Byte}
    (h : ∀ st ∈ storeBytes a bs, ∀ b, Memory.read m st.1.toNat = st.2 b) : Holds m a bs := by
  induction bs generalizing a with
  | nil => trivial
  | cons b bs ih =>
    exact ⟨h (a, fun _ => b) (List.mem_cons_self ..) 0, ih fun st hs => h st (List.mem_cons_of_mem _ hs)⟩

theorem linRead2_of_holds {x : Xlat} {m : Memory} (hx : x.Flat m) {acc : Access} {a : Word} {v : BitVec 16}
    (h : Holds m a (bytes2 v)) : linRead2 x m acc a = some v := by
  obtain ⟨h0, h1, -⟩ := h
  simp only [linRead2, linRead1_of_flat hx, h0, h1]
  exact congrArg some (of2_bytes2 v)

theorem linRead4_of_holds {x : Xlat} {m : Memory} (hx : x.Flat m) {acc : Access} {a : Word} {v : BitVec 32}
    (h : Holds m a (bytes4 v)) : linRead4 x m acc a = some v := by
  obtain ⟨h0, h1, h2, h3, -⟩ := h
  have e2 : a + 1 + 1 = a + 2 := by rw [BitVec.add_assoc]; rfl
  have e3 : a + 1 + 1 + 1 = a + 3 := by rw [BitVec.add_assoc, BitVec.add_assoc]; rfl
  rw [e2] at h2
  rw [e3] at h3
  simp only [linRead4, linRead1_of_flat hx, h0, h1, h2, h3]
  exact congrArg some (of4_bytes4 v)

/-! ### The stores of a task switch -/

/-- The saved fields of a register or selector. -/
theorem savedFields_eflags (c : Cause) (retEip : Word) (s : State) :
    (tssEflags, bytes4 (savedFlags c s.eflags)) ∈ savedFields c retEip s := by simp [savedFields]

theorem savedFields_reg (c : Cause) (retEip : Word) (s : State) (r : Reg) :
    (tssReg r, bytes4 (s.regs.get r)) ∈ savedFields c retEip s := by cases r <;> simp [savedFields]

theorem savedFields_seg (c : Cause) (retEip : Word) (s : State) (r : SReg) :
    (tssSeg r, bytes2 (s.segs.get r).sel) ∈ savedFields c retEip s := by cases r <;> simp [savedFields]

theorem savedFields_eip (c : Cause) (retEip : Word) (s : State) : (tssEip, bytes4 retEip) ∈ savedFields c retEip s := by
  simp [savedFields]

theorem storeBytes_mem_saved {c : Cause} {retEip : Word} {s : State} {f : Word × List Byte} (hf : f ∈ savedFields c retEip s)
    {st : Store} (hs : st ∈ storeBytes (s.tr.base + f.1) f.2) : st ∈ savedStores c retEip s :=
  List.mem_flatMap.2 ⟨f, hf, hs⟩

/-- The stores of a task switch land where no two of them overlap (41 R133 to R138, R145). -/
theorem switchStores_stored {c : Cause} {sel : Sel} {d : Descriptor} {retEip : Word} {s t : State}
    (hx : s.xlat.FlatUnder (switchStores c sel (descBase d) retEip s) s.mem) (hm : Memory.wf s.mem = true)
    (hn : (switchAddrs c sel (descBase d) retEip s).Nodup)
    (hrun : runStores s.xlat .sysWrite s.mem (switchStores c sel (descBase d) retEip s) = some t.mem) :
    SwitchStored c sel d retEip s t := by
  have hx' : s.xlat.Flat t.mem := hx _ (runStores_near hx (fun _ h => h) (Near.refl _ _) hrun)
  have read {st : Store} (hs : st ∈ switchStores c sel (descBase d) retEip s) :
      Memory.read t.mem st.1.toNat = st.2 (Memory.read s.mem st.1.toNat) :=
    runStores_read hx (fun _ h => h) (Near.refl _ _) hm hn hrun hs
  have bytes {a : Word} {bs : List Byte} (hs : ∀ st ∈ storeBytes a bs, st ∈ switchStores c sel (descBase d) retEip s) :
      Holds t.mem a bs := by
    refine holds_of_read fun st hst b => ?_
    rw [read (hs st hst)]
    have const {a : Word} {bs : List Byte} {st : Store} (h : st ∈ storeBytes a bs) (b b' : Byte) : st.2 b = st.2 b' := by
      induction bs generalizing a with
      | nil => cases h
      | cons c bs ih =>
        rcases List.mem_cons.1 h with rfl | h
        · rfl
        · exact ih h
    exact const hst _ _
  have saved {f : Word × List Byte} (hf : f ∈ savedFields c retEip s) : Holds t.mem (s.tr.base + f.1) f.2 :=
    bytes fun st hst => by
      simp only [switchStores, outgoingStores, List.mem_append]
      exact .inl (.inl (.inr (storeBytes_mem_saved hf hst)))
  exact
    { eip := linRead4_of_holds hx' (saved (savedFields_eip c retEip s))
      eflags := linRead4_of_holds hx' (saved (savedFields_eflags c retEip s))
      regs := fun r => linRead4_of_holds hx' (saved (savedFields_reg c retEip s r))
      segs := fun r => linRead2_of_holds hx' (saved (savedFields_seg c retEip s r))
      outgoingBusy := fun hc => read (st := (s.busyByteAddr s.tr.sel, clearBusyBit)) (by
        simp [switchStores, outgoingStores, busyStores, lockedRmw, hc])
      incomingBusy := fun hc => read (st := (s.busyByteAddr sel, setBusyBit)) (by
        simp [switchStores, incomingStores, busyStores, lockedRmw, hc])
      backLink := fun hc => by
        have e : descBase d + tssBackLink = descBase d := BitVec.add_zero _
        have := linRead2_of_holds (acc := .sysRead) hx' (bytes (a := descBase d + tssBackLink) (bs := bytes2 s.tr.sel) fun st hst => by
          simp only [switchStores, backLinkStores, hc, if_true, List.mem_append]
          exact .inr hst)
        rwa [e] at this }

/-- What steps 3 to 5 stored is read back. -/
theorem loadTask_stored {c : Cause} {sel : Sel} {d : Descriptor} {retEip : Word} {s t : State}
    (hx : s.xlat.FlatUnder (switchStores c sel (descBase d) retEip s) s.mem) (hm : Memory.wf s.mem = true)
    (hn : (switchAddrs c sel (descBase d) retEip s).Nodup) (h : loadTask c sel d retEip s = .ok t) :
    SwitchStored c sel d retEip s t := switchStores_stored hx hm hn (loadTask_runs h)

/-- A task switch to a ready target completes, as a whole. -/
theorem taskSwitch_completes {c : Cause} {sel : Sel} {d : Descriptor} {img : Image} {ldt : LdtReg} {retEip : Word} {s : State}
    (ext : Bool) (h : SwitchReady c sel d img ldt retEip s) :
    ∃ t, taskSwitch c sel ext retEip s = .ok t ∧ SwitchCompletes c sel d img ldt retEip s t := by
  obtain ⟨t, ht, hsw, hst⟩ := taskSwitch_of_ready ext h
  refine ⟨t, ht, hsw, hst, fun hm hn => ?_⟩
  obtain ⟨-, d', hd', -, s1, hl, s2, hr, b, -, rfl⟩ := taskSwitch_ok.1 ht
  obtain rfl : d' = d := by
    have := (locateTss_ok.1 hd').2.2.1
    rw [h.target.2.2.2.1] at this
    exact (Lookup.found.inj this).symm
  have hs := loadTask_stored h.flat hm hn hl
  have hmem : s2.mem = s1.mem := (runTests_ok hr).1.mem
  have hs' : ({ s2 with debugPending := b } : State).mem = s1.mem := hmem
  exact
    { eip := hs' ▸ hs.eip, eflags := hs' ▸ hs.eflags, regs := hs' ▸ hs.regs, segs := hs' ▸ hs.segs
      outgoingBusy := hs' ▸ hs.outgoingBusy, incomingBusy := hs' ▸ hs.incomingBusy, backLink := hs' ▸ hs.backLink }

end Sys2Proof.Machine
end

