-- ==== Sys2Proof/Laws/Decode.lean ====
section
/-! SUPPORT. The decoder and the encoder, part by part: fields of a byte, immediates, displacements, operands, prefixes; and what a fetch
finds. -/

namespace Sys2Proof

/-! ### Prefixes -/

theorem prefixOfByte_byte (p : Prefix) : prefixOfByte p.byte = some p := by
  cases p with
  | segment r => cases r <;> rfl
  | opSize | addrSize | lock | repne | rep => rfl

/-- Prefix bytes before something that does not begin with one are taken, all of them. -/
theorem takePrefixes_map (pre : List Prefix) {bs : List Byte} (h : takePrefixes bs = ([], bs)) :
    takePrefixes (pre.map Prefix.byte ++ bs) = (pre, bs) := by
  induction pre with
  | nil => exact h
  | cons p ps ih => simp only [List.map_cons, List.cons_append, takePrefixes, prefixOfByte_byte, ih]

theorem takePrefixes_of_none {b : Byte} (h : prefixOfByte b = none) (bs : List Byte) :
    takePrefixes (b :: bs) = ([], b :: bs) := by simp [takePrefixes, h]

/-- No opcode is a prefix byte. -/
theorem takePrefixes_body (i : Instr) (rest : List Byte) :
    takePrefixes (encodeBody i ++ rest) = ([], encodeBody i ++ rest) := by
  cases i <;> exact takePrefixes_of_none (by decide) _

/-- After its prefixes an instruction has an opcode that is no prefix, and at most seven bytes after that. -/
theorem encodeBody_eq (i : Instr) : ∃ op tl, encodeBody i = op :: tl ∧ prefixOfByte op = none ∧ tl.length ≤ 7 := by
  cases i with
  | ltr p o => exact ⟨_, _, rfl, by decide, by have := (Laws.EncodedLength.regMem_length 3 o).2; simp only [List.length_cons]; omega⟩
  | str p o => exact ⟨_, _, rfl, by decide, by have := (Laws.EncodedLength.regMem_length 1 o).2; simp only [List.length_cons]; omega⟩
  | jmpMem p z m => exact ⟨_, _, rfl, by decide, by have := (Laws.EncodedLength.mem_length 5 m).2; omega⟩
  | callMem p z m => exact ⟨_, _, rfl, by decide, by have := (Laws.EncodedLength.mem_length 3 m).2; omega⟩
  | jmpPtr32 | jmpPtr16 | callPtr32 | callPtr16 | iret | intImm | int3 | into =>
    exact ⟨_, _, rfl, by decide, by simp [bytes4, bytes2]⟩

/-- An instruction whose bytes are a function of their offset in the code segment, modulo 2^32, is no longer than a fetch looks: its
opcode and the prefix 2^32 bytes before it would be one byte. -/
theorem length_le_fetchWindow {i : Instr} {f : Word → Byte}
    (h : ∀ (k : Nat) (b : Byte), (encode i)[k]? = some b → f (BitVec.ofNat 32 k) = b) : i.length ≤ Config.fetchWindow := by
  obtain ⟨op, tl, he, hop, htl⟩ := encodeBody_eq i
  by_contra hlt
  have hlen : i.length = i.pre.length + (tl.length + 1) := by rw [Laws.EncodedLength.length_eq, he, List.length_cons]
  obtain ⟨j, hj⟩ : ∃ j, i.pre.length = j + 4294967296 :=
    ⟨i.pre.length - 4294967296, by unfold Config.fetchWindow at hlt; omega⟩
  have hlow : j < i.pre.length := by omega
  have hO := h i.pre.length op (by simp [encode, he])
  have hP := h j i.pre[j].byte (by
    rw [encode, List.getElem?_append_left (by simpa using hlow)]
    simp [hlow])
  have hsame : BitVec.ofNat 32 j = BitVec.ofNat 32 i.pre.length := by
    apply BitVec.eq_of_toNat_eq
    simp only [BitVec.toNat_ofNat]
    omega
  rw [hsame, hO] at hP
  rw [hP, prefixOfByte_byte] at hop
  cases hop

/-! ### What a fetch finds -/

/-- Bytes that stand in the code segment from an offset on, within the limit and mapped, are what a fetch begins with. -/
theorem Machine.fetchBytes_stored (s : Machine.State) {bs : List Byte} {n : Nat} (hn : bs.length ≤ n) (off : Word)
    (h : ∀ (k : Nat) (b : Byte), bs[k]? = some b → s.segs.cs.cache.inLimit (off + BitVec.ofNat 32 k) 1 = true ∧
      ∃ p, s.xlat.phys s.mem (s.segs.cs.cache.base + (off + BitVec.ofNat 32 k)) (.fetch s.cpl) = some p ∧
        Memory.read s.mem p.toNat = b) :
    ∃ rest, (Machine.fetchBytes s n off).1 = bs ++ rest := by
  induction bs generalizing n off with
  | nil => exact ⟨_, rfl⟩
  | cons b bs ih =>
    cases n with
    | zero => simp at hn
    | succ n =>
      obtain ⟨hl, p, hp, hb⟩ := h 0 b rfl
      simp only [BitVec.add_zero] at hl hp
      obtain ⟨rest, hr⟩ := ih (n := n) (by simpa using hn) (off + 1) fun k c hc => by
        have := h (k + 1) c (by simpa using hc)
        rwa [show off + BitVec.ofNat 32 (k + 1) = off + 1 + BitVec.ofNat 32 k by
          rw [BitVec.add_assoc, Nat.add_comm, BitVec.ofNat_add]; rfl] at this
      exact ⟨rest, by simp only [Machine.fetchBytes, hl, hp, hb, hr, if_true, List.cons_append]⟩

/-! ### Fields and numbers -/

@[simp] theorem modOf_packByte (a : BitVec 2) (b c : BitVec 3) : modOf (packByte a b c) = a := by
  unfold modOf packByte
  bv_normalize

@[simp] theorem regOf_packByte (a : BitVec 2) (b c : BitVec 3) : regOf (packByte a b c) = b := by
  unfold regOf packByte
  bv_normalize

@[simp] theorem rmOf_packByte (a : BitVec 2) (b c : BitVec 3) : rmOf (packByte a b c) = c := by
  unfold rmOf packByte
  bv_normalize

@[simp] theorem packByte_fields (b : Byte) : packByte (modOf b) (regOf b) (rmOf b) = b := by
  unfold packByte modOf regOf rmOf
  bv_normalize

@[simp] theorem regOfNum_num (r : Reg) : regOfNum r.num = r := by cases r <;> rfl
@[simp] theorem num_regOfNum (n : BitVec 3) : (regOfNum n).num = n := by revert n; decide
@[simp] theorem base16OfNum_num (b : Base16) : base16OfNum b.num = b := by cases b <;> rfl
@[simp] theorem num_base16OfNum (n : BitVec 3) : (base16OfNum n).num = n := by revert n; decide
@[simp] theorem indexNum_indexOfNum (n : BitVec 3) : indexNum (indexOfNum n) = n := by revert n; decide
theorem indexOfNum_ne_esp (n : BitVec 3) : indexOfNum n ≠ some .esp := by revert n; decide

theorem indexOfNum_num {i : Option Reg} (h : i ≠ some .esp) : indexOfNum (indexNum i) = i := by
  cases i with
  | none => rfl
  | some r => cases r <;> first | rfl | exact absurd rfl h

theorem num_eq_four {r : Reg} : r.num = 4#3 ↔ r = .esp := by cases r <;> decide
theorem num_eq_five {r : Reg} : r.num = 5#3 ↔ r = .ebp := by cases r <;> decide
theorem num_eq_six {b : Base16} : b.num = 6#3 ↔ b = .bp := by cases b <;> decide

/-! ### Immediates and displacements -/

@[simp] theorem take2_bytes2 (v : BitVec 16) (rest : List Byte) : take2 (bytes2 v ++ rest) = some (v, rest) := by
  simp only [bytes2, List.cons_append, List.nil_append, take2, Machine.of2_bytes2]

@[simp] theorem take4_bytes4 (v : BitVec 32) (rest : List Byte) : take4 (bytes4 v ++ rest) = some (v, rest) := by
  simp only [bytes4, List.cons_append, List.nil_append, take4, Machine.of4_bytes4]

theorem mod32_eq_zero {d : Disp32} : d.mod = 0#2 ↔ d = .none := by cases d <;> simp [Disp32.mod]
theorem mod16_eq_zero {d : Disp16} : d.mod = 0#2 ↔ d = .none := by cases d <;> simp [Disp16.mod]
theorem mod32_ne_three (d : Disp32) : d.mod ≠ 3#2 := by cases d <;> simp [Disp32.mod]
theorem mod16_ne_three (d : Disp16) : d.mod ≠ 3#2 := by cases d <;> simp [Disp16.mod]

@[simp] theorem takeDisp32_bytes (d : Disp32) (rest : List Byte) : takeDisp32 d.mod (d.bytes ++ rest) = some (d, rest) := by
  cases d <;> simp [takeDisp32, Disp32.mod, Disp32.bytes, take1]

@[simp] theorem takeDisp16_bytes (d : Disp16) (rest : List Byte) : takeDisp16 d.mod (d.bytes ++ rest) = some (d, rest) := by
  cases d <;> simp [takeDisp16, Disp16.mod, Disp16.bytes, take1]

/-! ### Operands -/

/-- A well-formed memory operand is read back from its bytes; its ModRM byte has the extension `n` and names no register. -/
theorem takeMem_bytes {a32 : Bool} (n : BitVec 3) {m : Mem} (rest : List Byte) (h : m.wf a32 = true) :
    ∃ b bs, m.bytes n = b :: bs ∧ regOf b = n ∧ modOf b ≠ 3#2 ∧ takeMem a32 b (bs ++ rest) = some (m, rest) := by
  cases m with
  | a32 a =>
    simp only [Mem.wf, Bool.and_eq_true] at h
    obtain ⟨rfl, h⟩ := h
    cases a with
    | direct d => exact ⟨_, _, rfl, by simp, by simp, by simp [takeMem, takeAddr32]⟩
    | base b d =>
      simp only [Addr32.wf, Bool.and_eq_true, bne_iff_ne, Bool.not_eq_true', Bool.and_eq_false_iff, beq_eq_false_iff_ne] at h
      have h5 : ¬(b.num = 5#3 ∧ d.mod = 0#2) := by
        rw [num_eq_five, mod32_eq_zero]
        tauto
      have h4 : b.num ≠ 4#3 := fun e => h.1 (num_eq_four.1 e)
      exact ⟨_, _, rfl, by simp, by simpa using mod32_ne_three d, by simp [takeMem, takeAddr32, h4, h5]⟩
    | sib b i sc d =>
      simp only [Addr32.wf, Bool.and_eq_true, bne_iff_ne, Bool.not_eq_true', Bool.and_eq_false_iff, beq_eq_false_iff_ne] at h
      have h5 : ¬(b.num = 5#3 ∧ d.mod = 0#2) := by
        rw [num_eq_five, mod32_eq_zero]
        tauto
      exact ⟨_, _, rfl, by simp, by simpa using mod32_ne_three d, by
        simp [takeMem, takeAddr32, takeSib, h5, indexOfNum_num h.1]⟩
    | sibDirect i sc d =>
      simp only [Addr32.wf, bne_iff_ne] at h
      exact ⟨_, _, rfl, by simp, by simp, by simp [takeMem, takeAddr32, takeSib, indexOfNum_num h]⟩
  | a16 a =>
    simp only [Mem.wf, Bool.and_eq_true, Bool.not_eq_true'] at h
    obtain ⟨rfl, h⟩ := h
    cases a with
    | direct d => exact ⟨_, _, rfl, by simp, by simp, by simp [takeMem, takeAddr16]⟩
    | base b d =>
      simp only [Addr16.wf, Bool.not_eq_true', Bool.and_eq_false_iff, beq_eq_false_iff_ne] at h
      have h6 : ¬(b.num = 6#3 ∧ d.mod = 0#2) := by
        rw [num_eq_six, mod16_eq_zero]
        tauto
      exact ⟨_, _, rfl, by simp, by simpa using mod16_ne_three d, by simp [takeMem, takeAddr16, h6]⟩

/-- The operand of LTR and STR is read back from its bytes. -/
theorem takeRegMem_bytes {a32 : Bool} (n : BitVec 3) {o : RegMem} (rest : List Byte) (h : o.wf a32 = true) :
    ∃ b bs, o.bytes n = b :: bs ∧ regOf b = n ∧ takeRegMem a32 b (bs ++ rest) = some (o, rest) := by
  cases o with
  | reg r => exact ⟨_, _, rfl, by simp, by simp [takeRegMem]⟩
  | mem m =>
    obtain ⟨b, bs, hb, hr, hm, ht⟩ := takeMem_bytes n rest h
    exact ⟨b, bs, hb, hr, by simp [takeRegMem, hm, ht]⟩

end Sys2Proof
end

