-- ==== Sys2Proof/Laws/Raises.lean ====
section
/-! SUPPORT. How the parts of a task switch stop: which exceptions they raise, in which context, and in which state. -/

namespace Sys2Proof.Machine

/-! ### Sequencing -/

/-- A sequence stops where its first stopping part does. -/
theorem run_bind_error {α β : Type} {x : Run α} {f : α → Run β} {e : Stop} :
    (x >>= f) = .error e ↔ x = .error e ∨ ∃ a, x = .ok a ∧ f a = .error e := by
  cases x <;> simp [bind, Except.bind]

theorem orElse_error {c : Bool} {st e : Stop} : orElse c st = .error e ↔ c = false ∧ e = st := by
  cases c <;> simp [orElse, eq_comm]

theorem orPartWay_error {α : Type} {o : Option α} {e : Stop} :
    orPartWay o = .error e ↔ o = none ∧ e = .refused .pageFaultPartWay := by
  cases o <;> simp [orPartWay, eq_comm]

theorem orPageFault_error {α : Type} {ctx : Context} {s : State} {o : Option α} {e : Stop} :
    orPageFault ctx s o = .error e ↔ o = none ∧ e = pageFaultIn ctx s := by
  cases o <;> simp [orPageFault, eq_comm]

/-! ### Steps 1 and 2: nothing has changed (41 R132) -/

/-- A state in which only the count of free values may have moved (log 7). -/
def SameButChoices (s t : State) : Prop := t = { s with choices := t.choices }

theorem sameButChoices_refl (s : State) : SameButChoices s s := rfl

/-- An exception raised by locating the incoming descriptor or by the page check leaves the state as it was. -/
def RaisedBefore (ctx : Context) (s : State) (e : Stop) : Prop :=
  ∀ r t, e = .raised r t → r.ctx = ctx ∧ SameButChoices s t

theorem raisedBefore_raising (x : Exc) (code : BitVec 16) (ctx : Context) (s : State) :
    RaisedBefore ctx s (raising x code ctx s) := by
  rintro r t h
  cases h
  exact ⟨rfl, rfl⟩

theorem raisedBefore_pageFaultIn (ctx : Context) (s : State) : RaisedBefore ctx s (pageFaultIn ctx s) := by
  rintro r t h
  cases h
  exact ⟨rfl, rfl⟩

theorem raisedBefore_refused (ctx : Context) (s : State) (x : Refusal) : RaisedBefore ctx s (.refused x) := by
  rintro r t h
  cases h

theorem locateTss_error {c : Cause} {sel : Sel} {ext : Bool} {s : State} {e : Stop} (h : locateTss c sel ext s = .error e) :
    RaisedBefore .outgoing s e := by
  simp only [locateTss, run_bind_error, orElse_error] at h
  rcases h with ⟨-, rfl⟩ | ⟨-, -, h⟩
  · exact raisedBefore_raising _ _ _ _
  · split at h
    · cases h
      exact raisedBefore_raising _ _ _ _
    · cases h
      exact raisedBefore_pageFaultIn _ _
    · simp only [run_bind_error, orElse_error, run_pure, reduceCtorEq, and_false, exists_const, or_false] at h
      rcases h with ⟨-, rfl⟩ | ⟨-, -, ⟨-, rfl⟩ | ⟨-, -, ⟨-, rfl⟩ | ⟨-, -, ⟨-, rfl⟩ | ⟨-, -, ⟨-, rfl⟩ | ⟨-, -, -, rfl⟩⟩⟩⟩⟩ <;>
        first | exact raisedBefore_raising _ _ _ _ | exact raisedBefore_refused _ _ _

theorem pagesPresent_error {c : Cause} {s : State} {sel : Sel} {d : Descriptor} {e : Stop} (h : pagesPresent c s sel d = .error e) :
    RaisedBefore .outgoing s e := by
  unfold pagesPresent at h
  split at h
  · simp only [run_bind_error, orElse_error] at h
    rcases h with ⟨-, rfl⟩ | ⟨-, -, ⟨-, rfl⟩ | ⟨-, -, ⟨-, rfl⟩ | ⟨-, -, -, rfl⟩⟩⟩
    · exact raisedBefore_pageFaultIn _ _
    all_goals exact raisedBefore_refused _ _ _
  · cases h

/-! ### Steps 3 to 5: no exception before the tests -/

theorem loadTask_error {c : Cause} {sel : Sel} {d : Descriptor} {retEip : Word} {s : State} {e : Stop}
    (h : loadTask c sel d retEip s = .error e) : ∃ x, e = .refused x := by
  simp only [loadTask, run_bind_error, orPartWay_error, orElse_error, run_pure, reduceCtorEq, and_false, exists_const,
    or_false] at h
  rcases h with ⟨-, rfl⟩ | ⟨_, -, ⟨-, rfl⟩ | ⟨_, -, ⟨-, rfl⟩ | ⟨_, -, ⟨-, rfl⟩ | ⟨_, -, ⟨-, rfl⟩ | ⟨_, -, -, rfl⟩⟩⟩⟩⟩ <;>
    exact ⟨_, rfl⟩

/-! ### Tests 4 to 16: the incoming context (41 R149) -/

/-- Apart from the invisible parts of the LDT register and of the segment registers, and the count of free values, two states agree. -/
structure SameVisible (s t : State) : Prop where
  regs : t.regs = s.regs
  eip : t.eip = s.eip
  eflags : t.eflags = s.eflags
  cpl : t.cpl = s.cpl
  sels : ∀ r, (t.segs.get r).sel = (s.segs.get r).sel
  cr0 : t.cr0 = s.cr0
  pdbr : t.pdbr = s.pdbr
  cr2 : t.cr2 = s.cr2
  debugRegs : t.debugRegs = s.debugRegs
  testRegs : t.testRegs = s.testRegs
  gdt : t.gdt = s.gdt
  idt : t.idt = s.idt
  ldtSel : t.ldtr.sel = s.ldtr.sel
  tr : t.tr = s.tr
  mem : t.mem = s.mem
  extInts : t.extInts = s.extInts

theorem SameVisible.refl (s : State) : SameVisible s s := by constructor <;> intros <;> rfl

theorem SameVisible.trans {s t u : State} (h : SameVisible s t) (h' : SameVisible t u) : SameVisible s u :=
  ⟨h'.regs.trans h.regs, h'.eip.trans h.eip, h'.eflags.trans h.eflags, h'.cpl.trans h.cpl,
    fun r => (h'.sels r).trans (h.sels r), h'.cr0.trans h.cr0, h'.pdbr.trans h.pdbr, h'.cr2.trans h.cr2, h'.debugRegs.trans h.debugRegs,
    h'.testRegs.trans h.testRegs, h'.gdt.trans h.gdt,
    h'.idt.trans h.idt, h'.ldtSel.trans h.ldtSel, h'.tr.trans h.tr, h'.mem.trans h.mem, h'.extInts.trans h.extInts⟩

theorem testLdt_visible {x : Xlat} {ext : Bool} {s t : State} (h : testLdt x ext s = .ok t) : SameVisible s t := by
  obtain ⟨l, rfl, hl, -⟩ := testLdt_ok h
  exact { SameVisible.refl s with ldtSel := hl }

theorem testCs_visible {x : Xlat} {ext : Bool} {s t : State} (h : testCs x ext s = .ok t) : SameVisible s t := by
  obtain ⟨d, -, -, -, -, -, rfl⟩ := testCs_ok h
  exact { SameVisible.refl s with sels := fun r => by cases r <;> rfl }

theorem testSs_visible {x : Xlat} {ext : Bool} {s t : State} (h : testSs x ext s = .ok t) : SameVisible s t := by
  obtain ⟨d, -, -, -, -, -, -, rfl⟩ := testSs_ok h
  exact { SameVisible.refl s with sels := fun r => by cases r <;> rfl }

/-- The exceptions of tests 4 to 16 (41 R148). -/
def IncomingRaise (r : Raise) : Prop := r.ctx = .incoming ∧ r.exc ∈ [.ts, .np, .gp, .sf]

theorem testLdt_raised {x : Xlat} {ext : Bool} {s t : State} {r : Raise} (h : testLdt x ext s = .error (.raised r t)) :
    IncomingRaise r ∧ t = s := by
  simp only [testLdt, Config.nullSelOk, if_true] at h
  split at h
  · cases h
  · split at h
    · cases h
      exact ⟨⟨rfl, by simp⟩, rfl⟩
    · split at h
      · cases h
        exact ⟨⟨rfl, by simp⟩, rfl⟩
      · cases h
      · simp only [run_bind_error, orElse_error, run_pure, reduceCtorEq, and_false, exists_const, or_false] at h
        rcases h with ⟨-, h⟩ | ⟨-, -, -, h⟩ <;> cases h <;> exact ⟨⟨rfl, by simp⟩, rfl⟩

theorem testCs_raised {x : Xlat} {ext : Bool} {s t : State} {r : Raise} (h : testCs x ext s = .error (.raised r t)) :
    IncomingRaise r ∧ t = s := by
  simp only [testCs] at h
  split at h
  · cases h
    exact ⟨⟨rfl, by simp⟩, rfl⟩
  · split at h
    · cases h
      exact ⟨⟨rfl, by simp⟩, rfl⟩
    · cases h
    · simp only [run_bind_error, orElse_error, run_pure, reduceCtorEq, and_false, exists_const, or_false] at h
      rcases h with ⟨-, h⟩ | ⟨-, -, ⟨-, h⟩ | ⟨-, -, -, h⟩⟩ <;> cases h <;> exact ⟨⟨rfl, by simp⟩, rfl⟩

theorem testSs_raised {x : Xlat} {ext : Bool} {s t : State} {r : Raise} (h : testSs x ext s = .error (.raised r t)) :
    IncomingRaise r ∧ t = s := by
  simp only [testSs] at h
  split at h
  · cases h
    exact ⟨⟨rfl, by simp⟩, rfl⟩
  · split at h
    · cases h
      exact ⟨⟨rfl, by simp⟩, rfl⟩
    · cases h
    · simp only [run_bind_error, orElse_error, run_pure, reduceCtorEq, and_false, exists_const, or_false] at h
      rcases h with ⟨-, h⟩ | ⟨-, -, ⟨-, h⟩ | ⟨-, -, ⟨-, h⟩ | ⟨-, -, -, h⟩⟩⟩ <;> cases h <;> exact ⟨⟨rfl, by simp⟩, rfl⟩

/-- A failed test of a data segment register. -/
theorem testData_fails {x : Xlat} {ext : Bool} {s : State} {g : SReg} {r : Raise} (h : testData x ext s g = .fails r) :
    IncomingRaise r := by
  simp only [testData] at h
  repeat' split at h
  all_goals first
    | (cases h; exact ⟨rfl, by simp⟩)
    | cases h

theorem dataFailures_incoming {x : Xlat} {ext : Bool} {s : State} {r : Raise} (h : r ∈ dataFailures x ext s) :
    IncomingRaise r := by
  simp only [dataFailures, List.mem_filterMap] at h
  obtain ⟨g, -, hg⟩ := h
  split at hg
  · rename_i e he
    cases hg
    exact testData_fails he
  · cases hg
  · cases hg

/-- The exception reported for DS, ES, FS and GS is one of the candidates (41 R155). -/
theorem testDataRegs_raised {x : Xlat} {ext : Bool} {s t : State} {r : Raise} (h : testDataRegs x ext s = .error (.raised r t)) :
    r ∈ dataFailures x ext s ∧ SameButChoices s t := by
  simp only [testDataRegs] at h
  split at h
  · cases h
  · split at h
    · cases h
    · rename_i r' hf
      cases h
      exact ⟨by rw [hf]; exact List.mem_singleton.2 rfl, rfl⟩
    · rename_i r' rs _ hf
      cases h
      refine ⟨?_, rfl⟩
      rw [hf]
      have hlt : Config.segFaultChoice s.choices % (r' :: rs).length < (r' :: rs).length :=
        Nat.mod_lt _ (by simp)
      rw [List.getD_eq_getElem _ _ hlt]
      exact List.getElem_mem hlt

/-- An exception of tests 4 to 16 is in the incoming context, and every visible register is as loaded. -/
theorem runTests_raised {x : Xlat} {ext : Bool} {s t : State} {r : Raise} (h : runTests x ext s = .error (.raised r t)) :
    IncomingRaise r ∧ SameVisible s t := by
  simp only [runTests, run_bind_error] at h
  rcases h with h | ⟨s1, h1, h | ⟨s2, h2, h | ⟨s3, h3, h⟩⟩⟩
  · obtain ⟨hr, rfl⟩ := testLdt_raised h
    exact ⟨hr, .refl _⟩
  · obtain ⟨hr, rfl⟩ := testCs_raised h
    exact ⟨hr, testLdt_visible h1⟩
  · obtain ⟨hr, rfl⟩ := testSs_raised h
    exact ⟨hr, (testLdt_visible h1).trans (testCs_visible h2)⟩
  · obtain ⟨hr, ht⟩ := testDataRegs_raised h
    refine ⟨dataFailures_incoming hr, ((testLdt_visible h1).trans (testCs_visible h2)).trans ((testSs_visible h3).trans ?_)⟩
    rw [ht]
    constructor <;> intros <;> rfl

/-! ### The whole switch -/

/-- A task switch that raises an exception does so before it changed anything, or in its tests 4 to 16 after it loaded the task. -/
theorem taskSwitch_raised {c : Cause} {sel : Sel} {ext : Bool} {retEip : Word} {s t : State} {r : Raise}
    (h : taskSwitch c sel ext retEip s = .error (.raised r t)) :
    (r.ctx = .outgoing ∧ SameButChoices s t) ∨
      ∃ d s1, locateTss c sel ext s = .ok d ∧ loadTask c sel d retEip s = .ok s1 ∧ IncomingRaise r ∧ SameVisible s1 t := by
  simp only [taskSwitch, run_bind_error, orElse_error, orPartWay_error, run_pure, reduceCtorEq, and_false, exists_const,
    or_false] at h
  rcases h with h | ⟨_, _, h | ⟨d, hd, h | ⟨_, _, h | ⟨s1, h1, h | ⟨_, h⟩⟩⟩⟩⟩
  · exact h.elim
  · exact .inl (locateTss_error h r t rfl)
  · exact .inl (pagesPresent_error h r t rfl)
  · obtain ⟨x, hx⟩ := loadTask_error h
    cases hx
  · exact .inr ⟨d, s1, hd, h1, runTests_raised h⟩
  · exact h.elim

end Sys2Proof.Machine
end

