-- ==== Sys2Proof/Laws/Tasks.lean ====
section
/-! SUPPORT. What an operation that stores into the task structures leaves of them (70 R234): descriptors but for their busy bits, the TSSs it
does not write, the chains of back-links. -/

namespace Sys2Proof.Machine

/-! ### Stores that change no translation -/

/-- Stores made one after another under a fixed translation: every address is mapped, and the physical bytes are those of the start. -/
theorem runStores_kept {x : Xlat} {acc : Access} {m0 : Memory} {P : List Nat}
    (hk : ∀ m', (∀ p, p ∉ P → Memory.read m' p = Memory.read m0 p) → ∀ a, x.phys m' a acc = x.phys m0 a acc)
    {l : List Store} {m m' : Memory} (hP : ∀ p ∈ physStores x acc m l, p ∈ P)
    (hm : ∀ p, p ∉ P → Memory.read m p = Memory.read m0 p) (h : runStores x acc m l = some m') :
    (∀ st ∈ l, ∃ p, x.phys m0 st.1 acc = some p) ∧
      physStores x acc m l = l.map fun st => ((x.phys m0 st.1 acc).getD 0).toNat := by
  induction l generalizing m with
  | nil => exact ⟨fun _ h => (List.not_mem_nil h).elim, rfl⟩
  | cons st l ih =>
    obtain ⟨a, f⟩ := st
    obtain ⟨p, hp, h⟩ := runStores_cons.1 h
    rw [physStores_cons hp] at hP ⊢
    have hp0 : x.phys m0 a acc = some p := (hk m hm a).symm.trans hp
    obtain ⟨h1, h2⟩ := ih (fun q hq => hP q (List.mem_cons_of_mem _ hq)) (fun q hq => by
      rw [Memory.read_write_other]
      · exact hm q hq
      · rintro rfl; exact hq (hP _ (List.mem_cons_self ..))) h
    refine ⟨fun st hst => ?_, by rw [List.map_cons, h2, hp0]; rfl⟩
    rcases List.mem_cons.1 hst with rfl | hst
    · exact ⟨p, hp0⟩
    · exact h1 st hst

/-- Each store lands where no two of them share a physical byte. -/
theorem runStores_lands {x : Xlat} {acc : Access} {l : List Store} {m m' : Memory} (hw : Memory.wf m = true)
    (hn : (physStores x acc m l).Nodup) (h : runStores x acc m l = some m') {f : Byte → Byte} {p : Nat}
    (hf : (p, f) ∈ (physStores x acc m l).zip (l.map (·.2))) : Memory.read m' p = f (Memory.read m p) := by
  induction l generalizing m with
  | nil => cases hf
  | cons st l ih =>
    obtain ⟨a, g⟩ := st
    obtain ⟨q, hq, h⟩ := runStores_cons.1 h
    rw [physStores_cons hq] at hn hf
    obtain ⟨hn1, hn2⟩ := List.nodup_cons.1 hn
    rw [List.map_cons, List.zip_cons_cons] at hf
    rcases List.mem_cons.1 hf with hf | hf
    · cases hf
      rw [(runStores_ok h).2 _ hn1]
      exact Memory.read_write_same hw _ _
    · rw [ih (Memory.wf_write hw q _) hn2 h hf, Memory.read_write_other]
      rintro rfl
      exact hn1 (List.of_mem_zip hf).1

/-! ### The fields of a descriptor but for its access byte -/

theorem accessByte_bytes (b0 b1 b2 b3 b4 b5 b6 b7 : Byte) : accessByte (of4 b4 b5 b6 b7 ++ of4 b0 b1 b2 b3) = b5 := by
  ext i hi
  simp only [accessByte, of4, BitVec.getElem_extractLsb', BitVec.getLsbD_append]
  simp [show ¬40 + i < 32 by omega, show ¬(40 + i - 32 < 8) by omega, show 40 + i - 32 - 8 = i by omega, hi]

theorem getLsbD_bytes (b0 b1 b2 b3 b4 b5 b5' b6 b7 : Byte) (i : Nat) (h : i < 40 ∨ 48 ≤ i) :
    (of4 b4 b5' b6 b7 ++ of4 b0 b1 b2 b3).getLsbD i = (of4 b4 b5 b6 b7 ++ of4 b0 b1 b2 b3).getLsbD i := by
  simp only [of4, BitVec.getLsbD_append]
  repeat' split
  all_goals first | rfl | omega

theorem fields_of_bits {d d' : Descriptor} (h : ∀ i, i < 40 ∨ 48 ≤ i → d'.getLsbD i = d.getLsbD i) :
    descBase d' = descBase d ∧ effectiveLimit d' = effectiveLimit d := by
  have e (k n : Nat) (hk : k + n ≤ 40 ∨ 48 ≤ k) : d'.extractLsb' k n = d.extractLsb' k n := by
    ext i hi
    simp only [BitVec.getElem_extractLsb']
    exact h _ (by omega)
  have hg : descG d' = descG d := h 55 (by omega)
  have hr : rawLimit d' = rawLimit d := by rw [rawLimit, rawLimit, e 48 4 (by omega), e 0 16 (by omega)]
  exact ⟨by rw [descBase, descBase, e 56 8 (by omega), e 16 24 (by omega)], by rw [effectiveLimit, effectiveLimit, hg, hr]⟩

/-- What a task switch and LTR do to a byte 5: nothing, set the busy bit, clear it. -/
def BusyFn (f : Byte → Byte) : Prop := f = id ∨ f = setBusyBit ∨ f = clearBusyBit

/-- Two descriptors that differ in the busy bit at most, the second being what `f` makes of the first. -/
structure SameTss (f : Byte → Byte) (d d' : Descriptor) : Prop where
  tss : isTss d' = isTss d
  base : descBase d' = descBase d
  limit : effectiveLimit d' = effectiveLimit d
  present : descPresent d' = descPresent d
  kept : f = id → isBusy d' = isBusy d
  set : f = setBusyBit → isTss d = true → isBusy d' = true
  cleared : f = clearBusyBit → isBusy d' = false

/-- The types of a TSS descriptor, bit by bit. -/
theorem tssType_bits (t : BitVec 4) : (t == 9#4 || t == 11#4) = (t.getLsbD 0 && !t.getLsbD 2 && t.getLsbD 3) ∧
    (t == 11#4) = (t.getLsbD 0 && t.getLsbD 1 && !t.getLsbD 2 && t.getLsbD 3) := by
  revert t
  decide

theorem isTss_bits (d : Descriptor) : isTss d =
    (!(accessByte d).getLsbD 4 && ((accessByte d).getLsbD 0 && !(accessByte d).getLsbD 2 && (accessByte d).getLsbD 3)) := by
  rw [isTss, (tssType_bits _).1]
  simp [descS, descType]

theorem isBusy_bits (d : Descriptor) : isBusy d =
    ((accessByte d).getLsbD 0 && (accessByte d).getLsbD 1 && !(accessByte d).getLsbD 2 && (accessByte d).getLsbD 3) := by
  rw [isBusy, (tssType_bits _).2]
  simp [descType]

theorem busyFn_bits {f : Byte → Byte} (hf : BusyFn f) (b : Byte) {k : Nat} (hk : k < 8) (h1 : k ≠ 1) : (f b).getLsbD k = b.getLsbD k := by
  rcases hf with rfl | rfl | rfl
  · rfl
  · have : (0x02#8).getLsbD k = false := by interval_cases k <;> first | rfl | exact absurd rfl h1
    simp [setBusyBit, this]
  · have : (0xFD#8).getLsbD k = true := by interval_cases k <;> first | rfl | exact absurd rfl h1
    simp [clearBusyBit, this]

theorem sameTss_bytes {f : Byte → Byte} (hf : BusyFn f) (b0 b1 b2 b3 b4 b5 b6 b7 : Byte) :
    SameTss f (of4 b4 b5 b6 b7 ++ of4 b0 b1 b2 b3) (of4 b4 (f b5) b6 b7 ++ of4 b0 b1 b2 b3) := by
  obtain ⟨h1, h2⟩ := fields_of_bits (getLsbD_bytes b0 b1 b2 b3 b4 b5 (f b5) b6 b7)
  have bit {k : Nat} (hk : k < 8) (h1 : k ≠ 1) := busyFn_bits hf b5 hk h1
  have a' := accessByte_bytes b0 b1 b2 b3 b4 (f b5) b6 b7
  have a := accessByte_bytes b0 b1 b2 b3 b4 b5 b6 b7
  refine ⟨?_, h1, h2, ?_, ?_, ?_, ?_⟩
  · rw [isTss_bits, isTss_bits, a, a', bit (k := 4) (by omega) (by omega), bit (k := 0) (by omega) (by omega),
      bit (k := 2) (by omega) (by omega), bit (k := 3) (by omega) (by omega)]
  · rw [descPresent, descPresent, a, a', bit (by omega) (by omega)]
  · rintro rfl; rfl
  · rintro rfl ht
    rw [isTss_bits, a] at ht
    rw [isBusy_bits, a', bit (k := 0) (by omega) (by omega), bit (k := 2) (by omega) (by omega), bit (k := 3) (by omega) (by omega)]
    simp_all [setBusyBit]
  · rintro rfl
    rw [isBusy_bits, a']
    simp [clearBusyBit]

/-! ### Addresses of the structures -/

theorem mem_region {base a : Word} {n : Nat} : a ∈ region base n ↔ ∃ k < n, a = base + BitVec.ofNat 32 k := by
  simp [region, eq_comm]

theorem region_eq_mem_span {base a : Word} {n : Nat} : a ∈ region base n ↔ a ∈ span base n := mem_region.trans mem_span.symm

theorem span_mono {b x : Word} {n m : Nat} (h : x ∈ span b n) (hn : n ≤ m) : x ∈ span b m := by
  obtain ⟨k, hk, rfl⟩ := mem_span.1 h
  exact mem_span.2 ⟨k, by omega, rfl⟩

theorem State.TaskAt.inStructure {s : State} {v : Sel} {d : Descriptor} (h : s.TaskAt v d) {a : Word}
    (ha : a ∈ span (descBase d) 0x68) : s.InStructure a := by
  refine .inr ⟨v, d, h, ?_⟩
  rw [tssRegion, region_eq_mem_span]
  exact span_mono ha (Nat.le_max_left ..)

theorem gdtOffset_toNat (i : BitVec 13) : (i.setWidth 32 * 8#32).toNat = i.toNat * 8 := by
  have := i.isLt
  simp only [BitVec.toNat_mul, BitVec.toNat_setWidth, BitVec.toNat_ofNat]
  omega

/-- Byte `k` of GDT entry `i`. -/
def State.gdtByte (s : State) (i : BitVec 13) (k : Nat) : Word := s.gdt.base + i.setWidth 32 * 8#32 + BitVec.ofNat 32 k

theorem gdtByte_mem {s : State} {i : BitVec 13} {k : Nat} (hi : i.toNat * 8 + 7 ≤ s.gdt.limit.toNat) (hk : k < 8) :
    s.gdtByte i k ∈ span s.gdt.base (s.gdt.limit.toNat + 1) := by
  refine mem_span.2 ⟨i.toNat * 8 + k, by omega, ?_⟩
  rw [State.gdtByte, BitVec.add_assoc]
  congr 1
  apply BitVec.eq_of_toNat_eq
  rw [BitVec.toNat_add, gdtOffset_toNat]
  simp only [BitVec.toNat_ofNat]
  omega

theorem gdtByte_inj {s : State} {i j : BitVec 13} {k l : Nat} (hk : k < 8) (hl : l < 8) (e : s.gdtByte i k = s.gdtByte j l) :
    i = j ∧ k = l := by
  rw [State.gdtByte, State.gdtByte, BitVec.add_assoc, BitVec.add_assoc] at e
  have := congrArg BitVec.toNat ((BitVec.add_right_inj _).1 e)
  rw [BitVec.toNat_add, BitVec.toNat_add, gdtOffset_toNat, gdtOffset_toNat] at this
  have h1 := i.isLt
  have h2 := j.isLt
  simp only [BitVec.toNat_ofNat] at this
  exact ⟨BitVec.eq_of_toNat_eq (by omega), by omega⟩

theorem gdtByte_inStructure {s : State} {i : BitVec 13} {k : Nat} (hi : i.toNat * 8 + 7 ≤ s.gdt.limit.toNat) (hk : k < 8) :
    s.InStructure (s.gdtByte i k) := .inl (region_eq_mem_span.2 (gdtByte_mem hi hk))

/-- The eight bytes of a descriptor that a read of it found. -/
theorem linRead8_bytes {x : Xlat} {m : Memory} {acc : Access} {a : Word} {d : Descriptor} :
    linRead8 x m acc a = some d ↔ ∃ b0 b1 b2 b3 b4 b5 b6 b7, linRead1 x m acc a = some b0 ∧ linRead1 x m acc (a + 1) = some b1 ∧
      linRead1 x m acc (a + 2) = some b2 ∧ linRead1 x m acc (a + 3) = some b3 ∧ linRead1 x m acc (a + 4) = some b4 ∧
      linRead1 x m acc (a + 5) = some b5 ∧ linRead1 x m acc (a + 6) = some b6 ∧ linRead1 x m acc (a + 7) = some b7 ∧
      d = of4 b4 b5 b6 b7 ++ of4 b0 b1 b2 b3 := by
  have e5 : a + 4 + 1 = a + 5 := by rw [BitVec.add_assoc]; rfl
  have e6 : a + 4 + 2 = a + 6 := by rw [BitVec.add_assoc]; rfl
  have e7 : a + 4 + 3 = a + 7 := by rw [BitVec.add_assoc]; rfl
  simp only [linRead8, linRead4, e5, e6, e7, bind, Option.bind_eq_some_iff, pure, Option.some.injEq, eq_comm (a := d)]
  constructor
  · rintro ⟨_, ⟨b0, h0, b1, h1, b2, h2, b3, h3, rfl⟩, _, ⟨b4, h4, b5, h5, b6, h6, b7, h7, rfl⟩, rfl⟩
    exact ⟨b0, b1, b2, b3, b4, b5, b6, b7, h0, h1, h2, h3, h4, h5, h6, h7, rfl⟩
  · rintro ⟨b0, b1, b2, b3, b4, b5, b6, b7, h0, h1, h2, h3, h4, h5, h6, h7, rfl⟩
    exact ⟨_, ⟨b0, h0, b1, h1, b2, h2, b3, h3, rfl⟩, _, ⟨b4, h4, b5, h5, b6, h6, b7, h7, rfl⟩, rfl⟩

/-- A descriptor of the GDT is found exactly where its entry lies within the limit and its bytes can be read. -/
theorem desc_found {s : State} {v : Sel} {d : Descriptor} (ht : selTi v = false) :
    s.desc v = .found d ↔ (selIndex v).toNat * 8 + 7 ≤ s.gdt.limit.toNat ∧
      linRead8 s.xlat s.mem .sysRead (s.gdt.base + (selIndex v).setWidth 32 * 8#32) = some d := by
  have e : (selOffset v).toNat = (selIndex v).toNat * 8 := gdtOffset_toNat _
  simp only [State.desc, lookup, ht, Bool.false_eq_true, if_false, e]
  split
  · rename_i hle
    rw [show selOffset v = (selIndex v).setWidth 32 * 8#32 from rfl]
    cases hr : linRead8 s.xlat s.mem .sysRead (s.gdt.base + (selIndex v).setWidth 32 * 8#32) <;> simp [Lookup.ofRead, hle]
  · simp_all

theorem State.TaskAt.inGdt {s : State} {v : Sel} {d : Descriptor} (h : s.TaskAt v d) :
    (selIndex v).toNat * 8 + 7 ≤ s.gdt.limit.toNat := ((desc_found h.2.1).1 h.2.2.1).1

/-- Two selectors with one index name one descriptor. -/
theorem State.TaskAt.unique {s : State} {v w : Sel} {d e : Descriptor} (h : s.TaskAt v d) (h' : s.TaskAt w e)
    (hi : selIndex v = selIndex w) : d = e := by
  have a := ((desc_found h.2.1).1 h.2.2.1).2
  have b := ((desc_found h'.2.1).1 h'.2.2.1).2
  rw [hi, b] at a
  exact (Option.some.inj a).symm

/-! ### An operation that leaves the GDT but for busy bits -/

/-- What an operation leaves of the GDT as it is read: each entry, but that `F` says what becomes of its byte 5. -/
structure Upd (s t : State) (F : BitVec 13 → Byte → Byte) : Prop where
  gdt : t.gdt = s.gdt
  fn : ∀ i, BusyFn (F i)
  other : ∀ (i : BitVec 13) (k : Nat), i.toNat * 8 + 7 ≤ s.gdt.limit.toNat → k < 8 → k ≠ 5 →
    linRead1 t.xlat t.mem .sysRead (s.gdtByte i k) = linRead1 s.xlat s.mem .sysRead (s.gdtByte i k)
  busy : ∀ i : BitVec 13, i.toNat * 8 + 7 ≤ s.gdt.limit.toNat →
    linRead1 t.xlat t.mem .sysRead (s.gdtByte i 5) = (linRead1 s.xlat s.mem .sysRead (s.gdtByte i 5)).map (F i)

/-- A descriptor before and after. -/
theorem Upd.desc {s t : State} {F : BitVec 13 → Byte → Byte} (u : Upd s t F) {i : BitVec 13}
    (hi : i.toNat * 8 + 7 ≤ s.gdt.limit.toNat) :
    (∀ d, linRead8 s.xlat s.mem .sysRead (s.gdt.base + i.setWidth 32 * 8#32) = some d →
      ∃ d', linRead8 t.xlat t.mem .sysRead (s.gdt.base + i.setWidth 32 * 8#32) = some d' ∧ SameTss (F i) d d') ∧
    ∀ d', linRead8 t.xlat t.mem .sysRead (s.gdt.base + i.setWidth 32 * 8#32) = some d' →
      ∃ d, linRead8 s.xlat s.mem .sysRead (s.gdt.base + i.setWidth 32 * 8#32) = some d ∧ SameTss (F i) d d' := by
  have z : s.gdt.base + i.setWidth 32 * 8#32 = s.gdtByte i 0 := (BitVec.add_zero _).symm
  have o0 := z ▸ u.other i 0 hi (by omega) (by omega)
  have o1 := u.other i 1 hi (by omega) (by omega)
  have o2 := u.other i 2 hi (by omega) (by omega)
  have o3 := u.other i 3 hi (by omega) (by omega)
  have o4 := u.other i 4 hi (by omega) (by omega)
  have o5 := u.busy i hi
  have o6 := u.other i 6 hi (by omega) (by omega)
  have o7 := u.other i 7 hi (by omega) (by omega)
  simp only [State.gdtByte] at o1 o2 o3 o4 o5 o6 o7
  constructor
  · intro d hd
    obtain ⟨b0, b1, b2, b3, b4, b5, b6, b7, h0, h1, h2, h3, h4, h5, h6, h7, rfl⟩ := linRead8_bytes.1 hd
    refine ⟨_, linRead8_bytes.2 ⟨b0, b1, b2, b3, b4, F i b5, b6, b7, o0.trans h0, o1.trans h1, o2.trans h2, o3.trans h3, o4.trans h4,
      o5.trans (by rw [show (BitVec.ofNat 32 5 : Word) = 5 from rfl, h5]; rfl), o6.trans h6, o7.trans h7, rfl⟩,
      sameTss_bytes (u.fn i) ..⟩
  · intro d' hd
    obtain ⟨b0, b1, b2, b3, b4, b5', b6, b7, h0, h1, h2, h3, h4, h5, h6, h7, rfl⟩ := linRead8_bytes.1 hd
    obtain ⟨b5, hb5, rfl⟩ := Option.map_eq_some_iff.1 (o5.symm.trans h5)
    exact ⟨_, linRead8_bytes.2 ⟨b0, b1, b2, b3, b4, b5, b6, b7, o0.symm.trans h0, o1.symm.trans h1, o2.symm.trans h2, o3.symm.trans h3,
      o4.symm.trans h4, hb5, o6.symm.trans h6, o7.symm.trans h7, rfl⟩, sameTss_bytes (u.fn i) ..⟩

theorem Upd.before {s t : State} {F : BitVec 13 → Byte → Byte} (u : Upd s t F) {v : Sel} {d' : Descriptor} (h : t.TaskAt v d') :
    ∃ d, s.TaskAt v d ∧ SameTss (F (selIndex v)) d d' := by
  obtain ⟨h1, h2, h3, h4⟩ := h
  obtain ⟨hi, hr⟩ := (desc_found h2).1 h3
  rw [u.gdt] at hi hr
  obtain ⟨d, hd, hs⟩ := (u.desc hi).2 d' hr
  exact ⟨d, ⟨h1, h2, (desc_found h2).2 ⟨hi, hd⟩, hs.tss ▸ h4⟩, hs⟩

theorem Upd.after {s t : State} {F : BitVec 13 → Byte → Byte} (u : Upd s t F) {v : Sel} {d : Descriptor} (h : s.TaskAt v d) :
    ∃ d', t.TaskAt v d' ∧ SameTss (F (selIndex v)) d d' := by
  obtain ⟨h1, h2, h3, h4⟩ := h
  obtain ⟨hi, hr⟩ := (desc_found h2).1 h3
  obtain ⟨d', hd, hs⟩ := (u.desc hi).1 d hr
  refine ⟨d', ⟨h1, h2, (desc_found h2).2 ?_, hs.tss.trans h4⟩, hs⟩
  rw [u.gdt]
  exact ⟨hi, hd⟩

/-- The structures lie where they lay. -/
theorem Upd.inStructure {s t : State} {F : BitVec 13 → Byte → Byte} (u : Upd s t F) {a : Word} :
    t.InStructure a → s.InStructure a := by
  rintro (h | ⟨v, d', h, ha⟩)
  · exact .inl (u.gdt ▸ h)
  · obtain ⟨d, hd, hs⟩ := u.before h
    exact .inr ⟨v, d, hd, by rwa [hs.base, hs.limit] at ha⟩

/-- A chain of back-links of which nothing is stored to. -/
theorem Upd.chain {s t : State} {F : BitVec 13 → Byte → Byte} (u : Upd s t F) {l : List Sel} {nt : Bool} {base : Word}
    (h : s.Chain nt base l) (hF : ∀ v ∈ l, F (selIndex v) = id)
    (hb : nt = true → ∀ a ∈ span base 2, linRead1 t.xlat t.mem .sysRead a = linRead1 s.xlat s.mem .sysRead a)
    (hd : ∀ v ∈ l, ∀ d, s.TaskAt v d → ∀ a ∈ span (descBase d) 0x68,
      linRead1 t.xlat t.mem .sysRead a = linRead1 s.xlat s.mem .sysRead a) : t.Chain nt base l := by
  induction l generalizing nt base with
  | nil => exact h
  | cons v l ih =>
    obtain ⟨hnt, hlink, d, f, ht, hbusy, hf, hch⟩ := h
    obtain ⟨d', ht', hs⟩ := u.after ht
    have hall := hd v (List.mem_cons_self ..) d ht
    refine ⟨hnt, (linRead2_congr (hb hnt)).trans hlink, d', f, ht', (hs.kept (hF v (List.mem_cons_self ..))).trans hbusy, ?_, ?_⟩
    · rw [← hf, hs.base]
      refine linRead4_congr fun a ha => hall a ?_
      obtain ⟨k, hk, rfl⟩ := mem_span.1 ha
      exact mem_span.2 ⟨0x24 + k, by omega, by rw [BitVec.ofNat_add, BitVec.add_assoc]⟩
    · rw [hs.base]
      exact ih hch (fun w hw => hF w (List.mem_cons_of_mem _ hw)) (fun _ a ha => hall a (span_mono ha (by omega)))
        fun w hw => hd w (List.mem_cons_of_mem _ hw)

/-- Every task of a chain is busy. -/
theorem State.Chain.busy {s : State} {l : List Sel} {nt : Bool} {base : Word} (h : s.Chain nt base l) {v : Sel} (hv : v ∈ l) :
    ∃ e, s.TaskAt v e ∧ isBusy e = true := by
  induction l generalizing nt base with
  | nil => cases hv
  | cons w l ih =>
    obtain ⟨-, -, e, f, h1, h2, -, h3⟩ := h
    rcases List.mem_cons.1 hv with rfl | hv
    · exact ⟨e, h1, h2⟩
    · exact ih h3 hv

/-- The conditions after an operation: the overlaps and the common mapping are kept, so that only the tasks in execution are to be shown. -/
theorem Upd.tasksWf {s t : State} {F : BitVec 13 → Byte → Byte} (u : Upd s t F) {l0 left0 l left : List Sel} (w : s.TasksWf l0 left0)
    (hx : ∀ p a acc, s.InStructure a → (t.xlat.under p).phys t.mem a acc = (s.xlat.under p).phys s.mem a acc)
    (hx' : ∀ a acc, s.InStructure a → t.xlat.phys t.mem a acc = s.xlat.phys s.mem a acc)
    (hp : ∀ v d, s.TaskAt v d → ∀ a ∈ span (descBase d + 0x1C#32) 4,
      linRead1 t.xlat t.mem .sysRead a = linRead1 s.xlat s.mem .sysRead a)
    (hc : t.tr.valid = true → ∃ d, t.TaskAt t.tr.sel d ∧ descPresent d = true ∧ isBusy d = true ∧ t.tr.base = descBase d ∧
      t.tr.limit = effectiveLimit d)
    (hl : t.Running l) (hn : (l.map selIndex).Nodup)
    (hb : ∀ v d, t.TaskAt v d → isBusy d = true → selIndex v ∈ (l ++ left).map selIndex) : t.TasksWf l left := by
  refine ⟨hc, ?_, ?_, ?_, hl, hn, hb⟩
  · intro v v' d e hv hw hne
    obtain ⟨d0, h0, hs⟩ := u.before hv
    obtain ⟨e0, h1, hs'⟩ := u.before hw
    rw [hs.base, hs'.base]
    exact w.tssApart _ _ _ _ h0 h1 hne
  · intro v d hv
    obtain ⟨d0, h0, hs⟩ := u.before hv
    rw [hs.base, u.gdt]
    exact w.gdtApart _ _ h0
  · intro v d p hv hr a ha acc
    obtain ⟨d0, h0, hs⟩ := u.before hv
    have ha' := u.inStructure ha
    rw [hx p a acc ha', hx' a acc ha']
    rw [hs.base, linRead4_congr (hp v d0 h0)] at hr
    exact w.common v d0 p h0 hr a ha' acc

/-! ### Stores into the structures -/

/-- An operation that makes stores into the task structures, each of whose bytes has a physical byte of its own, and none into a page table, and
then translates the structures as before. -/
structure Stores (s t : State) (L : List Store) : Prop where
  own : s.OwnBytes
  kept : s.xlat.KeptUnder L s.mem
  memWf : Memory.wf s.mem = true
  run : runStores s.xlat .sysWrite s.mem L = some t.mem
  inside : ∀ a ∈ addrsOf L, s.InStructure a
  nodup : (addrsOf L).Nodup
  pg : t.pg = s.pg
  alike : ∀ a acc, s.InStructure a → t.xlat.phys s.mem a acc = s.xlat.phys s.mem a acc

namespace Stores
variable {s t : State} {L : List Store}

theorem under_phys (h : Stores s t L) (p a : Word) (acc : Access) :
    (t.xlat.under p).phys t.mem a acc = (s.xlat.under p).phys s.mem a acc := by
  have e : t.xlat.under p = s.xlat.under p := by simp [State.xlat, Xlat.under, h.pg]
  rw [e]
  exact h.kept t.mem (fun q hq => (runStores_ok h.run).2 q hq) p a acc

theorem phys (h : Stores s t L) {a : Word} (acc : Access) (ha : s.InStructure a) :
    t.xlat.phys t.mem a acc = s.xlat.phys s.mem a acc := by
  rw [← h.alike a acc ha]
  exact (h.under_phys t.xlat.pdbr a acc).trans (by rw [show s.xlat.under t.xlat.pdbr = t.xlat from by simp [State.xlat, Xlat.under, h.pg]])

theorem lands (h : Stores s t L) : (∀ st ∈ L, ∃ p, s.xlat.phys s.mem st.1 .sysWrite = some p) ∧
    physStores s.xlat .sysWrite s.mem L = L.map fun st => ((s.xlat.phys s.mem st.1 .sysWrite).getD 0).toNat :=
  runStores_kept (fun m' hm' a => h.kept m' hm' s.xlat.pdbr a .sysWrite) (fun _ h => h) (fun _ _ => rfl) h.run

theorem phys_nodup (h : Stores s t L) : (physStores s.xlat .sysWrite s.mem L).Nodup := by
  obtain ⟨h1, h2⟩ := h.lands
  rw [h2]
  refine (List.Nodup.of_map (fun st : Store => st.1) h.nodup).map_on fun a ha b hb e => ?_
  obtain ⟨p, hp⟩ := h1 a ha
  obtain ⟨q, hq⟩ := h1 b hb
  rw [hp, hq] at e
  have := (h.own a.1 b.1 _ _ p q (h.inside _ (List.mem_map_of_mem ha)) (h.inside _ (List.mem_map_of_mem hb)) hp hq).1
    (BitVec.eq_of_toNat_eq e)
  exact List.inj_on_of_nodup_map h.nodup ha hb this

/-- A byte of the structures that is not stored to. -/
theorem read_other (h : Stores s t L) {a : Word} (ha : s.InStructure a) (hn : a ∉ addrsOf L) :
    linRead1 t.xlat t.mem .sysRead a = linRead1 s.xlat s.mem .sysRead a := by
  rw [linRead1, linRead1, h.phys _ ha]
  cases hp : s.xlat.phys s.mem a .sysRead with
  | none => rfl
  | some p =>
    refine congrArg some ((runStores_ok h.run).2 _ fun hm => ?_)
    obtain ⟨h1, h2⟩ := h.lands
    rw [h2] at hm
    obtain ⟨st, hst, e⟩ := List.mem_map.1 hm
    obtain ⟨q, hq⟩ := h1 st hst
    rw [hq] at e
    have := (h.own st.1 a _ _ q p (h.inside _ (List.mem_map_of_mem hst)) ha hq hp).1 (BitVec.eq_of_toNat_eq e)
    exact hn (this ▸ List.mem_map_of_mem hst)

/-- A byte that is stored to. -/
theorem read_same (h : Stores s t L) {st : Store} (hst : st ∈ L) :
    linRead1 t.xlat t.mem .sysRead st.1 = (linRead1 s.xlat s.mem .sysRead st.1).map st.2 := by
  have ha := h.inside _ (List.mem_map_of_mem hst)
  rw [linRead1, linRead1, h.phys _ ha]
  cases hp : s.xlat.phys s.mem st.1 .sysRead with
  | none => rfl
  | some p =>
    obtain ⟨h1, h2⟩ := h.lands
    obtain ⟨q, hq⟩ := h1 st hst
    have : p = q := (h.own st.1 st.1 _ _ p q ha ha hp hq).2 rfl
    subst this
    refine congrArg some (runStores_lands h.memWf h.phys_nodup h.run ?_)
    rw [h2, List.zip_map']
    exact List.mem_map.2 ⟨st, hst, by rw [hq]; rfl⟩

/-- A value that is stored whole. -/
theorem read4 (h : Stores s t L) {a : Word} {v : Word} (hs : ∀ st ∈ storeBytes a (bytes4 v), st ∈ L)
    (hp : ∀ b ∈ span a 4, (s.xlat.phys s.mem b .sysRead).isSome = true) : linRead4 t.xlat t.mem .sysRead a = some v := by
  have one {b : Word} {c : Byte} (hst : (b, fun _ => c) ∈ storeBytes a (bytes4 v)) (hb : b ∈ span a 4) :
      linRead1 t.xlat t.mem .sysRead b = some c := by
    rw [h.read_same (hs _ hst)]
    obtain ⟨p, hp⟩ := Option.isSome_iff_exists.1 (hp b hb)
    simp [linRead1, hp]
  have e2 : a + 1 + 1 = a + 2 := by rw [BitVec.add_assoc]; rfl
  have e3 : a + 2 + 1 = a + 3 := by rw [BitVec.add_assoc]; rfl
  rw [linRead4, one (b := a) (c := v.extractLsb' 0 8) (by simp [storeBytes, bytes4]) (by simp [span_four]),
    one (b := a + 1) (c := v.extractLsb' 8 8) (by simp [storeBytes, bytes4]) (by simp [span_four]),
    one (b := a + 2) (c := v.extractLsb' 16 8) (by rw [← e2]; simp [storeBytes, bytes4]) (by simp [span_four]),
    one (b := a + 3) (c := v.extractLsb' 24 8) (by rw [← e3, ← e2]; simp [storeBytes, bytes4]) (by simp [span_four])]
  exact congrArg some (of4_bytes4 v)

theorem read2 (h : Stores s t L) {a : Word} {v : BitVec 16} (hs : ∀ st ∈ storeBytes a (bytes2 v), st ∈ L)
    (hp : ∀ b ∈ span a 2, (s.xlat.phys s.mem b .sysRead).isSome = true) : linRead2 t.xlat t.mem .sysRead a = some v := by
  have one {b : Word} {c : Byte} (hst : (b, fun _ => c) ∈ storeBytes a (bytes2 v)) (hb : b ∈ span a 2) :
      linRead1 t.xlat t.mem .sysRead b = some c := by
    rw [h.read_same (hs _ hst)]
    obtain ⟨p, hp⟩ := Option.isSome_iff_exists.1 (hp b hb)
    simp [linRead1, hp]
  rw [linRead2, one (b := a) (c := v.extractLsb' 0 8) (by simp [storeBytes, bytes2]) (by simp [span_two]),
    one (b := a + 1) (c := v.extractLsb' 8 8) (by simp [storeBytes, bytes2]) (by simp [span_two])]
  exact congrArg some (of2_bytes2 v)

/-- The GDT after the stores, when those that touch it are busy bits. -/
theorem upd (h : Stores s t L) (hg : t.gdt = s.gdt) {F : BitVec 13 → Byte → Byte} (hF : ∀ i, BusyFn (F i))
    (hL : ∀ st ∈ L, st.1 ∈ span s.gdt.base (s.gdt.limit.toNat + 1) → ∃ i, st = (s.gdtByte i 5, F i))
    (hid : ∀ i : BitVec 13, i.toNat * 8 + 7 ≤ s.gdt.limit.toNat → s.gdtByte i 5 ∉ addrsOf L → F i = id) : Upd s t F := by
  refine ⟨hg, hF, fun i k hi hk h5 => ?_, fun i hi => ?_⟩
  · refine h.read_other (gdtByte_inStructure hi hk) fun hm => ?_
    obtain ⟨st, hst, e⟩ := List.mem_map.1 hm
    obtain ⟨j, hj⟩ := hL st hst (e ▸ gdtByte_mem hi hk)
    rw [hj] at e
    exact h5 (gdtByte_inj (by omega) hk e).2.symm
  · by_cases hm : s.gdtByte i 5 ∈ addrsOf L
    · obtain ⟨st, hst, e⟩ := List.mem_map.1 hm
      obtain ⟨j, hj⟩ := hL st hst (e ▸ gdtByte_mem hi (by omega))
      rw [hj] at e
      obtain rfl := (gdtByte_inj (by omega) (by omega) e).1
      have := h.read_same hst
      rwa [hj] at this
    · rw [h.read_other (gdtByte_inStructure hi (by omega)) hm, hid i hi hm]
      simp

end Stores

/-! ### The stores of a task switch -/

/-- The offsets of the bytes saved in a TSS (41 R134, R135). -/
def savedOffsets : List Nat :=
  [36, 37, 38, 39] ++ (List.range 32).map (40 + ·) ++ [72, 73, 76, 77, 80, 81, 84, 85, 88, 89, 92, 93] ++ [32, 33, 34, 35]

theorem savedOffsets_lt : ∀ k ∈ savedOffsets, 0x20 ≤ k ∧ k < 0x68 := by decide

theorem savedAddrs_eq (c : Cause) (retEip : Word) (s : State) :
    savedAddrs c retEip s = savedOffsets.map fun k => s.tr.base + BitVec.ofNat 32 k := by
  simp only [savedAddrs, savedStores, savedFields, addrsOf, List.flatMap_cons, List.flatMap_nil, List.map_cons,
    List.map_nil, storeBytes, bytes4, bytes2, List.cons_append, List.nil_append, List.append_nil, BitVec.add_assoc]
  rfl

theorem savedAddrs_nodup (c : Cause) (retEip : Word) (s : State) : (savedAddrs c retEip s).Nodup := by
  rw [savedAddrs_eq]
  refine List.Nodup.map_on (fun x hx y hy e => ?_) (by decide)
  have e' := congrArg BitVec.toNat ((BitVec.add_right_inj _).1 e)
  have h1 := savedOffsets_lt x hx
  have h2 := savedOffsets_lt y hy
  simp only [BitVec.toNat_ofNat] at e'
  omega

theorem savedAddrs_span {c : Cause} {retEip : Word} {s : State} {a : Word} (h : a ∈ savedAddrs c retEip s) :
    a ∈ span s.tr.base 0x68 ∧ ∀ k < 0x20, a ≠ s.tr.base + BitVec.ofNat 32 k := by
  rw [savedAddrs_eq] at h
  obtain ⟨k, hk, rfl⟩ := List.mem_map.1 h
  have h1 := savedOffsets_lt k hk
  refine ⟨mem_span.2 ⟨k, h1.2, rfl⟩, fun j hj e => ?_⟩
  have e' := congrArg BitVec.toNat ((BitVec.add_right_inj _).1 e)
  simp only [BitVec.toNat_ofNat] at e'
  omega

/-- The page check passed: every byte of both TSSs can be read. -/
theorem pagesPresent_ok {c : Cause} {s : State} {sel : Sel} {d : Descriptor} (h : pagesPresent c s sel d = .ok ()) {a : Word}
    (ha : a ∈ span s.tr.base 0x68 ++ span (descBase d) 0x68) (acc : Access) (hacc : acc = .sysRead ∨ acc = .sysWrite) :
    (s.xlat.phys s.mem a acc).isSome = true := by
  by_cases hp : s.pg = true
  · simp only [pagesPresent, hp, if_true, run_bind_ok, orElse_ok, List.all_eq_true] at h
    obtain ⟨_, -, _, h, -⟩ := h
    have := h a (by simpa [tssAddrs, tssBytes, region_eq_mem_span] using ha)
    rw [State.accessible, Bool.and_eq_true] at this
    rcases hacc with rfl | rfl
    · exact this.1
    · exact this.2
  · rw [Xlat.phys_of_pg_off (by simpa [State.xlat] using hp)]; rfl

/-- A task switch that has loaded its task. -/
structure Loaded (c : Cause) (sel : Sel) (retEip : Word) (s t : State) (d a : Descriptor) (l left : List Sel) : Prop where
  before : s.TasksWf l left
  valid : s.tr.valid = true
  own : s.OwnBytes
  kept : s.xlat.KeptUnder (switchStores c sel (descBase d) retEip s) s.mem
  memWf : Memory.wf s.mem = true
  run : runStores s.xlat .sysWrite s.mem (switchStores c sel (descBase d) retEip s) = some t.mem
  pages : ∀ x ∈ span s.tr.base 0x68 ++ span (descBase d) 0x68, (s.xlat.phys s.mem x .sysRead).isSome = true
  incoming : s.TaskAt sel d
  incomingPresent : descPresent d = true
  incomingBusy : isBusy d = !setsIncomingBusy c
  outgoing : s.TaskAt s.tr.sel a
  outgoingPresent : descPresent a = true
  outgoingBusy : isBusy a = true
  base : s.tr.base = descBase a
  ne : selIndex sel ≠ selIndex s.tr.sel
  gdt : t.gdt = s.gdt
  pg : t.pg = s.pg
  tr : t.tr = { valid := true, sel := sel, base := descBase d, limit := effectiveLimit d }
  alike : ∀ x acc, s.InStructure x → t.xlat.phys s.mem x acc = s.xlat.phys s.mem x acc

namespace Loaded
variable {c : Cause} {sel : Sel} {ret : Word} {s t : State} {d a : Descriptor} {l left : List Sel}

theorem addrs : switchAddrs c sel (descBase d) ret s =
    ((if clearsOutgoingBusy c then [s.busyByteAddr s.tr.sel] else []) ++ savedAddrs c ret s) ++
      (if setsIncomingBusy c then [s.busyByteAddr sel] else []) ++ (if writesBackLink c then span (descBase d) 2 else []) := by
  simp only [switchAddrs, switchStores, outgoingStores, incomingStores, backLinkStores, addrsOf_append, savedAddrs, busyStores, lockedRmw]
  have : descBase d + tssBackLink = descBase d := BitVec.add_zero _
  rw [this]
  cases c <;> simp [addrsOf, clearsOutgoingBusy, setsIncomingBusy, writesBackLink, bytes2, storeBytes, span]

theorem mem_addrs {x : Word} (hm : x ∈ switchAddrs c sel (descBase d) ret s) :
    (x = s.gdtByte (selIndex s.tr.sel) 5 ∧ clearsOutgoingBusy c = true) ∨ (x = s.gdtByte (selIndex sel) 5 ∧ setsIncomingBusy c = true) ∨
      x ∈ savedAddrs c ret s ∨ (writesBackLink c = true ∧ x ∈ span (descBase d) 2) := by
  rw [addrs] at hm
  simp only [List.mem_append] at hm
  rcases hm with ((hm | hm) | hm) | hm
  · split at hm
    · exact .inl ⟨List.mem_singleton.1 hm, ‹_›⟩
    · cases hm
  · exact .inr (.inr (.inl hm))
  · split at hm
    · exact .inr (.inl ⟨List.mem_singleton.1 hm, ‹_›⟩)
    · cases hm
  · split at hm
    · exact .inr (.inr (.inr ⟨‹_›, hm⟩))
    · cases hm

theorem saved_mem (h : Loaded c sel ret s t d a l left) {x : Word} (hx : x ∈ savedAddrs c ret s) : x ∈ span (descBase a) 0x68 :=
  h.base ▸ (savedAddrs_span hx).1

/-- A byte of a TSS is no byte of the GDT. -/
theorem not_gdt (h : Loaded c sel ret s t d a l left) {v : Sel} {e : Descriptor} (hv : s.TaskAt v e) {x : Word}
    (hx : x ∈ span (descBase e) 0x68) : x ∉ span s.gdt.base (s.gdt.limit.toNat + 1) :=
  apart_iff.1 (h.before.gdtApart _ _ hv) x hx

theorem nodup (h : Loaded c sel ret s t d a l left) : (switchAddrs c sel (descBase d) ret s).Nodup := by
  have g1 := gdtByte_mem (k := 5) h.outgoing.inGdt (by omega)
  have g2 := gdtByte_mem (k := 5) h.incoming.inGdt (by omega)
  have n1 : s.busyByteAddr s.tr.sel ∉ savedAddrs c ret s := fun hm => h.not_gdt h.outgoing (h.saved_mem hm) g1
  have n2 : s.busyByteAddr sel ∉ savedAddrs c ret s := fun hm => h.not_gdt h.outgoing (h.saved_mem hm) g2
  have n3 : s.busyByteAddr s.tr.sel ∉ span (descBase d) 2 := fun hm => h.not_gdt h.incoming (span_mono hm (by omega)) g1
  have n4 : s.busyByteAddr sel ∉ span (descBase d) 2 := fun hm => h.not_gdt h.incoming (span_mono hm (by omega)) g2
  have n5 : s.busyByteAddr s.tr.sel ≠ s.busyByteAddr sel := fun e =>
    h.ne (gdtByte_inj (s := s) (k := 5) (l := 5) (by omega) (by omega) e).1.symm
  have n6 : (span (descBase d) 2).Nodup := by simp [span]
  have n7 : ∀ x ∈ savedAddrs c ret s, x ∉ span (descBase d) 2 := fun x hx hm =>
    apart_iff.1 (h.before.tssApart _ _ _ _ h.outgoing h.incoming (Ne.symm h.ne)) x (h.saved_mem hx) (span_mono hm (by omega))
  have n0 := savedAddrs_nodup c ret s
  rw [addrs]
  cases c <;> simp only [clearsOutgoingBusy, setsIncomingBusy, writesBackLink, if_true, if_false, Bool.false_eq_true, List.nil_append,
    List.append_nil, List.nodup_append, List.nodup_cons, List.not_mem_nil, not_false_eq_true, List.nodup_nil, true_and, List.mem_append,
    List.mem_singleton]
  · refine ⟨⟨n0, ?_⟩, ?_⟩
    · rintro x rfl y hy rfl; exact n1 hy
    · rintro x (rfl | hx') y rfl
      · exact n5
      · rintro rfl; exact n2 hx'
  · refine ⟨⟨n0, ?_⟩, n6, ?_⟩
    · rintro x hx' y rfl rfl; exact n2 hx'
    · rintro x (hx' | rfl) y hy rfl
      · exact n7 _ hx' hy
      · exact n4 hy
  · refine ⟨⟨n0, ?_⟩, n6, ?_⟩
    · rintro x hx' y rfl rfl; exact n2 hx'
    · rintro x (hx' | rfl) y hy rfl
      · exact n7 _ hx' hy
      · exact n4 hy
  · refine ⟨n0, ?_⟩
    rintro x rfl y hy rfl; exact n1 hy

theorem toStores (h : Loaded c sel ret s t d a l left) : Stores s t (switchStores c sel (descBase d) ret s) where
  own := h.own
  kept := h.kept
  memWf := h.memWf
  run := h.run
  inside x hx := by
    rcases mem_addrs hx with ⟨rfl, -⟩ | ⟨rfl, -⟩ | hm | ⟨-, hm⟩
    · exact gdtByte_inStructure h.outgoing.inGdt (by omega)
    · exact gdtByte_inStructure h.incoming.inGdt (by omega)
    · exact h.outgoing.inStructure (h.saved_mem hm)
    · exact h.incoming.inStructure (span_mono hm (by omega))
  nodup := h.nodup
  pg := h.pg
  alike := h.alike

/-- What becomes of byte 5 of each descriptor. -/
def busyFn (c : Cause) (sel out : Sel) (i : BitVec 13) : Byte → Byte :=
  if i = selIndex sel ∧ setsIncomingBusy c = true then setBusyBit
  else if i = selIndex out ∧ clearsOutgoingBusy c = true then clearBusyBit else id

theorem upd (h : Loaded c sel ret s t d a l left) : Upd s t (busyFn c sel s.tr.sel) := by
  refine h.toStores.upd h.gdt (fun i => ?_) (fun st hst hg => ?_) fun i hi hn => ?_
  · unfold busyFn BusyFn
    split
    · exact .inr (.inl rfl)
    · split
      · exact .inr (.inr rfl)
      · exact .inl rfl
  · simp only [switchStores, outgoingStores, incomingStores, List.mem_append] at hst
    rcases hst with ((hst | hst) | hst) | hst
    · unfold busyStores at hst
      split at hst
      · rw [List.mem_singleton.1 hst]
        refine ⟨selIndex s.tr.sel, ?_⟩
        rw [busyFn, if_neg (fun e => h.ne e.1.symm), if_pos ⟨rfl, ‹_›⟩]
        rfl
      · cases hst
    · exact (h.not_gdt h.outgoing (h.saved_mem (List.mem_map_of_mem hst)) hg).elim
    · unfold busyStores at hst
      split at hst
      · rw [List.mem_singleton.1 hst]
        refine ⟨selIndex sel, ?_⟩
        rw [busyFn, if_pos ⟨rfl, ‹_›⟩]
        rfl
      · cases hst
    · unfold backLinkStores at hst
      split at hst
      · have : st.1 ∈ addrsOf (storeBytes (descBase d + tssBackLink) (bytes2 s.tr.sel)) := List.mem_map_of_mem hst
        rw [addrsOf_storeBytes, show descBase d + tssBackLink = descBase d from BitVec.add_zero _] at this
        change _ ∈ span _ 2 at this
        exact (h.not_gdt h.incoming (span_mono this (by omega)) hg).elim
      · cases hst
  · unfold busyFn
    rw [if_neg, if_neg]
    · rintro ⟨rfl, hc⟩
      refine hn ?_
      show _ ∈ switchAddrs ..
      rw [addrs, if_pos hc]
      simp [State.gdtByte, State.busyByteAddr, selOffset]
    · rintro ⟨rfl, hc⟩
      refine hn ?_
      show _ ∈ switchAddrs ..
      rw [addrs, if_pos hc]
      simp [State.gdtByte, State.busyByteAddr, selOffset]

/-- A TSS byte that is neither saved nor the back-link written is not stored to. -/
theorem not_mem (h : Loaded c sel ret s t d a l left) {v : Sel} {e : Descriptor} (hv : s.TaskAt v e) {x : Word}
    (hx : x ∈ span (descBase e) 0x68) (ho : x ∉ savedAddrs c ret s) (hi : writesBackLink c = true → x ∉ span (descBase d) 2) :
    x ∉ switchAddrs c sel (descBase d) ret s := by
  intro hm
  rcases mem_addrs hm with ⟨rfl, -⟩ | ⟨rfl, -⟩ | hm | ⟨hc, hm⟩
  · exact h.not_gdt hv hx (gdtByte_mem h.outgoing.inGdt (by omega))
  · exact h.not_gdt hv hx (gdtByte_mem h.incoming.inGdt (by omega))
  · exact ho hm
  · exact hi hc hm

theorem read_tss (h : Loaded c sel ret s t d a l left) {v : Sel} {e : Descriptor} (hv : s.TaskAt v e) {x : Word}
    (hx : x ∈ span (descBase e) 0x68) (ho : x ∉ savedAddrs c ret s) (hi : writesBackLink c = true → x ∉ span (descBase d) 2) :
    linRead1 t.xlat t.mem .sysRead x = linRead1 s.xlat s.mem .sysRead x :=
  h.toStores.read_other (hv.inStructure hx) (h.not_mem hv hx ho hi)

theorem read_other_task (h : Loaded c sel ret s t d a l left) {v : Sel} {e : Descriptor} (hv : s.TaskAt v e)
    (h1 : selIndex v ≠ selIndex sel ∨ writesBackLink c = false) (h2 : selIndex v ≠ selIndex s.tr.sel) {x : Word}
    (hx : x ∈ span (descBase e) 0x68) : linRead1 t.xlat t.mem .sysRead x = linRead1 s.xlat s.mem .sysRead x := by
  refine h.read_tss hv hx (fun hm => apart_iff.1 (h.before.tssApart _ _ _ _ hv h.outgoing h2) x hx (h.saved_mem hm)) fun hc hm => ?_
  rcases h1 with h1 | h1
  · exact apart_iff.1 (h.before.tssApart _ _ _ _ hv h.incoming h1) x hx (span_mono hm (by omega))
  · rw [hc] at h1; cases h1

/-- The PDBR slot of every task is as it was. -/
theorem read_pdbr (h : Loaded c sel ret s t d a l left) {v : Sel} {e : Descriptor} (hv : s.TaskAt v e) {x : Word}
    (hx : x ∈ span (descBase e + 0x1C#32) 4) : linRead1 t.xlat t.mem .sysRead x = linRead1 s.xlat s.mem .sysRead x := by
  obtain ⟨k, hk, rfl⟩ := mem_span.1 hx
  have e1 : descBase e + 0x1C#32 + BitVec.ofNat 32 k = descBase e + BitVec.ofNat 32 (0x1C + k) := by
    rw [BitVec.ofNat_add, BitVec.add_assoc]
  rw [e1] at hx ⊢
  have hm0 : descBase e + BitVec.ofNat 32 (0x1C + k) ∈ span (descBase e) 0x68 := mem_span.2 ⟨_, by omega, rfl⟩
  refine h.read_tss hv hm0 (fun hm => ?_) fun _ hm => ?_
  · by_cases hv2 : selIndex v = selIndex s.tr.sel
    · obtain rfl := hv.unique h.outgoing hv2
      exact (savedAddrs_span hm).2 (0x1C + k) (by omega) (by rw [h.base])
    · exact apart_iff.1 (h.before.tssApart _ _ _ _ hv h.outgoing hv2) _ hm0 (h.saved_mem hm)
  · by_cases hv2 : selIndex v = selIndex sel
    · obtain rfl := hv.unique h.incoming hv2
      obtain ⟨j, hj, e2⟩ := mem_span.1 hm
      have := congrArg BitVec.toNat ((BitVec.add_right_inj _).1 e2)
      simp only [BitVec.toNat_ofNat] at this
      omega
    · exact apart_iff.1 (h.before.tssApart _ _ _ _ hv h.incoming hv2) _ hm0 (span_mono hm (by omega))

theorem current (h : Loaded c sel ret s t d a l left) : ∃ d', t.TaskAt t.tr.sel d' ∧ descPresent d' = true ∧ isBusy d' = true ∧
    t.tr.base = descBase d' ∧ t.tr.limit = effectiveLimit d' := by
  obtain ⟨d', h1, hs⟩ := h.upd.after h.incoming
  rw [h.tr]
  refine ⟨d', h1, hs.present.trans h.incomingPresent, ?_, hs.base.symm, hs.limit.symm⟩
  cases hc : setsIncomingBusy c with
  | true => exact hs.set (by simp [busyFn, hc]) h.incoming.2.2.2
  | false =>
    rw [hs.kept, h.incomingBusy, hc]; rfl
    unfold busyFn
    rw [if_neg (by simp [hc]), if_neg (fun e => h.ne e.1)]

/-- The conditions after the switch, once the tasks in execution are known. -/
theorem tasksWf (h : Loaded c sel ret s t d a l left) {l' left' : List Sel} (hl : t.Running l') (hn : (l'.map selIndex).Nodup)
    (hb : ∀ v e, s.TaskAt v e → (isBusy e = true ∧ (selIndex v = selIndex s.tr.sel → clearsOutgoingBusy c = false)) ∨
        selIndex v = selIndex sel →
      selIndex v ∈ (l' ++ left').map selIndex) : t.TasksWf l' left' := by
  refine h.upd.tasksWf h.before (fun p x acc _ => h.toStores.under_phys p x acc) (fun x acc hx => h.toStores.phys acc hx)
    (fun v e hv x hx => h.read_pdbr hv hx) (fun _ => h.current) hl hn fun v e' hv hbusy => ?_
  obtain ⟨e, he, hs⟩ := h.upd.before hv
  refine hb v e he ?_
  by_cases h1 : selIndex v = selIndex sel
  · exact .inr h1
  · left
    by_cases h2 : selIndex v = selIndex s.tr.sel ∧ clearsOutgoingBusy c = true
    · rw [hs.cleared (by rw [busyFn, if_neg (fun e => h1 e.1), if_pos h2])] at hbusy
      cases hbusy
    · rw [hs.kept (by rw [busyFn, if_neg (fun e => h1 e.1), if_neg h2])] at hbusy
      exact ⟨hbusy, fun e => by simpa [e] using h2⟩

/-- After CALL and INT the tasks in execution have the new one before them. -/
theorem after_call (h : Loaded c sel ret s t d a l left) (hc : c = .call ∨ c = .int) (hf : ∃ f, t.eflags = loadedFlags c f) :
    t.TasksWf (sel :: l) left := by
  obtain ⟨f, hf⟩ := hf
  have hnt : flagNt t.eflags = true := by
    rw [hf]
    rcases hc with rfl | rfl <;> simp [loadedFlags, setNt, flagNt]
  have hset : setsIncomingBusy c = true := by rcases hc with rfl | rfl <;> rfl
  have hclr : clearsOutgoingBusy c = false := by rcases hc with rfl | rfl <;> rfl
  have hbl : writesBackLink c = true := by rcases hc with rfl | rfl <;> rfl
  have hsf : savedFlags c s.eflags = s.eflags := by rcases hc with rfl | rfl <;> rfl
  have hrun := h.before.running
  have hnd := h.before.once
  cases l with
  | nil => exact absurd hrun (by simp [State.Running, h.valid])
  | cons v l =>
    obtain ⟨-, rfl, hch⟩ := hrun
    simp only [List.map_cons, List.nodup_cons] at hnd
    have hni : ∀ v ∈ l, selIndex v ≠ selIndex sel := fun v hv e => by
      obtain ⟨e', h1, h2⟩ := hch.busy hv
      rw [h1.unique h.incoming e, h.incomingBusy, hset] at h2
      cases h2
    have hno : ∀ v ∈ l, selIndex v ≠ selIndex s.tr.sel := fun v hv e => hnd.1 (List.mem_map.2 ⟨v, hv, e⟩)
    have hidO : busyFn c sel s.tr.sel (selIndex s.tr.sel) = id := by
      rw [busyFn, if_neg (fun e => h.ne e.1.symm), if_neg (by simp [hclr])]
    obtain ⟨a', ha, hs⟩ := h.upd.after h.outgoing
    have page (k : Nat) (hk : k < 0x68) : (s.xlat.phys s.mem (s.tr.base + BitVec.ofNat 32 k) .sysRead).isSome = true :=
      h.pages _ (List.mem_append_left _ (mem_span.2 ⟨k, hk, rfl⟩))
    refine h.tasksWf ⟨by rw [h.tr], by rw [h.tr], ?_⟩ ?_ fun v e hv hb => ?_
    · rw [hnt]
      refine ⟨rfl, ?_, a', savedFlags c s.eflags, ha, (hs.kept hidO).trans h.outgoingBusy, ?_, ?_⟩
      · rw [h.tr]
        refine h.toStores.read2 (fun st hst => ?_) fun x hx =>
          h.pages x (List.mem_append_right _ (span_mono hx (by omega)))
        simp only [switchStores, backLinkStores, hbl, if_true, List.mem_append]
        right
        rwa [show descBase d + tssBackLink = descBase d from BitVec.add_zero _]
      · rw [hs.base, ← h.base]
        refine h.toStores.read4 (fun st hst => ?_) fun x hx => ?_
        · simp only [switchStores, outgoingStores, List.mem_append]
          exact .inl (.inl (.inr (storeBytes_mem_saved (savedFields_eflags c ret s) hst)))
        · obtain ⟨k, hk, rfl⟩ := mem_span.1 hx
          have := page (0x24 + k) (by omega)
          rwa [BitVec.ofNat_add, ← BitVec.add_assoc] at this
      · rw [hsf, hs.base, ← h.base]
        refine h.upd.chain hch (fun v hv => ?_) (fun _ x hx => ?_) fun v hv e he x hx =>
          h.read_other_task he (.inl (hni v hv)) (hno v hv) hx
        · rw [busyFn, if_neg (fun e => hni v hv e.1), if_neg (by simp [hclr])]
        · rw [h.base] at hx
          have hx' := span_mono hx (show 2 ≤ 0x68 by omega)
          refine h.read_tss h.outgoing hx' (fun hm => ?_) fun _ hm =>
            apart_iff.1 (h.before.tssApart _ _ _ _ h.outgoing h.incoming (Ne.symm h.ne)) x hx' (span_mono hm (by omega))
          obtain ⟨k, hk, rfl⟩ := mem_span.1 hx
          exact (savedAddrs_span hm).2 k (by omega) (by rw [h.base])
    · simp only [List.map_cons, List.nodup_cons, List.mem_cons, not_or]
      refine ⟨⟨h.ne, fun hm => ?_⟩, hnd⟩
      obtain ⟨v, hv, e⟩ := List.mem_map.1 hm
      exact hni v hv e
    · rcases hb with ⟨hb, -⟩ | hb
      · exact List.mem_cons_of_mem _ (h.before.busy v e hv hb)
      · rw [hb]
        exact List.mem_cons_self ..

/-- After JMP the new task alone is in execution; the chain of the old one is left busy. -/
theorem after_jmp (h : Loaded .jmp sel ret s t d a l left) (hf : ∃ f, t.eflags = loadedFlags .jmp f) :
    t.TasksWf [sel] (l.tail ++ left) := by
  obtain ⟨f, hf⟩ := hf
  have hnt : flagNt t.eflags = false := by
    rw [hf]
    simp [loadedFlags, clearNt, flagNt]
  refine h.tasksWf ⟨by rw [h.tr], by rw [h.tr], hnt⟩ (by simp) fun v e hv hb => ?_
  have hrun := h.before.running
  cases l with
  | nil => exact absurd hrun (by simp [State.Running, h.valid])
  | cons w l =>
    obtain ⟨-, rfl, -⟩ := hrun
    rcases hb with ⟨hb, hne⟩ | hb
    · have := h.before.busy v e hv hb
      simp only [List.cons_append, List.map_cons, List.mem_cons] at this
      rcases this with e' | this
      · cases hne e'
      · exact List.mem_cons_of_mem _ this
    · rw [hb]
      exact List.mem_cons_self ..

/-- After IRET the tasks in execution are those behind the old one. -/
theorem after_iret (h : Loaded .iret sel ret s t d a l left) (hnt : flagNt s.eflags = true)
    (hlink : linRead2 s.xlat s.mem .sysRead s.tr.base = some sel)
    (hf : ∀ f, linRead4 s.xlat s.mem .sysRead (descBase d + 0x24#32) = some f → t.eflags = f) : t.TasksWf l.tail left := by
  have hrun := h.before.running
  have hnd := h.before.once
  cases l with
  | nil => exact absurd hrun (by simp [State.Running, h.valid])
  | cons w l =>
    obtain ⟨-, rfl, hch⟩ := hrun
    cases l with
    | nil => rw [hnt] at hch; cases hch
    | cons v l =>
      obtain ⟨-, hl, e, f, h1, h2, h3, h4⟩ := hch
      obtain rfl := Option.some.inj (hlink.symm.trans hl)
      obtain rfl := h1.unique h.incoming rfl
      simp only [List.map_cons, List.nodup_cons, List.mem_cons, not_or] at hnd
      have hno : ∀ v ∈ l, selIndex v ≠ selIndex s.tr.sel := fun v hv e => hnd.1.2 (List.mem_map.2 ⟨v, hv, e⟩)
      refine h.tasksWf ⟨by rw [h.tr], by rw [h.tr], ?_⟩ (by simpa using hnd.2) fun v e hv hb => ?_
      · rw [hf f h3, h.tr]
        refine h.upd.chain h4 (fun v hv => ?_) (fun _ x hx => h.read_other_task h.incoming (.inr rfl) h.ne (span_mono hx (by omega)))
          fun v hv e he x hx => h.read_other_task he (.inr rfl) (hno v hv) hx
        rw [busyFn, if_neg (by simp [setsIncomingBusy]), if_neg (fun e => hno v hv e.1)]
      · rcases hb with ⟨hb, hne⟩ | hb
        · have := h.before.busy v e hv hb
          simp only [List.cons_append, List.map_cons, List.mem_cons] at this
          rcases this with e' | this
          · cases hne e'
          · simpa using this
        · rw [hb]
          simp

end Loaded

/-- Stores made one after another, in two parts. -/
theorem physStores_append {x : Xlat} {acc : Access} {l l' : List Store} {m m1 : Memory} (h : runStores x acc m l = some m1) :
    physStores x acc m (l ++ l') = physStores x acc m l ++ physStores x acc m1 l' := by
  induction l generalizing m with
  | nil => obtain rfl : m = m1 := Option.some.inj h; rfl
  | cons st l ih =>
    obtain ⟨a, f⟩ := st
    obtain ⟨p, hp, h⟩ := runStores_cons.1 h
    rw [List.cons_append, physStores_cons hp, physStores_cons hp, ih h, List.cons_append]

/-- The first of two parts of the stores. -/
theorem Stores.first {s t : State} {l l' : List Store} (h : Stores s t (l ++ l')) {m : Memory}
    (hm : runStores s.xlat .sysWrite s.mem l = some m) : Stores s { s with mem := m } l where
  own := h.own
  kept m' hm' := h.kept m' fun p hp => hm' p fun hq => hp (by rw [physStores_append hm]; exact List.mem_append_left _ hq)
  memWf := h.memWf
  run := hm
  inside a ha := h.inside a (by rw [addrsOf_append]; exact List.mem_append_left _ ha)
  nodup := by
    have := h.nodup
    rw [addrsOf_append] at this
    exact this.of_append_left
  pg := rfl
  alike _ _ _ := rfl

/-- What step 5 reads of the incoming TSS, but for the back-link, is what it held before the switch. -/
theorem Loaded.read_image {c : Cause} {sel : Sel} {ret : Word} {s t : State} {d a : Descriptor} {l left : List Sel}
    (h : Loaded c sel ret s t d a l left) {m : Memory}
    (hm : runStores s.xlat .sysWrite s.mem (outgoingStores c ret s ++ incomingStores c sel s) = some m) {k : Nat} (h2 : 2 ≤ k)
    (h4 : k + 4 ≤ 0x68) : linRead4 s.xlat m .sysRead (descBase d + BitVec.ofNat 32 k) =
      linRead4 s.xlat s.mem .sysRead (descBase d + BitVec.ofNat 32 k) := by
  have hs : Stores s { s with mem := m } (outgoingStores c ret s ++ incomingStores c sel s) := h.toStores.first hm
  refine linRead4_congr fun x hx => ?_
  obtain ⟨j, hj, rfl⟩ := mem_span.1 hx
  have e : descBase d + BitVec.ofNat 32 k + BitVec.ofNat 32 j = descBase d + BitVec.ofNat 32 (k + j) := by
    rw [BitVec.ofNat_add, BitVec.add_assoc]
  rw [e]
  have hx0 : descBase d + BitVec.ofNat 32 (k + j) ∈ span (descBase d) 0x68 := mem_span.2 ⟨_, by omega, rfl⟩
  refine hs.read_other (h.incoming.inStructure hx0) fun hmem => ?_
  refine h.not_mem h.incoming hx0 (fun hm => ?_) (fun _ hm => ?_) (show _ ∈ addrsOf (switchStores c sel (descBase d) ret s) from ?_)
  · exact apart_iff.1 (h.before.tssApart _ _ _ _ h.incoming h.outgoing h.ne) _ hx0 (h.saved_mem hm)
  · obtain ⟨i, hi, e2⟩ := mem_span.1 hm
    have := congrArg BitVec.toNat ((BitVec.add_right_inj _).1 e2)
    simp only [BitVec.toNat_ofNat] at this
    omega
  · rw [switchStores, addrsOf_append]
    exact List.mem_append_left _ hmem

end Sys2Proof.Machine
end

