-- ==== Sys2Proof/Tests/Slice0.lean ====
section
/-! SUPPORT. The model's own tests: ill-formed terms, the words of 30 R94, small steps from the worked examples of the rules (40 R110,
R111; 41 R123 to R153) and of 95_test_vectors.md, and for each statement a state and operands that meet its hypotheses. -/

namespace Sys2Proof.Tests
open Sys2Proof.Machine

set_option maxRecDepth 8192

/-! ### WellFormed: each check refuses something -/

theorem test_wf_esp_base : (Instr.ltr [] (.mem (.a32 (.base .esp .none)))).wf true = false := by decide
theorem test_wf_ebp_base : (Instr.ltr [] (.mem (.a32 (.base .ebp .none)))).wf true = false := by decide
theorem test_wf_sib_index : (Instr.str [] (.mem (.a32 (.sib .eax (some .esp) 0 .none)))).wf true = false := by decide
theorem test_wf_sib_ebp : (Instr.str [] (.mem (.a32 (.sib .ebp none 0 .none)))).wf true = false := by decide
theorem test_wf_sib_direct : (Instr.str [] (.mem (.a32 (.sibDirect (some .esp) 0 0)))).wf true = false := by decide
theorem test_wf_bp_base : (Instr.str [.addrSize] (.mem (.a16 (.base .bp .none)))).wf true = false := by decide
theorem test_wf_address_size : (Instr.str [.addrSize] (.mem (.a32 (.direct 0)))).wf true = false := by decide
theorem test_wf_address_size16 : (Instr.str [] (.mem (.a16 (.direct 0)))).wf true = false := by decide
theorem test_wf_far32 : (Instr.jmpPtr32 [.opSize] 0 0).wf true = false := by decide
theorem test_wf_far16 : (Instr.callPtr16 [] 0 0).wf true = false := by decide
theorem test_wf_far_size : (Instr.jmpMem [] .s16 (.a32 (.direct 0))).wf true = false := by decide
theorem test_wf_any_prefixes : (Instr.jmpPtr32 (List.replicate 20 .rep) 0 0).wf true = true := by decide

/-! ### Decoding: words written out from 30 R91 to R94 and the family's addressing tables (log 16) -/

theorem test_decode_ltr_ax : decode true [0x0F, 0x00, 0xD8] = .ok (.ltr [] (.reg .eax)) [] := by decide
theorem test_decode_ltr_mem :
    decode true [0x0F, 0x00, 0x1D, 0x00, 0x90, 0x00, 0x00] = .ok (.ltr [] (.mem (.a32 (.direct 0x9000)))) [] := by decide
theorem test_decode_str_bx : decode true [0x0F, 0x00, 0xCB] = .ok (.str [] (.reg .ebx)) [] := by decide
/-- ModRM 01 001 100, SIB 10 110 011, disp8 FC: `[EBX + ESI*4 - 4]`, segment override 64. -/
theorem test_decode_str_sib :
    decode true [0x64, 0x0F, 0x00, 0x4C, 0xB3, 0xFC] =
      .ok (.str [.segment .fs] (.mem (.a32 (.sib .ebx (some .esi) 2 (.d8 0xFC))))) [] := by decide
theorem test_decode_jmp_ptr32 :
    decode true [0xEA, 0x78, 0x56, 0x34, 0x12, 0x20, 0x00] = .ok (.jmpPtr32 [] 0x12345678 0x0020) [] := by decide
theorem test_decode_jmp_ptr16 :
    decode true [0x66, 0xEA, 0x34, 0x12, 0x20, 0x00] = .ok (.jmpPtr16 [.opSize] 0x1234 0x0020) [] := by decide
/-- ModRM 10 101 011 with disp16: `[BP + DI + 8002h]` under 67. -/
theorem test_decode_jmp_mem16 :
    decode true [0x67, 0xFF, 0xAB, 0x02, 0x80] = .ok (.jmpMem [.addrSize] .s32 (.a16 (.base .bpDi (.d16 0x8002)))) [] := by
  decide
theorem test_decode_jmp_mem :
    decode true [0xFF, 0x2D, 0x00, 0x60, 0x00, 0x00] = .ok (.jmpMem [] .s32 (.a32 (.direct 0x6000))) [] := by decide
theorem test_decode_call_ptr32 :
    decode true [0x9A, 0x00, 0x00, 0x00, 0x00, 0x28, 0x00] = .ok (.callPtr32 [] 0 0x0028) [] := by decide
/-- In a 16-bit code segment the default is ptr16:16. -/
theorem test_decode_call_ptr16 : decode false [0x9A, 0x34, 0x12, 0x28, 0x00] = .ok (.callPtr16 [] 0x1234 0x0028) [] := by decide
theorem test_decode_call_mem :
    decode true [0x66, 0xFF, 0x5D, 0x08] = .ok (.callMem [.opSize] .s16 (.a32 (.base .ebp (.d8 8)))) [] := by decide
theorem test_decode_iret : decode true [0xCF] = .ok (.iret []) [] := by decide
theorem test_decode_int : decode true [0xCD, 0x20] = .ok (.intImm [] 32) [] := by decide
theorem test_decode_int3 : decode true [0xCC] = .ok (.int3 []) [] := by decide
theorem test_decode_into : decode true [0xCE] = .ok (.into []) [] := by decide
theorem test_decode_far_register : decode true [0xFF, 0xE8] = .reject .farPointerInRegister := by decide
theorem test_decode_sldt : decode true [0x0F, 0x00, 0xC0] = .reject (.otherGroupMember 0x00 0) := by decide
theorem test_decode_call_near : decode true [0xFF, 0x15] = .reject (.otherGroupMember 0xFF 2) := by decide
theorem test_decode_lock : decode true [0xF0, 0xCF] = .ok (.iret [.lock]) [] := by decide
/-- 30 R98: a row after any prefixes, however many. -/
theorem test_decode_many_prefixes :
    decode true (List.replicate 16 0xF0 ++ [0xCF]) = .ok (.iret (List.replicate 16 .lock)) [] := by decide
theorem test_decode_short : decode true [0xEA, 0x00] = .short := by decide
theorem test_table_word : decodeTableWord 24 0x0F0018 = some (.ltr [] (.mem (.a32 (.base .eax .none)))) := by decide

/-! ### A small machine: GDT at 1000h, task A at 2000h, B at 3000h, an LDT at 4000h, C at 5000h, IDT at 6000h -/

def fill (m : Memory) (a : Nat) : List Byte → Memory
  | [] => m
  | b :: bs => fill (Memory.write m a b) (a + 1) bs

/-- Bytes at an address on, as listed cells: zero bytes are unlisted. -/
def cells (a : Nat) : List Byte → Memory
  | [] => []
  | b :: bs => if b = 0 then cells (a + 1) bs else (a, b) :: cells (a + 1) bs

/-- The task structures: nineteen descriptors, then the IDT entries by vector. -/
def gdtBytes : List Byte :=
  [0, 0, 0, 0, 0, 0, 0, 0] ++ [0xFF, 0xFF, 0, 0, 0, 0x9A, 0xCF, 0] ++ [0xFF, 0xFF, 0, 0, 0, 0x92, 0xCF, 0] ++
  [0x67, 0, 0, 0x20, 0, 0x8B, 0, 0] ++ [0x67, 0, 0, 0x30, 0, 0x89, 0, 0] ++ [0, 0, 0x20, 0, 0, 0x85, 0, 0] ++
  [0x07, 0, 0, 0x40, 0, 0x82, 0, 0] ++ [0x67, 0, 0, 0x50, 0, 0x89, 0, 0] ++ [0xFF, 0xFF, 0, 0, 0, 0xFA, 0xCF, 0] ++
  [0xFF, 0xFF, 0, 0, 0, 0xF2, 0xCF, 0] ++ [0x66, 0, 0, 0x70, 0, 0x89, 0, 0] ++ [0x67, 0, 0, 0x80, 0, 0x09, 0, 0] ++
  [0xFF, 0xFF, 0, 0, 0, 0xFE, 0xCF, 0] ++ [0xFF, 0xFF, 0, 0, 0, 0x1A, 0xCF, 0] ++ [0xFF, 0xFF, 0, 0, 0, 0x12, 0xCF, 0] ++
  [0xFF, 0xFF, 0, 0, 0, 0x98, 0xCF, 0] ++ [0, 0, 0x20, 0, 0, 0x05, 0, 0] ++ [0x07, 0, 0, 0x40, 0, 0x02, 0, 0] ++
  [0x66, 0, 0, 0x70, 0, 0x89, 0x80, 0]

/-- The registers a TSS holds, as bytes 20h to 61h. -/
def imageBytes (i : Image) : List Byte :=
  bytes4 i.eip ++ bytes4 i.eflags ++
    [Reg.eax, .ecx, .edx, .ebx, .esp, .ebp, .esi, .edi].flatMap (fun r => bytes4 (i.regs.get r)) ++
    [i.es, i.cs, i.ss, i.ds, i.fs, i.gs, i.ldt].flatMap fun v => bytes2 v ++ [0, 0]

def regsOf (eax esp : Word) : Gprs := { State.reset.regs with eax := eax, esp := esp }

def imgA : Image :=
  { ldt := 0, eflags := 2, eip := 0xA00A, regs := regsOf 0x18 0xFFF0, es := 0x10, cs := 8, ss := 0x10, ds := 0x10, fs := 0x10
    gs := 0x10, pdbr := 0 }
def imgB : Image :=
  { ldt := 0x30, eflags := 2, eip := 0xB000, regs := regsOf 0x11111111 0xBFF0, es := 0x10, cs := 8, ss := 0x10, ds := 0x10
    fs := 0, gs := 0x10, pdbr := 0 }
def imgC : Image := { imgB with eip := 0xC000, regs := regsOf 0x33333333 0xCFF0, ldt := 0 }

def gate (v : Byte) : List Byte := [0, 0, v, 0, 0, 0x85, 0, 0]

/-- Memory with B's TSS as given: task gates to C in the IDT at vectors 1, 3, 4, 6, 13 and 32, to B at 33, an interrupt gate at 34, a
gate that is not present at 35. -/
def memWith (b : Image) : Memory :=
  cells 0x1000 gdtBytes ++ cells 0x2020 (imageBytes imgA) ++ cells 0x3020 (imageBytes b) ++ cells 0x5020 (imageBytes imgC) ++
    cells 0x6008 (gate 0x38) ++ cells 0x6018 (gate 0x38 ++ gate 0x38) ++ cells 0x6030 (gate 0x38) ++ cells 0x6068 (gate 0x38) ++
    cells 0x6100 (gate 0x38 ++ gate 0x20) ++ cells 0x6110 ([0, 0, 8, 0, 0, 0x8E, 0, 0] ++ [0, 0, 0x38, 0, 0, 0x05, 0, 0])

def seg (v : Sel) (access : Byte) : SegReg := { sel := v, cache := .flat access }

/-- Task A runs, with B's TSS as given. -/
def taskA (b : Image) : State :=
  { State.reset with
    regs := regsOf 0x18 0xFFF0
    eip := 0xA000
    segs :=
      { es := seg 0x10 0x92, cs := seg 8 0x9A, ss := seg 0x10 0x92, ds := seg 0x10 0x92, fs := seg 0x10 0x92
        gs := seg 0x10 0x92 }
    gdt := { base := 0x1000, limit := 0x97 }
    idt := { base := 0x6000, limit := 0x7FF }
    tr := { valid := true, sel := 0x18, base := 0x2000, limit := 0x67 }
    mem := memWith b }

def stA : State := taskA imgB

/-- Before LTR: A's descriptor is not busy, TR has never been loaded. -/
def boot : State := { stA with tr := State.reset.tr, mem := Memory.write stA.mem 0x101D 0x89 }

/-- Task B runs nested in A: NT set, back-link 18h, B busy. -/
def nested : State :=
  { stA with
    eip := 0xB000
    eflags := 0x4002
    tr := { valid := true, sel := 0x20, base := 0x3000, limit := 0x67 }
    mem := fill (Memory.write stA.mem 0x1025 0x8B) 0x3000 [0x18, 0] }

def ldtB : LdtReg := { sel := 0x30, usable := true, base := 0x4000, limit := 7 }
def noLdt : LdtReg := { sel := 0, usable := false, base := 0, limit := 0 }

def dA : Descriptor := 0x00008B0020000067
def dB : Descriptor := 0x0000890030000067
def dC : Descriptor := 0x0000890050000067

/-- The state an outcome leaves, if it is a next state that meets a condition. -/
def nextIs (p : State → Bool) (o : Host.Outcome State Fault Refusal) : Bool :=
  match o with
  | .next s => p s
  | .fault _ | .refused _ => false

/-- The exception an outcome stops with. -/
def raisedIn (o : Host.Outcome State Fault Refusal) : Option Raise :=
  match o with
  | .fault (.raised r _) => some r
  | .fault (.raisedDuringDelivery _ r _) => some r
  | .next _ | .refused _ => none

/-- A state in which every exception is terminal: an empty IDT. -/
def noIdt (s : State) : State := { s with idt := { base := 0, limit := 0 } }

/-! ### Steps: expected results from the worked examples of the rules -/

/-- 40 R110, its example: TR 18h, base 2000h, limit 67h, the descriptor 8Bh, EIP + 3. -/
theorem test_ltr_example :
    nextIs (fun t => t.tr == { valid := true, sel := 0x18, base := 0x2000, limit := 0x67 } &&
      Memory.read t.mem 0x101D == 0x8B && t.eip == 0xA003) (exec (.ltr [] (.reg .eax)) boot) = true := by decide
/-- 40 R110: an already busy descriptor. -/
theorem test_ltr_busy :
    raisedIn (exec (.ltr [] (.reg .eax)) (noIdt stA)) = some { exc := .gp, code := some 0x18, ctx := .before } := by decide
/-- 40 R111, its example: EBX = FFFFFFFFh becomes FFFF0020h. -/
theorem test_str_example :
    nextIs (fun t => t.regs.ebx == 0xFFFF0020)
      (exec (.str [] (.reg .ebx)) { nested with regs := { nested.regs with ebx := 0xFFFFFFFF } }) = true := by decide
theorem test_str_mem :
    nextIs (fun t => Memory.read t.mem 0x9000 == 0x18 && Memory.read t.mem 0x9001 == 0)
      (exec (.str [] (.mem (.a32 (.direct 0x9000)))) stA) = true := by decide
/-- 41 R121 to R147 for JMP: busy bits 89h and 8Bh, the saved EIP, NT clear, TS set. -/
theorem test_jmp_ptr32 :
    nextIs (fun t => t.eip == 0xB000 && Memory.read t.mem 0x101D == 0x89 && Memory.read t.mem 0x1025 == 0x8B &&
      Memory.read t.mem 0x2020 == 0x07 && t.ts && !flagNt t.eflags) (exec (.jmpPtr32 [] 0 0x20) stA) = true := by decide
/-- 41 R123, its example: CPL 0, RPL 3, DPL 0. -/
theorem test_jmp_privilege :
    raisedIn (exec (.jmpPtr32 [] 0 0x23) (noIdt stA)) = some { exc := .gp, code := some 0x20, ctx := .outgoing } := by decide
theorem test_jmp_ptr16 :
    nextIs (fun t => t.regs.eax == 0x11111111 && t.tr.base == 0x3000) (exec (.jmpPtr16 [.opSize] 7 0x20) stA) = true := by decide
theorem test_jmp_mem :
    nextIs (fun t => t.tr.sel == 0x38 && Memory.read t.mem 0x2020 == 0x06)
      (exec (.jmpMem [] .s32 (.a32 (.direct 0x9000))) { stA with mem := fill stA.mem 0x9000 [1, 2, 3, 4, 0x38, 0] }) = true := by
  decide
/-- 41 R121 to R147 for CALL through a gate: the caller stays busy, NT set, back-link 18h. -/
theorem test_call_ptr32 :
    nextIs (fun t => Memory.read t.mem 0x101D == 0x8B && flagNt t.eflags && Memory.read t.mem 0x3000 == 0x18 &&
      t.tr.sel == 0x20) (exec (.callPtr32 [] 0 0x28) stA) = true := by decide
/-- 41 R164: a call to the current task. -/
theorem test_call_self :
    raisedIn (exec (.callPtr32 [] 0 0x18) (noIdt stA)) = some { exc := .gp, code := some 0x18, ctx := .outgoing } := by decide
theorem test_call_ptr16 :
    nextIs (fun t => t.tr.sel == 0x20 && flagNt t.eflags) (exec (.callPtr16 [.opSize] 0 0x20) stA) = true := by decide
theorem test_call_mem :
    nextIs (fun t => t.tr.sel == 0x20 && Memory.read t.mem 0x2020 == 0x07)
      (exec (.callMem [.opSize] .s16 (.a32 (.direct 0x9000))) { stA with mem := fill stA.mem 0x9000 [1, 2, 0x20, 0] }) = true := by
  decide
/-- 42 R174: the return leaves B not busy with saved NT 0, and A as saved. -/
theorem test_iret :
    nextIs (fun t => t.tr.sel == 0x18 && t.eip == 0xA00A && Memory.read t.mem 0x1025 == 0x89 &&
      Memory.read t.mem 0x3025 == 0x00 && Memory.read t.mem 0x3020 == 0x01) (exec (.iret []) nested) = true := by decide
/-- 41 R130: a back-link to a task that is not busy. -/
theorem test_iret_not_busy :
    raisedIn (exec (.iret []) (noIdt { nested with mem := Memory.write nested.mem 0x101D 0x89 })) =
      some { exc := .ts, code := some 0x18, ctx := .outgoing } := by decide
/-- 42 R176 at CPL 0, where the open DPL check always passes. -/
theorem test_int :
    nextIs (fun t => t.tr.sel == 0x38 && Memory.read t.mem 0x5000 == 0x18 && Memory.read t.mem 0x2020 == 0x02)
      (exec (.intImm [] 0x20) stA) = true := by decide
theorem test_int_not_present :
    raisedIn (exec (.intImm [] 0x23) (noIdt stA)) = none ∧
      raisedIn (exec (.intImm [] 0x23) { stA with idt := { base := 0x6000, limit := 0x11F }, mem := Memory.write stA.mem 0x605D 0x8E }) =
        some { exc := .np, code := some 0x11A, ctx := .outgoing } := by decide
theorem test_int3 : nextIs (fun t => t.eip == 0xC000 && Memory.read t.mem 0x2020 == 0x01) (exec (.int3 []) stA) = true := by decide
theorem test_into : nextIs (fun t => t.eip == 0xC000 && flagNt t.eflags) (exec (.into []) { stA with eflags := 0x802 }) = true := by
  decide
theorem test_into_no_overflow : nextIs (fun t => t.eip == 0xA001 && t.tr == stA.tr) (exec (.into []) stA) = true := by decide
/-- 41 R151, its examples: `c = 0040` with access FA, and `c = 0010` with access 92. -/
theorem test_cs_rpl :
    raisedIn (exec (.jmpPtr32 [] 0 0x20) (noIdt (taskA { imgB with cs := 0x40 }))) =
      some { exc := .ts, code := some 0x40, ctx := .incoming } := by decide
theorem test_cs_data :
    raisedIn (exec (.jmpPtr32 [] 0 0x20) (noIdt (taskA { imgB with cs := 0x10 }))) =
      some { exc := .ts, code := some 0x10, ctx := .incoming } := by decide
/-- 41 R152, its examples: `s = 0013` with access 92, `s = 0048` with access F2. -/
theorem test_ss_rpl :
    raisedIn (exec (.jmpPtr32 [] 0 0x20) (noIdt (taskA { imgB with ss := 0x13 }))) =
      some { exc := .gp, code := some 0x10, ctx := .incoming } := by decide
theorem test_ss_dpl :
    raisedIn (exec (.jmpPtr32 [] 0 0x20) (noIdt (taskA { imgB with ss := 0x48 }))) =
      some { exc := .sf, code := some 0x48, ctx := .incoming } := by decide
/-- 41 R153, its example: `v = 0038` picking a TSS descriptor. -/
theorem test_ds_tss :
    raisedIn (exec (.jmpPtr32 [] 0 0x20) (noIdt (taskA { imgB with ds := 0x38 }))) =
      some { exc := .gp, code := some 0x38, ctx := .incoming } := by decide
/-- 41 R131, its example: LIMIT 66h. -/
theorem test_limit :
    raisedIn (exec (.jmpPtr32 [] 0 0x50) (noIdt stA)) = some { exc := .ts, code := some 0x50, ctx := .outgoing } := by decide
/-- 60 R190 through a task gate, error code pushed (42 R182): C's ESP is CFF0h. -/
theorem test_exception_pushes :
    nextIs (fun t => t.tr.sel == 0x38 && t.regs.esp == 0xCFEC && Memory.read t.mem 0xCFEC == 0x20)
      (exec (.jmpPtr32 [] 0 0x23) stA) = true := by decide
theorem test_step_external : nextIs (fun t => t.tr.sel == 0x38) (step { stA with extInts := [some 0x20] }) = true := by decide
theorem test_step_fetch :
    nextIs (fun t => t.tr.sel == 0x20) (step { stA with mem := fill stA.mem 0xA000 [0xEA, 0, 0, 0, 0, 0x20, 0] }) = true := by decide
theorem test_step_many_prefixes :
    nextIs (fun t => t.eip == 0xA011) (step { stA with mem := fill stA.mem 0xA000 (List.replicate 16 0xF0 ++ [0xCE]) }) = true := by decide
theorem test_fetch_word : nextIs (fun t => t.eip == 1) (step (State.reset.withFetchWord 8 0xCE)) = true := by decide

/-! ### Deciding the hypotheses of the statements -/

/-- `LoadReady` with paging off, as a check. -/
def loadCheck (c : Cause) (sel : Sel) (d : Descriptor) (img : Image) (ldt : LdtReg) (retEip : Word) (s : State) : Bool :=
  !s.pg && (s.tr.valid && !selNull sel && !selTi sel && decide (s.desc sel = .found d) && isTss d && descPresent d &&
    (isBusy d == !setsIncomingBusy c) && (!descG d || decide (103 ≤ (rawLimit d).toNat)) &&
    decide (103 ≤ (effectiveLimit d).toNat)) &&
    decide (loadImage s.xlat s.mem (descBase d) = some img) &&
    apart (span (descBase d + 0x1C#32) 0x4A) (switchAddrs c sel (descBase d) retEip s) &&
    img.sels.all fun v => selNull v || apart (descAddrs s ldt v) (switchAddrs c sel (descBase d) retEip s)

theorem loadReady_of_check {c : Cause} {sel : Sel} {d : Descriptor} {img : Image} {ldt : LdtReg} {retEip : Word} {s : State}
    (h : loadCheck c sel d img ldt retEip s = true) : LoadReady c sel d img ldt retEip s := by
  simp only [loadCheck, Bool.and_eq_true, Bool.not_eq_true', decide_eq_true_eq, Bool.or_eq_true, List.all_eq_true,
    beq_iff_eq] at h
  obtain ⟨⟨⟨⟨hpg, ⟨⟨⟨⟨⟨⟨⟨⟨h1, h2⟩, h3⟩, h4⟩, h5⟩, h6⟩, h7⟩, h8⟩, h9⟩⟩, himg⟩, ha⟩, hd⟩ := h
  refine
    { flat := Xlat.flatUnder_of_pg_off hpg _ _, flatNew := Xlat.flatUnder_of_pg_off hpg _ _
      target := ⟨h1, h2, h3, h4, h5, h6, h7, fun hg => h8.resolve_left (by simp [hg]), h9⟩
      image := himg, tssApart := ha, descApart := fun v hv hn => (hd v hv).resolve_left (by simp [hn]) }

def codeCheck (s : State) (ldt : LdtReg) (c : Sel) : Bool :=
  !selNull c && match s.descIn ldt c with
    | .found d => isCode d && descPresent d &&
        (if isConforming d then decide ((descDpl d).toNat ≤ (selRpl c).toNat) else descDpl d == selRpl c)
    | .outOfBounds | .pageFault => false

theorem codeLoads_of_check {s : State} {ldt : LdtReg} {c : Sel} (h : codeCheck s ldt c = true) : CodeLoads s ldt c := by
  simp only [codeCheck, Bool.and_eq_true, Bool.not_eq_true'] at h
  refine ⟨h.1, ?_⟩
  cases hl : s.descIn ldt c with
  | found d =>
    rw [hl] at h
    obtain ⟨-, ⟨h1, h2⟩, h3⟩ := by simpa only [Bool.and_eq_true] using h
    exact ⟨d, rfl, h1, h2, by split at h3 <;> simp_all⟩
  | outOfBounds | pageFault => simp [hl] at h

def stackCheck (s : State) (ldt : LdtReg) (cpl : BitVec 2) (v : Sel) : Bool :=
  !selNull v && match s.descIn ldt v with
    | .found d => isWritableData d && descPresent d && descDpl d == cpl && selRpl v == cpl
    | .outOfBounds | .pageFault => false

theorem stackLoads_of_check {s : State} {ldt : LdtReg} {cpl : BitVec 2} {v : Sel} (h : stackCheck s ldt cpl v = true) :
    StackLoads s ldt cpl v := by
  simp only [stackCheck, Bool.and_eq_true, Bool.not_eq_true'] at h
  refine ⟨h.1, ?_⟩
  cases hl : s.descIn ldt v with
  | found d =>
    rw [hl] at h
    simp only [Bool.and_eq_true, beq_iff_eq] at h
    exact ⟨d, rfl, h.2.1.1.1, h.2.1.1.2, h.2.1.2, h.2.2⟩
  | outOfBounds | pageFault => simp [hl] at h

def dataCheck (s : State) (ldt : LdtReg) (cpl : BitVec 2) (v : Sel) : Bool :=
  selNull v || match s.descIn ldt v with
    | .found d => descS d && isReadable d && descPresent d && (isConforming d || decide (cpl.toNat ≤ (descDpl d).toNat))
    | .outOfBounds | .pageFault => false

theorem dataLoads_iff_check {s : State} {ldt : LdtReg} {cpl : BitVec 2} {v : Sel} :
    DataLoads s ldt cpl v ↔ dataCheck s ldt cpl v = true := by
  simp only [DataLoads, dataCheck, Bool.or_eq_true]
  cases s.descIn ldt v <;> simp [and_assoc]

def ldtCheck (s : State) (l : Sel) (ldt : LdtReg) : Bool :=
  (selNull l && decide (ldt = { sel := l, usable := false, base := 0, limit := 0 })) ||
    (!selNull l && !selTi l && match s.desc l with
      | .found d => isLdt d && descPresent d &&
          decide (ldt = { sel := l, usable := true, base := descBase d, limit := effectiveLimit d })
      | .outOfBounds | .pageFault => false)

theorem ldtLoads_of_check {s : State} {l : Sel} {ldt : LdtReg} (h : ldtCheck s l ldt = true) : LdtLoads s l ldt := by
  simp only [ldtCheck, Bool.or_eq_true, Bool.and_eq_true, decide_eq_true_eq, Bool.not_eq_true'] at h
  rcases h with h | ⟨⟨h1, h2⟩, h⟩
  · exact .inl h
  · refine .inr ⟨h1, h2, ?_⟩
    cases hl : s.desc l with
    | found d =>
      simp only [hl, Bool.and_eq_true, decide_eq_true_eq] at h
      exact ⟨d, rfl, h.1.1, h.1.2, h.2⟩
    | outOfBounds | pageFault => simp [hl] at h

/-- `SwitchReady` with paging off, as a check. -/
def switchCheck (c : Cause) (sel : Sel) (d : Descriptor) (img : Image) (ldt : LdtReg) (retEip : Word) (s : State) : Bool :=
  loadCheck c sel d img ldt retEip s && !flagVm img.eflags && ldtCheck s img.ldt ldt && codeCheck s ldt img.cs &&
    stackCheck s ldt (selRpl img.cs) img.ss && [img.ds, img.es, img.fs, img.gs].all (dataCheck s ldt (selRpl img.cs))

theorem switchReady_of_check {c : Cause} {sel : Sel} {d : Descriptor} {img : Image} {ldt : LdtReg} {retEip : Word} {s : State}
    (h : switchCheck c sel d img ldt retEip s = true) : SwitchReady c sel d img ldt retEip s := by
  simp only [switchCheck, Bool.and_eq_true, Bool.not_eq_true', List.all_eq_true] at h
  obtain ⟨⟨⟨⟨⟨h1, h2⟩, h3⟩, h4⟩, h5⟩, h6⟩ := h
  exact
    { toLoadReady := loadReady_of_check h1, vmClear := h2, ldtLoads := ldtLoads_of_check h3, code := codeLoads_of_check h4
      stack := stackLoads_of_check h5, data := fun v hv => dataLoads_iff_check.2 (h6 v hv) }

theorem exists_next {o : Host.Outcome State Fault Refusal} {p : State → Bool} (h : nextIs p o = true) :
    ∃ t, o = .next t ∧ p t = true := by
  cases o with
  | next t => exact ⟨t, rfl, h⟩
  | fault | refused => cases h

/-- The exception an operation raises. -/
def raisedBy (o : Run State) : Option Raise :=
  match o with
  | .error (.raised r _) => some r
  | .error (.refused _) | .ok _ => none

theorem exists_raised {o : Run State} {r : Raise} (h : raisedBy o = some r) : ∃ t, o = .error (.raised r t) := by
  cases o with
  | ok t => cases h
  | error e =>
    cases e with
    | raised r' t => exact ⟨t, by rw [Option.some.inj h]⟩
    | refused x => cases h

/-! ### Witnesses: a state and operands that meet the hypotheses of each statement -/

theorem witness_DecodeOfEncode : (Instr.callMem [.opSize, .segment .gs] .s16 (.a32 (.sib .esp (some .edi) 3 (.d32 1)))).wf true = true := by
  decide
theorem witness_DecodedBytesAreTheEncoding : decode true [0xCD, 0x20, 0x90] = .ok (.intImm [] 32) [0x90] := by decide

def farReg : State := { stA with mem := fill stA.mem 0xA000 [0xFF, 0xE8] }
theorem witness_FarPointerInRegisterRaises :
    (0xD8#8).extractLsb' 6 2 = 3#2 ∧ (0xD8#8).extractLsb' 3 3 = 3#3 ∧ (0xE8#8).extractLsb' 6 2 = 3#2 ∧
      (0xE8#8).extractLsb' 3 3 = 5#3 ∧ farReg.debugPending = false ∧ farReg.extInts = [] ∧
      farReg.decoded = .reject .farPointerInRegister := by decide

/-- Bytes at CS:EIP. -/
def atBytes (bs : List Byte) : State := { stA with mem := fill stA.mem 0xA000 bs }

/-- One prefix byte, F0, at each of `n` addresses from `a` on. -/
def allLocks : Nat → Nat → Memory
  | _, 0 => []
  | a, n + 1 => (a, 0xF0) :: allLocks (a + 1) n

theorem read_allLocks (n : Nat) : ∀ a k : Nat, a ≤ k → k < a + n → Memory.read (allLocks a n) k = 0xF0 := by
  induction n with
  | zero => intro a k h1 h2; omega
  | succ n ih =>
    intro a k h1 h2
    rw [allLocks, Memory.read]
    split
    · rfl
    · exact ih _ _ (by omega) (by omega)

/-- A machine with the prefix F0 in every byte of memory. -/
def lockedIn : State := { stA with mem := allLocks 0 (2 ^ 32) }

theorem fetchBytes_lockedIn (n : Nat) : ∀ off, fetchBytes lockedIn n off = (List.replicate n 0xF0, .enough) := by
  induction n with
  | zero => exact fun _ => rfl
  | succ n ih =>
    intro off
    have hl : lockedIn.segs.cs.cache.inLimit off 1 = true := by
      simp only [show lockedIn.segs.cs.cache = .flat 0x9A from rfl, SegCache.inLimit, show (SegCache.flat 0x9A).expandDown = false by decide,
        show (SegCache.flat 0x9A).limit.toNat = 2 ^ 32 - 1 by decide]
      simpa using off.isLt
    have hp : lockedIn.xlat.phys lockedIn.mem (lockedIn.segs.cs.cache.base + off) (.fetch lockedIn.cpl) = some off := by
      rw [Xlat.phys, if_neg (by decide), show lockedIn.segs.cs.cache.base = 0#32 from rfl, BitVec.zero_add]
    have hr : Memory.read lockedIn.mem off.toNat = 0xF0 := read_allLocks _ _ _ (by omega) (by have := off.isLt; omega)
    simp only [fetchBytes, hl, hp, hr, ih, if_true, List.replicate_succ]

theorem takePrefixes_locks (n : Nat) : takePrefixes (List.replicate n 0xF0) = (List.replicate n .lock, []) := by
  induction n with
  | zero => rfl
  | succ n ih => rw [List.replicate_succ, takePrefixes, show prefixOfByte 0xF0 = some .lock by decide, ih, List.replicate_succ]

theorem short_lockedIn : lockedIn.decoded = .short ∧ lockedIn.fetch.2 = .enough := by
  rw [State.decoded, State.fetch, fetchBytes_lockedIn, decode, takePrefixes_locks]
  exact ⟨rfl, rfl⟩

theorem witness_UndecodableBytesAreRefused :
    (prefixOfByte 0x90 = none ∧ (0x90#8) ∉ [0x0F#8, 0xEA#8, 0x9A#8, 0xFF#8, 0xCF#8, 0xCD#8, 0xCC#8, 0xCE#8]) ∧ (0x01#8) ≠ 0x00#8 ∧
      (0xC0#8).extractLsb' 3 3 ∉ [1#3, 3#3] ∧ (0xD0#8).extractLsb' 3 3 ∉ [3#3, 5#3] ∧ stA.debugPending = false ∧ stA.extInts = [] ∧
      (atBytes [0x90]).decoded = .reject (.otherOpcode 0x90) ∧ (atBytes [0x0F, 0x01]).decoded = .reject (.otherOpcode0F 0x01) ∧
      (atBytes [0xFF, 0xD0]).decoded = .reject (.otherGroupMember 0xFF 2) := by decide
theorem witness_UndecodableBytesAreRefused_onlyPrefixes :
    lockedIn.debugPending = false ∧ lockedIn.extInts = [] ∧ lockedIn.decoded = .short ∧ lockedIn.fetch.2 = .enough :=
  ⟨rfl, rfl, short_lockedIn⟩

def atCE : State := { stA with mem := fill stA.mem 0xA000 [0xCE] }
theorem witness_StepRunsTheStoredInstruction :
    atCE.debugPending = false ∧ atCE.extInts = [] ∧ (Instr.into []).wf atCE.segs.cs.cache.big = true ∧
      ∀ (k : Nat) (b : Byte), (encode (.into []))[k]? = some b →
        atCE.segs.cs.cache.inLimit (atCE.eip + BitVec.ofNat 32 k) 1 = true ∧
          ∃ p, atCE.xlat.phys atCE.mem (atCE.segs.cs.cache.base + (atCE.eip + BitVec.ofNat 32 k)) (.fetch atCE.cpl) = some p ∧
            Memory.read atCE.mem p.toNat = b := by
  refine ⟨rfl, rfl, by decide, fun k b h => ?_⟩
  obtain ⟨hk, hb⟩ := List.getElem?_eq_some_iff.1 h
  obtain rfl : k = 0 := by simpa [encode, encodeBody, Instr.pre] using hk
  obtain rfl : b = 0xCE#8 := hb.symm
  exact ⟨by decide, 0xA000, rfl, by decide⟩
theorem witness_StepRunsTheDecodedInstruction :
    atCE.debugPending = false ∧ atCE.extInts = [] ∧ (∃ rest, atCE.decoded = .ok (.into []) rest) ∧
      ({ atCE with extInts := [none] } : State).extInts = none :: [] := by
  obtain ⟨rest, h⟩ := fetchBytes_stored atCE (n := Config.fetchWindow) (by decide) atCE.eip witness_StepRunsTheStoredInstruction.2.2.2
  exact ⟨rfl, rfl, ⟨rest, by rw [State.decoded, State.fetch, h]; rfl⟩, rfl⟩
theorem witness_PendingDebugTrapComesFirst : ({ stA with debugPending := true } : State).debugPending = true := rfl

theorem ready_ext : SwitchReady .int 0x38 dC imgC noLdt stA.eip { stA with extInts := [] } :=
  switchReady_of_check (by decide)
theorem witness_ExternalInterruptSwitches :
    stA.debugPending = false ∧ State.idtEntry { stA with extInts := [] } 0x20 = .found 0x0000850000380000 ∧
      isTaskGate 0x0000850000380000 = true ∧ descPresent 0x0000850000380000 = true ∧
      SwitchReady .int (gateSelector 0x0000850000380000) dC imgC noLdt stA.eip { stA with extInts := [] } ∧
      State.idtEntry { stA with extInts := [] } 0x23 = .found 0x0000050000380000 ∧ isTaskGate 0x0000050000380000 = true ∧
      descPresent 0x0000050000380000 = false :=
  ⟨rfl, by decide, by decide, by decide, ready_ext, by decide, by decide, by decide⟩

theorem witness_InvariantKeptByStep : State.Inv atCE ∧ ∃ t, step atCE = .next t :=
  ⟨by constructor <;> decide, (exists_next (p := fun _ => true) (by decide)).imp fun _ h => h.1⟩

/-! ### The task structures of the small machine are well formed (70 R234) -/

/-- A GDT entry by number. -/
def entry (s : State) (i : Nat) : Lookup := .ofRead (linRead8 s.xlat s.mem .sysRead (s.gdt.base + BitVec.ofNat 32 i * 8#32))

theorem taskAt_entry {s : State} {v : Sel} {d : Descriptor} (h : s.TaskAt v d) :
    0 < (selIndex v).toNat ∧ (selIndex v).toNat * 8 + 7 ≤ s.gdt.limit.toNat ∧ entry s (selIndex v).toNat = .found d ∧
      isTss d = true := by
  obtain ⟨hn, ht, hd, hi⟩ := h
  have e : selOffset v = BitVec.ofNat 32 (selIndex v).toNat * 8#32 := by simp [selOffset, BitVec.ofNat_toNat]
  simp only [State.desc, lookup, ht, Bool.false_eq_true, if_false] at hd
  split at hd
  · rename_i hle
    refine ⟨?_, ?_, by rw [entry, ← e, hd], hi⟩
    · simp only [selNull, selTi, selIndex] at *
      by_contra h0
      have h0' : v.extractLsb' 3 13 = 0#13 := BitVec.eq_of_toNat_eq (by simpa using h0)
      have : v.extractLsb' 2 14 = 0#14 := by
        ext i hi'
        simp only [BitVec.getElem_extractLsb', BitVec.getElem_zero]
        cases i with
        | zero => exact ht
        | succ i =>
          have := congrArg (·.getLsbD i) h0'
          simp only [BitVec.getLsbD_extractLsb', show i < 13 by omega, decide_true, Bool.true_and, BitVec.getLsbD_zero] at this
          rw [← this]
          congr 1
          omega
      simp [this] at hn
    · have hlt := (selIndex v).isLt
      rw [e] at hle
      simp only [BitVec.toNat_mul, BitVec.toNat_ofNat] at hle
      omega
  · cases hd

/-- The TSS descriptors of the GDT, with their numbers. -/
def tasks (s : State) : List (Nat × Descriptor) :=
  (List.range ((s.gdt.limit.toNat + 1) / 8)).filterMap fun i =>
    match entry s i with
    | .found d => if isTss d then some (i, d) else none
    | .outOfBounds | .pageFault => none

theorem mem_tasks {s : State} {v : Sel} {d : Descriptor} (h : s.TaskAt v d) : ((selIndex v).toNat, d) ∈ tasks s := by
  obtain ⟨-, h1, h2, h3⟩ := taskAt_entry h
  refine List.mem_filterMap.2 ⟨(selIndex v).toNat, List.mem_range.2 (by omega), ?_⟩
  rw [h2]
  simp [h3]

def below (a : Word) (n : Nat) (b : Word) (m : Nat) : Bool :=
  decide (a.toNat + n ≤ b.toNat ∧ b.toNat + m ≤ 2 ^ 32) || decide (b.toNat + m ≤ a.toNat ∧ a.toNat + n ≤ 2 ^ 32)

theorem apart_of_check {a b : Word} {n m : Nat} (h : below a n b m = true) : apart (span a n) (span b m) = true := by
  simp only [below, Bool.or_eq_true, decide_eq_true_eq] at h
  rcases h with h | h
  · exact (apart_of_below h.1 h.2).1
  · exact (apart_of_below h.1 h.2).2

/-- With paging off, as a check: no TSS overlaps the GDT or another TSS, and every busy task is one of those given. -/
def tasksCheck (s : State) (l : List Sel) : Bool :=
  !s.pg && ((tasks s).all fun p => below (descBase p.2) 0x68 s.gdt.base (s.gdt.limit.toNat + 1)) &&
    ((tasks s).all fun p => (tasks s).all fun q => p.1 == q.1 || below (descBase p.2) 0x68 (descBase q.2) 0x68) &&
    (tasks s).all fun p => !isBusy p.2 || (l.map fun v => (selIndex v).toNat).contains p.1

theorem tasksWf_of_check {s : State} {l left : List Sel} (h : tasksCheck s (l ++ left) = true)
    (hc : s.tr.valid = true → ∃ d, s.TaskAt s.tr.sel d ∧ descPresent d = true ∧ isBusy d = true ∧ s.tr.base = descBase d ∧
      s.tr.limit = effectiveLimit d)
    (hl : s.Running l) (hn : (l.map selIndex).Nodup) : s.TasksWf l left := by
  rw [tasksCheck, Bool.and_eq_true, Bool.and_eq_true, Bool.and_eq_true, Bool.not_eq_true'] at h
  obtain ⟨⟨⟨hpg, hg⟩, ht⟩, hb⟩ := h
  have hg' (v : Sel) (d : Descriptor) (hv : s.TaskAt v d) := List.all_eq_true.1 hg ((selIndex v).toNat, d) (mem_tasks hv)
  have ht' (v w : Sel) (d e : Descriptor) (hv : s.TaskAt v d) (hw : s.TaskAt w e) :=
    List.all_eq_true.1 (List.all_eq_true.1 ht ((selIndex v).toNat, d) (mem_tasks hv)) ((selIndex w).toNat, e) (mem_tasks hw)
  refine ⟨hc, fun v w d e hv hw hne => ?_, fun v d hv => apart_of_check (hg' v d hv), fun v d p _ _ a _ acc => ?_, hl, hn,
    fun v d hv hbusy => ?_⟩
  · rcases Bool.or_eq_true _ _ ▸ ht' v w d e hv hw with h | h
    · exact absurd (BitVec.eq_of_toNat_eq (beq_iff_eq.1 h)) hne
    · exact apart_of_check h
  · exact (Xlat.phys_of_pg_off (x := s.xlat.under p) hpg _ _ _).trans (Xlat.phys_of_pg_off (x := s.xlat) hpg _ _ _).symm
  · have := List.all_eq_true.1 hb ((selIndex v).toNat, d) (mem_tasks hv)
    simp only [hbusy, Bool.not_true, Bool.false_or, List.contains_iff_mem, List.mem_map] at this
    obtain ⟨w, hw, e⟩ := this
    exact List.mem_map.2 ⟨w, hw, BitVec.eq_of_toNat_eq e⟩

/-- The small machine with a GDT of eighteen entries, in which no two TSSs overlap. -/
def wfGdt (s : State) : State := { s with gdt := { base := 0x1000, limit := 0x8F } }

theorem wf_stA : (wfGdt stA).TasksWf [0x18] [] :=
  tasksWf_of_check (by decide) (fun _ => ⟨dA, by unfold State.TaskAt; decide, by decide, by decide, by decide, by decide⟩)
    ⟨rfl, rfl, by unfold State.Chain; decide⟩ (by decide)
theorem wf_boot : (wfGdt boot).TasksWf [] [] := tasksWf_of_check (by decide) (fun h => by cases h) rfl (by decide)
theorem wf_nested : (wfGdt nested).TasksWf [0x20, 0x18] [] :=
  tasksWf_of_check (by decide)
    (fun _ => ⟨0x00008B0030000067, by unfold State.TaskAt; decide, by decide, by decide, by decide, by decide⟩)
    ⟨rfl, rfl, by decide, by decide, dA, 2, by unfold State.TaskAt; decide, by decide, by decide, by unfold State.Chain; decide⟩
    (by decide)

/-- With paging off memory, physical bytes and translations are as the statement asks. -/
theorem steady_of_pg_off {s : State} (h : s.pg = false) (hm : Memory.wf s.mem = true) (l : List Store) :
    Memory.wf s.mem = true ∧ s.OwnBytes ∧ s.xlat.KeptUnder l s.mem := by
  refine ⟨hm, fun a b acc acc' p q _ _ hp hq => ?_, fun m _ pdbr a acc => ?_⟩
  · rw [Xlat.phys_of_pg_off (x := s.xlat) h] at hp hq
    obtain rfl := Option.some.inj hp
    obtain rfl := Option.some.inj hq
    rfl
  · rw [Xlat.phys_of_pg_off (x := s.xlat.under pdbr) h, Xlat.phys_of_pg_off (x := s.xlat.under pdbr) h]

theorem witness_TaskStructuresStayWellFormed :
    ((wfGdt stA).TasksWf [0x18] [] ∧ (wfGdt stA).desc 0x20 = .found dB ∧ (wfGdt stA).desc 0x18 = .found dA ∧
      (Memory.wf (wfGdt stA).mem = true ∧ (wfGdt stA).OwnBytes ∧
        (wfGdt stA).xlat.KeptUnder (switchStores .call 0x20 (descBase dB) 0 (wfGdt stA)) (wfGdt stA).mem) ∧
      (∃ t, taskSwitch .call 0x20 false 0 (wfGdt stA) = .ok t) ∧
      ∃ r t, r.ctx ≠ .incoming ∧ taskSwitch .jmp 0x18 false 0 (wfGdt stA) = .error (.raised r t)) ∧
    ((wfGdt nested).TasksWf [0x20, 0x18] [] ∧ flagNt (wfGdt nested).eflags = true ∧
      linRead2 (wfGdt nested).xlat (wfGdt nested).mem .sysRead (wfGdt nested).tr.base = some 0x18 ∧
      (wfGdt nested).desc 0x18 = .found dA ∧
      (Memory.wf (wfGdt nested).mem = true ∧ (wfGdt nested).OwnBytes ∧
        (wfGdt nested).xlat.KeptUnder (switchStores .iret 0x18 (descBase dA) 0 (wfGdt nested)) (wfGdt nested).mem) ∧
      ∃ t, taskSwitch .iret 0x18 false 0 (wfGdt nested) = .ok t) ∧
    ((wfGdt boot).TasksWf [] [] ∧ LtrReady [] (.reg .eax) 0x18 0x0000890020000067 0x101D (wfGdt boot) ∧
      (Memory.wf (wfGdt boot).mem = true ∧ (wfGdt boot).OwnBytes ∧
        (wfGdt boot).xlat.KeptUnder [((wfGdt boot).busyByteAddr 0x18, setBusyBit)] (wfGdt boot).mem) ∧
      (wfGdt boot).Chain (flagNt (wfGdt boot).eflags) (descBase 0x0000890020000067) [] ∧
      ∃ t, exec (.ltr [] (.reg .eax)) (wfGdt boot) = .next t) ∧
    let t : State := { wfGdt stA with eip := 0xA003 }
    t.gdt = (wfGdt stA).gdt ∧ t.tr = (wfGdt stA).tr ∧ t.eflags = (wfGdt stA).eflags ∧ t.xlat = (wfGdt stA).xlat ∧
      ∀ a, (wfGdt stA).InStructure a → linRead1 t.xlat t.mem .sysRead a = linRead1 (wfGdt stA).xlat (wfGdt stA).mem .sysRead a ∧
        ∀ p acc, ((wfGdt stA).xlat.under p).phys t.mem a acc = ((wfGdt stA).xlat.under p).phys (wfGdt stA).mem a acc :=
  ⟨⟨wf_stA, by decide, by decide, steady_of_pg_off rfl (by decide) _,
      (taskSwitch_completes false
        (switchReady_of_check (c := .call) (sel := 0x20) (d := dB) (img := imgB) (ldt := ldtB) (by decide))).imp fun _ h => h.1,
      { exc := .gp, code := some 0x18, ctx := .outgoing },
      (exists_raised (by decide)).imp fun _ h => ⟨by decide, h⟩⟩,
    ⟨wf_nested, by decide, by decide, by decide, steady_of_pg_off rfl (by decide) _,
      (taskSwitch_completes (c := .iret) (sel := 0x18) (d := dA) (img := imgA) (ldt := noLdt) (retEip := 0) (s := wfGdt nested) false
        (switchReady_of_check (by decide))).imp fun _ h => h.1⟩,
    ⟨wf_boot, by constructor <;> rfl, steady_of_pg_off rfl (by decide) _, by unfold State.Chain; decide,
      (exists_next (p := fun _ => true) (by decide)).imp fun _ h => h.1⟩,
    rfl, rfl, rfl, rfl, fun _ _ => ⟨rfl, fun _ _ => rfl⟩⟩

theorem witness_LittleEndian :
    linRead1 stA.xlat stA.mem .sysRead 0x1008 = some 0xFF ∧ linRead4 stA.xlat stA.mem .sysRead 0x1018 = some 0x20000067 ∧
      linRead4 stA.xlat stA.mem .sysRead (0x1018 + 4) = some 0x00008B00 ∧ Memory.wf stA.mem = true ∧
      (physStores stA.xlat .sysWrite stA.mem (storeBytes 0xFFFFFFFF (bytes2 0x1234))).Nodup ∧
      (physStores stA.xlat .sysWrite stA.mem (storeBytes 0xFFFFFFFD (bytes4 0x12345678))).Nodup ∧
      (∃ m, linWrite stA.xlat .sysWrite stA.mem 0xFFFFFFFF (bytes2 0x1234) = some m ∧
        ((span 0xFFFFFFFF 2).map fun b => (stA.xlat.phys m b .sysWrite).map BitVec.toNat) =
          (physStores stA.xlat .sysWrite stA.mem (storeBytes 0xFFFFFFFF (bytes2 0x1234))).map some) ∧
      ∃ m, linWrite stA.xlat .sysWrite stA.mem 0xFFFFFFFD (bytes4 0x12345678) = some m ∧
        ((span 0xFFFFFFFD 4).map fun b => (stA.xlat.phys m b .sysWrite).map BitVec.toNat) =
          (physStores stA.xlat .sysWrite stA.mem (storeBytes 0xFFFFFFFD (bytes4 0x12345678))).map some :=
  ⟨by decide, by decide, by decide, by decide, by decide, by decide, ⟨_, rfl, by decide⟩, ⟨_, rfl, by decide⟩⟩
theorem witness_PagingOffMapsToItself : stA.pg = false := rfl

theorem ready_ltr : LtrReady [] (.reg .eax) 0x18 0x0000890020000067 0x101D boot := by
  constructor <;> rfl
theorem ready_ltr_mem :
    LtrReady [] (.mem (.a32 (.direct 0x9000))) 0x18 0x0000890020000067 0x101D { boot with mem := fill boot.mem 0x9000 [0x18, 0] } := by
  constructor
  case operand => exact ⟨by decide, by decide⟩
  all_goals decide
/-- AX as given. -/
def withAx (s : State) (v : Word) : State := { s with regs := { s.regs with eax := v } }
theorem witness_LtrByItsRule :
    LtrReady [] (.reg .eax) 0x18 0x0000890020000067 0x101D boot ∧
      LtrReady [] (.mem (.a32 (.direct 0x9000))) 0x18 0x0000890020000067 0x101D
        { boot with mem := fill boot.mem 0x9000 [0x18, 0] } ∧ ({ boot with cpl := 3 } : State).cpl ≠ 0 ∧
      (boot.cpl = 0 ∧ Operand16 (withAx boot 3) [] (.reg .eax) 3 ∧ selNull 3 = true) ∧
      (Operand16 (withAx boot 0x1C) [] (.reg .eax) 0x1C ∧ selNull 0x1C = false ∧ selTi 0x1C = true) ∧
      (selNull 0x98 = false ∧ selTi 0x98 = false ∧ boot.desc 0x98 = .outOfBounds) ∧
      (boot.desc 0x90 = .found 0x0080890070000066 ∧ isTss 0x0080890070000066 = true) ∧
      (boot.desc 0x28 = .found 0x0000850000200000 ∧ isTss 0x0000850000200000 = false) ∧
      (stA.desc 0x18 = .found dA ∧ isTss dA = true ∧ isBusy dA = true) ∧
      (boot.desc 0x58 = .found 0x0000090080000067 ∧ isTss 0x0000090080000067 = true ∧ isBusy 0x0000090080000067 = false ∧
        descPresent 0x0000090080000067 = false) :=
  ⟨ready_ltr, ready_ltr_mem, by decide, ⟨rfl, by unfold Operand16; decide, by decide⟩, ⟨by unfold Operand16; decide, by decide, by decide⟩,
    by decide, by decide, by decide, by decide, by decide⟩
theorem witness_LtrFrame : ∃ t, exec (.ltr [] (.reg .eax)) boot = .next t := (exists_next test_ltr_example).imp fun _ h => h.1
theorem witness_StrByItsRule :
    stA.tr.valid = true ∧ (stA.segs.get (stA.ref [] (.a32 (.direct 0x9000))).seg).cache.allows 0x9000 2 true = true ∧
      (∃ m, linWrite stA.xlat (.progWrite stA.cpl) stA.mem (stA.linear (stA.ref [] (.a32 (.direct 0x9000)))) (bytes2 stA.tr.sel) =
        some m) ∧ boot.tr.valid = false :=
  ⟨rfl, by decide, linWrite_of_flat (Xlat.flatUnder_of_pg_off rfl _ _) _, rfl⟩
theorem witness_StrFrame :
    (∃ t, exec (.str [] (.reg .ebx)) stA = .next t) ∧ ∃ t, exec (.str [] (.mem (.a32 (.direct 0x9000)))) stA = .next t :=
  ⟨(exists_next (p := fun _ => true) (by decide)).imp fun _ h => h.1, (exists_next test_str_mem).imp fun _ h => h.1⟩
theorem witness_TrMustBeLoadedFirst :
    boot.tr.valid = false ∧ flagNt ({ boot with eflags := 0x4002 } : State).eflags = true := by decide

/-- A far pointer to B and to a gate in memory. -/
def stFar : State := { stA with mem := fill stA.mem 0x9000 [1, 2, 3, 4, 0x20, 0] }
theorem far_mem : FarOperand stFar (.jmpMem [] .s32 (.a32 (.direct 0x9000))) .jmp 0x20 :=
  ⟨rfl, by decide, by decide, by decide⟩
theorem far_ptr (s : State) (v : Sel) : FarOperand s (.callPtr32 [] 0 v) .call v := ⟨rfl, rfl⟩
/-- B's TSS descriptor as entry 0 of an LDT. -/
def inLdt : State := { stA with ldtr := { ldtB with base := 0x1020 } }
theorem witness_TssDescriptorPrivilege :
    FarOperand stA (.callPtr32 [] 0 0x20) .call 0x20 ∧ selNull 0x20 = false ∧ selTi 0x20 = false ∧ stA.desc 0x20 = .found dB ∧
      isTss dB = true ∧ stA.desc 0x23 = .found dB ∧ selTi 4 = true ∧ State.desc inLdt 4 = .found dB :=
  ⟨far_ptr _ _, by decide, by decide, by decide, by decide, by decide, by decide, by decide⟩
theorem witness_TaskGatePrivilege :
    FarOperand stA (.callPtr32 [] 0 0x28) .call 0x28 ∧ selNull 0x28 = false ∧ stA.desc 0x28 = .found 0x0000850000200000 ∧
      isTaskGate 0x0000850000200000 = true ∧ stA.desc 0x80 = .found 0x0000050000200000 ∧ isTaskGate 0x0000050000200000 = true :=
  ⟨far_ptr _ _, by decide, by decide, by decide, by decide, by decide⟩
theorem ready_jmp : SwitchReady .jmp 0x20 dB imgB ldtB (stFar.nextEip (.jmpMem [] .s32 (.a32 (.direct 0x9000)))) stFar :=
  switchReady_of_check (by decide)
theorem ready_call : SwitchReady .call 0x20 dB imgB ldtB (stA.nextEip (.callPtr32 [] 0 0x20)) stA :=
  switchReady_of_check (by decide)
theorem witness_FarTransferToTssCompletes :
    FarOperand stFar (.jmpMem [] .s32 (.a32 (.direct 0x9000))) .jmp 0x20 ∧
      max stFar.cpl.toNat (selRpl 0x20).toNat ≤ (descDpl dB).toNat ∧
      SwitchReady .jmp 0x20 dB imgB ldtB (stFar.nextEip (.jmpMem [] .s32 (.a32 (.direct 0x9000)))) stFar :=
  ⟨far_mem, by decide, ready_jmp⟩
theorem witness_FarTransferThroughGateCompletes :
    FarOperand stA (.callPtr32 [] 0 0x28) .call 0x28 ∧ selNull 0x28 = false ∧ stA.desc 0x28 = .found 0x0000850000200000 ∧
      isTaskGate 0x0000850000200000 = true ∧ descPresent 0x0000850000200000 = true ∧
      max stA.cpl.toNat (selRpl 0x28).toNat ≤ (descDpl 0x0000850000200000).toNat ∧
      SwitchReady .call (gateSelector 0x0000850000200000) dB imgB ldtB (stA.nextEip (.callPtr32 [] 0 0x28)) stA :=
  ⟨far_ptr _ _, by decide, by decide, by decide, by decide, by decide, ready_call⟩
theorem witness_OtherFarTransfersAreRefused :
    FarOperand stA (.callPtr32 [] 0 0) .call 0 ∧ selNull 3 = true ∧ stA.desc 0x98 = .outOfBounds ∧
      stA.desc 8 = .found 0x00CF9A000000FFFF ∧ isTss 0x00CF9A000000FFFF = false ∧ isTaskGate 0x00CF9A000000FFFF = false :=
  ⟨far_ptr _ _, by decide, by decide, by decide, by decide, by decide⟩
theorem witness_OffsetIsNotUsed : FarOperand stFar (.jmpMem [] .s32 (.a32 (.direct 0x9000))) .jmp 0x20 := far_mem
theorem witness_NoReentry :
    FarOperand stA (.callPtr32 [] 0 0x18) .call 0x18 ∧ stA.tr.valid = true ∧ stA.desc 0x18 = .found dA ∧ isTss dA = true ∧
      descPresent dA = true ∧ isBusy dA = true ∧ max stA.cpl.toNat (selRpl 0x18).toNat ≤ (descDpl dA).toNat ∧
      nested.desc 0x28 = .found 0x0000850000200000 ∧ nested.desc (gateSelector 0x0000850000200000) = .found 0x00008B0030000067 ∧
      isBusy 0x00008B0030000067 = true :=
  ⟨far_ptr _ _, by decide, by decide, by decide, by decide, by decide, by decide, by decide, by decide, by decide⟩

theorem witness_BadTargetsRaise :
    stA.tr.valid = true ∧ selNull 3 = true ∧ selTi 0x24 = true ∧ stA.desc 0x98 = .outOfBounds ∧
      (stA.desc 8 = .found 0x00CF9A000000FFFF ∧ isTss 0x00CF9A000000FFFF = false) ∧
      (stA.desc 0x58 = .found 0x0000090080000067 ∧ isTss 0x0000090080000067 = true ∧ descPresent 0x0000090080000067 = false) ∧
      (stA.desc 0x18 = .found dA ∧ isTss dA = true ∧ descPresent dA = true ∧ isBusy dA = true) ∧
      (stA.desc 0x20 = .found dB ∧ isTss dB = true ∧ descPresent dB = true ∧ isBusy dB = false) := by decide
theorem witness_LimitTest :
    stA.tr.valid = true ∧
      (stA.desc 0x50 = .found 0x0000890070000066 ∧ descG 0x0000890070000066 = false ∧ (rawLimit 0x0000890070000066).toNat = 102) ∧
      (stA.desc 0x90 = .found 0x0080890070000066 ∧ descG 0x0080890070000066 = true ∧ (rawLimit 0x0080890070000066).toNat = 102) ∧
      (stA.desc 0x20 = .found dB ∧ (rawLimit dB).toNat = 103) ∧ (isBusy dB = true ↔ Cause.jmp = .iret) := by decide
theorem witness_ContextOfASwitchException :
    (∃ t, taskSwitch .jmp 0x18 false 0 stA = .error (.raised { exc := .gp, code := some 0x18, ctx := .outgoing } t)) ∧
      ∃ t, taskSwitch .jmp 0x20 false 0 (taskA { imgB with ss := 0x13 }) =
        .error (.raised { exc := .gp, code := some 0x10, ctx := .incoming } t) ∧
      (taskA { imgB with ss := 0x13 }).desc 0x20 = .found dB ∧ Memory.wf (taskA { imgB with ss := 0x13 }).mem = true ∧
      (switchAddrs .jmp 0x20 (descBase dB) 0 (taskA { imgB with ss := 0x13 })).Nodup ∧
      (taskA { imgB with ss := 0x13 }).xlat.FlatUnder (switchStores .jmp 0x20 (descBase dB) 0 (taskA { imgB with ss := 0x13 }))
        (taskA { imgB with ss := 0x13 }).mem :=
  ⟨exists_raised (by decide), (exists_raised (by decide)).imp fun _ h =>
    ⟨h, by decide, by decide, by decide, Xlat.flatUnder_of_pg_off rfl _ _⟩⟩

theorem load_ready {b : Image} {ldt : LdtReg} (h : loadCheck .jmp 0x20 dB b ldt 0 (taskA b) = true) :
    LoadReady .jmp 0x20 dB b ldt 0 (taskA b) := loadReady_of_check h
theorem witness_LdtTests :
    (LoadReady .jmp 0x20 dB { imgB with ldt := 0x34 } noLdt 0 (taskA { imgB with ldt := 0x34 }) ∧ selTi 0x34 = true) ∧
      (LoadReady .jmp 0x20 dB { imgB with ldt := 0x98 } noLdt 0 (taskA { imgB with ldt := 0x98 }) ∧
        (taskA { imgB with ldt := 0x98 }).desc 0x98 = .outOfBounds) ∧
      (LoadReady .jmp 0x20 dB { imgB with ldt := 0x10 } noLdt 0 (taskA { imgB with ldt := 0x10 }) ∧
        (taskA { imgB with ldt := 0x10 }).desc 0x10 = .found 0x00CF92000000FFFF ∧ isLdt 0x00CF92000000FFFF = false) ∧
      (LoadReady .jmp 0x20 dB { imgB with ldt := 0x88 } noLdt 0 (taskA { imgB with ldt := 0x88 }) ∧
        (taskA { imgB with ldt := 0x88 }).desc 0x88 = .found 0x0000020040000007 ∧ descPresent 0x0000020040000007 = false) :=
  ⟨⟨load_ready (by decide), by decide⟩, ⟨load_ready (by decide), by decide⟩, ⟨load_ready (by decide), by decide⟩,
    ⟨load_ready (by decide), by decide⟩⟩
theorem ldt_loads (b : Image) (h : ldtCheck (taskA b) b.ldt ldtB = true) : LdtLoads (taskA b) b.ldt ldtB := ldtLoads_of_check h
theorem witness_CodeSegmentTests :
    (LoadReady .jmp 0x20 dB { imgB with cs := 0x60 } ldtB 0 (taskA { imgB with cs := 0x60 }) ∧ flagVm imgB.eflags = false ∧
      LdtLoads (taskA { imgB with cs := 0x60 }) 0x30 ldtB ∧
      (taskA { imgB with cs := 0x60 }).descIn ldtB 0x60 = .found 0x00CFFE000000FFFF ∧ isCode 0x00CFFE000000FFFF = true ∧
      descPresent 0x00CFFE000000FFFF = true ∧ isConforming 0x00CFFE000000FFFF = true ∧
      (selRpl 0x60).toNat < (descDpl 0x00CFFE000000FFFF).toNat) ∧
    (selNull 3 = true ∧ (taskA imgB).descIn ldtB 0x98 = .outOfBounds) ∧
    ((taskA imgB).descIn ldtB 0x10 = .found 0x00CF92000000FFFF ∧ isCode 0x00CF92000000FFFF = false) ∧
    ((taskA imgB).descIn ldtB 0x68 = .found 0x00CF1A000000FFFF ∧ isCode 0x00CF1A000000FFFF = true ∧
      descPresent 0x00CF1A000000FFFF = false) ∧
    ((taskA imgB).descIn ldtB 0x40 = .found 0x00CFFA000000FFFF ∧ isConforming 0x00CFFA000000FFFF = false ∧
      descDpl 0x00CFFA000000FFFF ≠ selRpl 0x40) :=
  ⟨⟨load_ready (by decide), by decide, ldt_loads { imgB with cs := 0x60 } (by decide), by decide, by decide, by decide, by decide,
    by decide⟩, by decide, by decide, by decide, by decide⟩
theorem witness_StackSegmentTests :
    (LoadReady .jmp 0x20 dB { imgB with ss := 0x13 } ldtB 0 (taskA { imgB with ss := 0x13 }) ∧
      LdtLoads (taskA { imgB with ss := 0x13 }) 0x30 ldtB ∧ CodeLoads (taskA { imgB with ss := 0x13 }) ldtB 8 ∧
      (taskA { imgB with ss := 0x13 }).descIn ldtB 0x13 = .found 0x00CF92000000FFFF ∧
      isWritableData 0x00CF92000000FFFF = true ∧ descPresent 0x00CF92000000FFFF = true ∧
      descDpl 0x00CF92000000FFFF = selRpl 8 ∧ selRpl 0x13 ≠ selRpl 8) ∧
    (selNull 3 = true ∧ (taskA imgB).descIn ldtB 0x98 = .outOfBounds) ∧
    ((taskA imgB).descIn ldtB 8 = .found 0x00CF9A000000FFFF ∧ isWritableData 0x00CF9A000000FFFF = false) ∧
    ((taskA imgB).descIn ldtB 0x70 = .found 0x00CF12000000FFFF ∧ descPresent 0x00CF12000000FFFF = false) ∧
    ((taskA imgB).descIn ldtB 0x48 = .found 0x00CFF2000000FFFF ∧ descDpl 0x00CFF2000000FFFF ≠ selRpl 8) :=
  ⟨⟨load_ready (by decide), ldt_loads { imgB with ss := 0x13 } (by decide), codeLoads_of_check (by decide), by decide, by decide,
    by decide, by decide, by decide⟩, by decide, by decide, by decide, by decide⟩
theorem witness_DataSegmentTests :
    LoadReady .jmp 0x20 dB { imgB with ds := 0x78, fs := 0x70 } ldtB 0 (taskA { imgB with ds := 0x78, fs := 0x70 }) ∧
      LdtLoads (taskA { imgB with ds := 0x78, fs := 0x70 }) 0x30 ldtB ∧
      CodeLoads (taskA { imgB with ds := 0x78, fs := 0x70 }) ldtB 8 ∧
      StackLoads (taskA { imgB with ds := 0x78, fs := 0x70 }) ldtB (selRpl 8) 0x10 ∧
      ¬DataLoads (taskA { imgB with ds := 0x78, fs := 0x70 }) ldtB (selRpl 8) 0x78 :=
  ⟨load_ready (by decide), ldt_loads { imgB with ds := 0x78, fs := 0x70 } (by decide), codeLoads_of_check (by decide),
    stackLoads_of_check (by decide), fun h => absurd (dataLoads_iff_check.1 h) (by decide)⟩
theorem witness_VirtualModeImageIsRefused :
    LoadReady .jmp 0x20 dB { imgB with eflags := 0x20002 } ldtB 0 (taskA { imgB with eflags := 0x20002 }) ∧
      (0x20002#32).getLsbD 17 = true := ⟨load_ready (by decide), by decide⟩

theorem ready_int : SwitchReady .int 0x38 dC imgC noLdt (stA.nextEip (.int3 [])) stA := switchReady_of_check (by decide)
theorem ready_iret : SwitchReady .iret 0x18 dA imgA noLdt (nested.nextEip (.iret [])) nested := switchReady_of_check (by decide)
theorem switch_ok : ∃ t, taskSwitch .jmp 0x20 false (stFar.nextEip (.jmpMem [] .s32 (.a32 (.direct 0x9000)))) stFar = .ok t :=
  (taskSwitch_completes false ready_jmp).imp fun _ h => h.1
theorem witness_EverySwitchSetsTs :
    ∃ t, taskSwitch .jmp 0x20 false (stFar.nextEip (.jmpMem [] .s32 (.a32 (.direct 0x9000)))) stFar = .ok t := switch_ok
theorem witness_NestedTaskFlag :
    (∃ t, taskSwitch .jmp 0x20 false (stFar.nextEip (.jmpMem [] .s32 (.a32 (.direct 0x9000)))) stFar = .ok t) ∧
      (∃ t, taskSwitch .call 0x20 false (stA.nextEip (.callPtr32 [] 0 0x20)) stA = .ok t) ∧
      (∃ t, taskSwitch .int 0x38 false (stA.nextEip (.int3 [])) stA = .ok t) ∧
      ∃ t, taskSwitch .iret 0x18 false (nested.nextEip (.iret [])) nested = .ok t :=
  ⟨switch_ok, (taskSwitch_completes false ready_call).imp fun _ h => h.1,
    (taskSwitch_completes false ready_int).imp fun _ h => h.1, (taskSwitch_completes false ready_iret).imp fun _ h => h.1⟩
theorem witness_SwitchStoresItsFields :
    stA.xlat.FlatUnder (switchStores .call 0x20 (descBase dB) (stA.nextEip (.callPtr32 [] 0 0x20)) stA) stA.mem ∧
      Memory.wf stA.mem = true ∧ stA.desc 0x20 = .found dB ∧
      (switchAddrs .call 0x20 (descBase dB) (stA.nextEip (.callPtr32 [] 0 0x20)) stA).Nodup ∧
      (switchAddrs .jmp 0x20 (descBase dB) 0 stA).Nodup :=
  ⟨Xlat.flatUnder_of_pg_off rfl _ _, by decide, by decide, by decide, by decide⟩
theorem witness_SwitchFrame :
    ∃ t, taskSwitch .jmp 0x20 false (stFar.nextEip (.jmpMem [] .s32 (.a32 (.direct 0x9000)))) stFar = .ok t := switch_ok
theorem witness_CompletedSwitchesMeetNoMissingPage :
    (∃ t, taskSwitch .jmp 0x20 false (stFar.nextEip (.jmpMem [] .s32 (.a32 (.direct 0x9000)))) stFar = .ok t) ∧
      stFar.desc 0x20 = .found dB := ⟨switch_ok, by decide⟩
theorem witness_MissingPagesOfASwitch :
    stA.tr.valid = true ∧ locateTss .jmp 0x20 false stA = .ok dB ∧ locateTss .call 0x20 false stA = .ok dB ∧
      (stA.xlat.phys stA.mem (stA.busyByteAddr stA.tr.sel) .sysWrite).isSome = true ∧
      (stA.xlat.phys stA.mem (stA.tr.base + 0x24#32) .sysRead).isSome = true ∧
      (stA.xlat.phys stA.mem (stA.tr.base + 0x24#32) .sysWrite).isSome = true ∧
      nested.tr.valid = true ∧ locateTss .iret 0x18 false nested = .ok dA ∧
      (nested.xlat.phys nested.mem nested.tr.base .sysRead).isSome = true := by
  decide
theorem witness_PdbrIsReadOnlyWithPaging :
    SwitchReady .jmp 0x20 dB imgB ldtB (stFar.nextEip (.jmpMem [] .s32 (.a32 (.direct 0x9000)))) stFar ∧
      ∃ t, taskSwitch .jmp 0x20 false (stFar.nextEip (.jmpMem [] .s32 (.a32 (.direct 0x9000)))) stFar = .ok t :=
  ⟨ready_jmp, switch_ok⟩

theorem witness_OnlyATaskSwitchChangesTheTask :
    (∃ t, step atCE = .next t ∧ t.ts = false) ∧ ∃ t, step { stA with extInts := [some 0x20] } = .next t :=
  ⟨(exists_next (p := fun t => !t.ts) (by decide)).imp fun _ h => ⟨h.1, by simpa using h.2⟩,
    (exists_next test_step_external).imp fun _ h => h.1⟩
theorem witness_TablesAreShared : ∃ t, step atCE = .next t := witness_InvariantKeptByStep.2
theorem witness_TsIsNeverCleared : ∃ t, step { atCE with cr0 := 8 } = .next t ∧ ({ atCE with cr0 := 8 } : State).ts = true :=
  (exists_next (p := fun _ => true) (by decide)).imp fun _ h => ⟨h.1, by decide⟩

theorem witness_IretReturnsAlongTheBackLink :
    flagNt nested.eflags = true ∧ linRead2 nested.xlat nested.mem .sysRead nested.tr.base = some 0x18 ∧
      SwitchReady .iret 0x18 dA imgA noLdt (nested.nextEip (.iret [])) nested := ⟨by decide, by decide, ready_iret⟩
theorem witness_IretWithinATaskIsRefused : stA.eflags.getLsbD 14 = false := by decide
theorem witness_InterruptInstructionByItsRule :
    IntVector stA (.intImm [] 0x20) 0x20 ∧ IntVector stA (.int3 []) 3 ∧ IntVector { stA with eflags := 0x802 } (.into []) 4 ∧
      (stA.idtEntry 0x20 = .found 0x0000850000380000 ∧ isTaskGate 0x0000850000380000 = true) ∧
      (stA.idtEntry 0x23 = .found 0x0000050000380000 ∧ isTaskGate 0x0000050000380000 = true ∧
        descPresent 0x0000050000380000 = false) ∧
      (stA.idtEntry 0x22 = .found 0x00008E0000080000 ∧ isTaskGate 0x00008E0000080000 = false) ∧ stA.eflags.getLsbD 11 = false :=
  ⟨rfl, rfl, ⟨rfl, by decide⟩, by decide, by decide, by decide, by decide⟩
theorem witness_InterruptInstructionCompletes :
    IntVector stA (.int3 []) 3 ∧ stA.idtEntry 3 = .found 0x0000850000380000 ∧ isTaskGate 0x0000850000380000 = true ∧
      descPresent 0x0000850000380000 = true ∧
      (Config.intGateDplCheck = true → stA.cpl.toNat ≤ (descDpl 0x0000850000380000).toNat) ∧
      SwitchReady .int (gateSelector 0x0000850000380000) dC imgC noLdt (stA.nextEip (.int3 [])) stA :=
  ⟨rfl, by decide, by decide, by decide, fun _ => by decide, ready_int⟩
theorem witness_SwitchingInstructionsFrame :
    causeOf (.int3 []) = some .int ∧ (∃ t, exec (.int3 []) stA = .next t) ∧ (∃ t, exec (.into []) stA = .next t) ∧
      ∃ t, exec (.jmpPtr32 [] 0 0x23) stA = .next t :=
  ⟨rfl, (exists_next test_int3).imp fun _ h => h.1, (exists_next test_into_no_overflow).imp fun _ h => h.1,
    (exists_next test_exception_pushes).imp fun _ h => h.1⟩

theorem ready_exc : SwitchReady .int 0x38 dC imgC noLdt stA.eip (recorded { exc := .gp, code := some 0x20, ctx := .outgoing } stA) :=
  switchReady_of_check (by decide)
theorem ready_debug : SwitchReady .int 0x38 dC imgC noLdt stA.eip (recorded debugTrap stA) := switchReady_of_check (by decide)
theorem witness_ExceptionEntersHandlerTask :
    stA.idtEntry (vectorOf .debug) = .found 0x0000850000380000 ∧ stA.idtEntry (vectorOf .gp) = .found 0x0000850000380000 ∧
      isTaskGate 0x0000850000380000 = true ∧ descPresent 0x0000850000380000 = true ∧
      SwitchReady .int (gateSelector 0x0000850000380000) dC imgC noLdt stA.eip (recorded debugTrap stA) ∧
      SwitchReady .int (gateSelector 0x0000850000380000) dC imgC noLdt stA.eip
        (recorded { exc := .gp, code := some 0x20, ctx := .outgoing } stA) ∧ stA.pg = false ∧
      Memory.wf stA.mem = true ∧ stA.descIn noLdt imgC.ss = .found 0x00CF92000000FFFF ∧
      (SegCache.ofDesc 0x00CF92000000FFFF).allows (imgC.regs.esp - 4#32) 4 true = true :=
  ⟨by decide, by decide, by decide, by decide, ready_debug, ready_exc, rfl, by decide, by decide, by decide⟩
theorem witness_ExceptionFrame :
    (∃ t, deliver { exc := .gp, code := some 0x20, ctx := .outgoing } stA = .next t) ∧
      ∃ t, deliver { exc := .debug, code := none, ctx := .incoming } stA = .next t :=
  ⟨(exists_next (p := fun _ => true) (by decide)).imp fun _ h => h.1,
    (exists_next (p := fun _ => true) (by decide)).imp fun _ h => h.1⟩
theorem witness_OtherDeliveryIsTerminal :
    (noIdt stA).idtEntry (vectorOf .gp) = .outOfBounds ∧ stA.idtEntry (vectorOf .ts) = .found 0 ∧ isTaskGate 0 = false := by
  decide
/-- C is busy. -/
def busyC : State := { stA with mem := Memory.write stA.mem 0x103D 0x8B }
/-- C with ESP 2: no error code fits below it. -/
def imgLow : Image := { imgC with regs := regsOf 0 2 }
def lowStack : State :=
  { stA with mem := cells 0x1000 gdtBytes ++ cells 0x5020 (imageBytes imgLow) ++ cells 0x6068 (gate 0x38) }
/-- 60 R196: the second exception selects nothing and has EXT 1. -/
theorem test_push_fails :
    raisedIn (deliver { exc := .gp, code := some 0, ctx := .before } lowStack) =
      some { exc := .sf, code := some 0x0001, ctx := .incoming } := by decide
theorem witness_SecondExceptionIsTerminal :
    busyC.idtEntry (vectorOf .gp) = .found 0x0000850000380000 ∧ isTaskGate 0x0000850000380000 = true ∧
      (∃ t, enterHandler { exc := .gp, code := some 0, ctx := .before } 0x0000850000380000 busyC =
        .error (.raised { exc := .gp, code := some 0x39, ctx := .outgoing } t)) ∧
      busyC.tr.valid = true ∧ busyC.desc (gateSelector 0x0000850000380000) = .found 0x00008B0050000067 ∧
      isTss 0x00008B0050000067 = true ∧ descPresent 0x00008B0050000067 = true ∧ isBusy 0x00008B0050000067 = true ∧
      lowStack.idtEntry (vectorOf .gp) = .found 0x0000850000380000 ∧ descPresent 0x0000850000380000 = true ∧
      SwitchReady .int 0x38 dC imgLow noLdt lowStack.eip
        (recorded { exc := .gp, code := some 0, ctx := .before } lowStack) ∧
      lowStack.descIn noLdt imgLow.ss = .found 0x00CF92000000FFFF ∧
      (SegCache.ofDesc 0x00CF92000000FFFF).allows (imgLow.regs.esp - 4#32) 4 true = false :=
  ⟨by decide, by decide, exists_raised (by decide), by decide, by decide, by decide, by decide, by decide, by decide, by decide,
    switchReady_of_check (by decide), by decide, by decide⟩

/-- What IRET gives right after a CALL. -/
def returned (o : Host.Outcome State Fault Refusal) : Bool :=
  match o with
  | .next t => match returnToLink (t.nextEip (.iret [])) t with
    | .ok _ => true
    | .error _ => false
  | .fault _ | .refused _ => false
theorem exists_returned {o : Host.Outcome State Fault Refusal} (h : returned o = true) :
    ∃ t u, o = .next t ∧ returnToLink (t.nextEip (.iret [])) t = .ok u := by
  cases o with
  | next t =>
    cases hu : returnToLink (t.nextEip (.iret [])) t with
    | ok u => exact ⟨t, u, rfl, hu⟩
    | error e => simp [returned, hu] at h
  | fault | refused => cases h
theorem witness_CallThenIretRestoresTheCaller :
    stA.pg = false ∧ Memory.wf stA.mem = true ∧ FarOperand stA (.callPtr32 [] 0 0x20) .call 0x20 ∧
      SwitchReady .call 0x20 dB imgB ldtB (stA.nextEip (.callPtr32 [] 0 0x20)) stA ∧ selNull stA.tr.sel = false ∧
      selTi stA.tr.sel = false ∧ stA.desc stA.tr.sel = .found dA ∧ isBusy dA = true ∧ descBase dA = stA.tr.base ∧
      apart (span stA.tr.base 0x68) (span (descBase dB) 0x68) = true ∧
      apart (span stA.tr.base 0x68) (span stA.gdt.base (stA.gdt.limit.toNat + 1)) = true ∧
      apart (span (descBase dB) 0x68) (span stA.gdt.base (stA.gdt.limit.toNat + 1)) = true ∧
      max stA.cpl.toNat (selRpl 0x20).toNat ≤ (descDpl dB).toNat ∧
      ∃ t u, exec (.callPtr32 [] 0 0x20) stA = .next t ∧ returnToLink (t.nextEip (.iret [])) t = .ok u :=
  ⟨rfl, by decide, far_ptr _ _, ready_call, by decide, by decide, by decide, by decide, by decide, by decide, by decide, by decide,
    by decide, exists_returned (by decide)⟩

end Sys2Proof.Tests
end

section
/-! PROOFS. How an instruction ends, said once: a run that answers a next state is the task switch, the exception taken, or the change of a
few registers that it is. -/

namespace Sys2Proof.Machine

/-! ### Runs that raise before anything has changed -/

/-- A run whose every exception is raised in a context, in the state before (its count of free values apart, log 7). -/
def RaisesBefore {α : Type} (ctx : Context) (s : State) (o : Run α) : Prop := ∀ e, o = .error e → RaisedBefore ctx s e

section RaisesBefore
variable {α β : Type} {ctx : Context} {s : State}

theorem raisesBefore_ok (a : α) : RaisesBefore ctx s (.ok a : Run α) := fun _ h => by cases h

theorem raisesBefore_error {e : Stop} (h : RaisedBefore ctx s e) : RaisesBefore ctx s (.error e : Run α) := fun _ he => by
  cases he
  exact h

theorem raisesBefore_bind {x : Run α} {f : α → Run β} (hx : RaisesBefore ctx s x)
    (hf : ∀ a, x = .ok a → RaisesBefore ctx s (f a)) : RaisesBefore ctx s (x >>= f) := fun e h => by
  rcases run_bind_error.1 h with h | ⟨a, ha, h⟩
  · exact hx e h
  · exact hf a ha e h

theorem raisesBefore_orElse {c : Bool} {e : Stop} (h : RaisedBefore ctx s e) : RaisesBefore ctx s (orElse c e) := fun _ he => by
  obtain ⟨-, rfl⟩ := orElse_error.1 he
  exact h

theorem raisesBefore_orPageFault (o : Option α) : RaisesBefore ctx s (orPageFault ctx s o) := fun _ he => by
  obtain ⟨-, rfl⟩ := orPageFault_error.1 he
  exact raisedBefore_pageFaultIn ctx s

theorem raisesBefore_orPartWay (o : Option α) : RaisesBefore ctx s (orPartWay o) := fun _ he => by
  obtain ⟨-, rfl⟩ := orPartWay_error.1 he
  exact raisedBefore_refused _ _ _

/-- The exception of a failed segment check of an operand. -/
theorem raisedBefore_segFault (r : SReg) (ext : Bool) : RaisedBefore .before s (.raised (segFault r ext) s) := by
  rintro r t h
  cases h
  exact ⟨rfl, rfl⟩

/-- An instruction that raises before anything has changed: it completed, or its exception was taken from the state before. -/
theorem finish_next_of_raisesBefore {o : Run State} {t : State} (ho : RaisesBefore ctx s o) (h : finish o = .next t) :
    o = .ok t ∨ ∃ r s1, SameButChoices s s1 ∧ deliver r s1 = .next t := by
  rcases finish_next h with h | ⟨r, s1, h, hd⟩
  · exact .inl h
  · exact .inr ⟨r, s1, (ho _ h r s1 rfl).2, hd⟩

end RaisesBefore

/-! ### Operands -/

theorem readSelMem_raisesBefore (s : State) (r : Ref) : RaisesBefore .before s (readSelMem s r) :=
  raisesBefore_bind (raisesBefore_orElse (raisedBefore_segFault _ _)) fun _ _ => raisesBefore_orPageFault _

theorem writeSelMem_raisesBefore (s : State) (r : Ref) (v : Sel) : RaisesBefore .before s (writeSelMem s r v) :=
  raisesBefore_bind (raisesBefore_orElse (raisedBefore_segFault _ _)) fun _ _ => raisesBefore_orPageFault _

theorem readSel_raisesBefore (s : State) (pre : List Prefix) (src : RegMem) : RaisesBefore .before s (readSel s pre src) := by
  cases src with
  | reg r => exact raisesBefore_ok _
  | mem m => exact readSelMem_raisesBefore s _

theorem readFarPointer_raisesBefore (s : State) (size : OpSize) (r : Ref) :
    RaisesBefore .before s (readFarPointer s size r) :=
  raisesBefore_bind (raisesBefore_orElse (raisedBefore_segFault _ _)) fun _ _ =>
    raisesBefore_bind (raisesBefore_orPageFault _) fun _ _ => raisesBefore_orPageFault _

theorem writeSelMem_ok {s : State} {r : Ref} {v : Sel} {m : Memory} (h : writeSelMem s r v = .ok m) :
    linWrite s.xlat (.progWrite s.cpl) s.mem (s.linear r) (bytes2 v) = some m := by
  simp only [writeSelMem, run_bind_ok, orPageFault_ok] at h
  exact h.elim fun _ h => h.2

/-! ### LTR and STR (40 R110, R111) -/

theorem locateForLtr_raisesBefore (sel : Sel) (s : State) : RaisesBefore .before s (locateForLtr sel s) := by
  have test {c : Bool} {x : Exc} {code : BitVec 16} : RaisesBefore .before s (orElse c (raising x code .before s)) :=
    raisesBefore_orElse (raisedBefore_raising _ _ _ _)
  refine raisesBefore_bind test fun _ _ => raisesBefore_bind test fun _ _ => ?_
  cases s.desc sel with
  | outOfBounds => exact raisesBefore_error (raisedBefore_raising _ _ _ _)
  | pageFault => exact raisesBefore_error (raisedBefore_pageFaultIn _ _)
  | found d =>
    exact raisesBefore_bind test fun _ _ => raisesBefore_bind test fun _ _ => raisesBefore_bind test fun _ _ =>
      raisesBefore_ok _

/-- LTR takes a selector of the GDT that is not null. -/
theorem locateForLtr_ok {sel : Sel} {s : State} {d : Descriptor} (h : locateForLtr sel s = .ok d) :
    selNull sel = false ∧ selTi sel = false := by
  simp only [locateForLtr, run_bind_ok, orElse_ok, Bool.not_eq_true'] at h
  obtain ⟨-, hn, -, ht, -⟩ := h
  exact ⟨hn, ht⟩

theorem loadTr_raisesBefore (sel : Sel) (d : Descriptor) (s : State) : RaisesBefore .before s (loadTr sel d s) :=
  raisesBefore_bind (raisesBefore_orPageFault _) fun _ _ => raisesBefore_ok _

/-- Loading TR changes TR and memory at the busy bit only. -/
theorem loadTr_ok {sel : Sel} {d : Descriptor} {s t : State} (h : loadTr sel d s = .ok t) :
    ∃ m, StoresOnly s.xlat .sysWrite [(s.busyByteAddr sel, setBusyBit)] s.mem m ∧
      t = { s with mem := m, tr := { valid := true, sel := sel, base := descBase d, limit := effectiveLimit d } } := by
  simp only [loadTr, run_bind_ok, orPageFault_ok, run_pure, Except.ok.injEq] at h
  obtain ⟨m, hm, rfl⟩ := h
  exact ⟨m, runStores_ok hm, rfl⟩

/-- LTR ended: EIP, TR and the busy bit differ, or an exception was taken from the state before. -/
theorem execLtr_next {pre : List Prefix} {src : RegMem} {s t : State} (h : execLtr pre src s = .next t) :
    (∃ sel d m, readSel s pre src = .ok sel ∧ selNull sel = false ∧ selTi sel = false ∧
      StoresOnly s.xlat .sysWrite [(s.busyByteAddr sel, setBusyBit)] s.mem m ∧
      t = { s with
        eip := s.nextEip (.ltr pre src), mem := m
        tr := { valid := true, sel := sel, base := descBase d, limit := effectiveLimit d } }) ∨
    ∃ r s1, SameButChoices s s1 ∧ deliver r s1 = .next t := by
  refine (finish_next_of_raisesBefore (ctx := .before) ?_ h).imp_left fun h => ?_
  · exact raisesBefore_bind (raisesBefore_orElse (raisedBefore_raising _ _ _ _)) fun _ _ =>
      raisesBefore_bind (readSel_raisesBefore s pre src) fun _ _ =>
        raisesBefore_bind (locateForLtr_raisesBefore _ s) fun _ _ =>
          raisesBefore_bind (loadTr_raisesBefore _ _ s) fun _ _ => raisesBefore_ok _
  · simp only [run_bind_ok, run_pure, Except.ok.injEq] at h
    obtain ⟨-, -, sel, hsel, d, hd, s', hs', rfl⟩ := h
    obtain ⟨hn, ht⟩ := locateForLtr_ok hd
    obtain ⟨m, hm, rfl⟩ := loadTr_ok hs'
    exact ⟨sel, d, m, hsel, hn, ht, hm, rfl⟩

/-- STR to a register ended: that register's low half and EIP differ. -/
theorem execStr_reg_next {pre : List Prefix} {r : Reg} {s t : State} (h : execStr pre (.reg r) s = .next t) :
    t = { s with regs := s.regs.set16 r s.tr.sel, eip := s.nextEip (.str pre (.reg r)) } := by
  unfold execStr at h
  cases hv : s.tr.valid <;> simp [hv, run_pure] at h
  exact h.symm

/-- STR to memory ended: EIP and the operand's bytes differ, or an exception was taken from the state before. -/
theorem execStr_mem_next {pre : List Prefix} {m : Mem} {s t : State} (h : execStr pre (.mem m) s = .next t) :
    (∃ m', StoresOnly s.xlat (.progWrite s.cpl) (storeBytes (s.linear (s.ref pre m)) (bytes2 s.tr.sel)) s.mem m' ∧
      t = { s with mem := m', eip := s.nextEip (.str pre (.mem m)) }) ∨
    ∃ r s1, SameButChoices s s1 ∧ deliver r s1 = .next t := by
  refine (finish_next_of_raisesBefore (ctx := .before) ?_ h).imp_left fun h => ?_
  · exact raisesBefore_bind (raisesBefore_orElse (raisedBefore_refused _ _ _)) fun _ _ =>
      raisesBefore_bind (writeSelMem_raisesBefore s _ _) fun _ _ => raisesBefore_ok _
  · simp only [run_bind_ok, run_pure, Except.ok.injEq] at h
    obtain ⟨-, -, m', hm', rfl⟩ := h
    exact ⟨m', linWrite_ok (writeSelMem_ok hm'), rfl⟩

/-! ### The ways into a task switch -/

/-- A run that is a task switch of `s` to some selector, or raises before it in the state before (its count of free values apart, log 7). -/
structure Switches (c : Cause) (ext : Bool) (retEip : Word) (s : State) (o : Run State) : Prop where
  ok : ∀ t, o = .ok t → ∃ sel, taskSwitch c sel ext retEip s = .ok t
  raised : ∀ r t, o = .error (.raised r t) → SameButChoices s t ∨ ∃ sel, taskSwitch c sel ext retEip s = .error (.raised r t)

section Switches
variable {c : Cause} {ext : Bool} {retEip : Word} {s : State}

theorem switches_taskSwitch (sel : Sel) : Switches c ext retEip s (taskSwitch c sel ext retEip s) where
  ok _ h := ⟨sel, h⟩
  raised _ _ h := .inr ⟨sel, h⟩

theorem switches_error {ctx : Context} {e : Stop} (h : RaisedBefore ctx s e) : Switches c ext retEip s (.error e) where
  ok _ h := by cases h
  raised r t he := by
    cases he
    exact .inl (h r t rfl).2

theorem switches_bind {α : Type} {ctx : Context} {x : Run α} {f : α → Run State} (hx : RaisesBefore ctx s x)
    (hf : ∀ a, Switches c ext retEip s (f a)) : Switches c ext retEip s (x >>= f) where
  ok t h := by
    obtain ⟨a, -, h⟩ := run_bind_ok.1 h
    exact (hf a).ok t h
  raised r t h := by
    rcases run_bind_error.1 h with h | ⟨a, -, h⟩
    · exact .inl (hx _ h r t rfl).2
    · exact (hf a).raised r t h

theorem switches_orElse {ctx : Context} {b : Bool} {e : Stop} {o : Run State} (he : RaisedBefore ctx s e)
    (ho : Switches c ext retEip s o) : Switches c ext retEip s (orElse b e >>= fun _ => o) :=
  switches_bind (raisesBefore_orElse he) fun _ => ho

end Switches

theorem farTransfer_switches (c : Cause) (sel : Sel) (nextEip : Word) (s : State) :
    Switches c false nextEip s (farTransfer c sel nextEip s) := by
  have raised (x : Exc) : RaisedBefore .outgoing s (raising x (errCode sel false) .outgoing s) := raisedBefore_raising _ _ _ _
  have refused (x : Refusal) : RaisedBefore .outgoing s (.refused x) := raisedBefore_refused _ _ _
  unfold farTransfer
  refine switches_orElse (refused _) ?_
  cases s.desc sel with
  | outOfBounds => exact switches_error (refused _)
  | pageFault => exact switches_error (raisedBefore_pageFaultIn _ _)
  | found d =>
    dsimp only
    split
    · exact switches_orElse (raised _) (switches_orElse (raised _) (switches_taskSwitch _))
    · split
      · exact switches_orElse (raised _) (switches_orElse (raised _) (switches_taskSwitch _))
      · exact switches_error (refused _)

theorem vectorToTask_switches (n : BitVec 8) (ext dplCheck : Bool) (retEip : Word) (s : State) :
    Switches .int ext retEip s (vectorToTask n ext dplCheck retEip s) := by
  unfold vectorToTask
  cases s.idtEntry n with
  | outOfBounds => exact switches_error (ctx := .outgoing) (raisedBefore_refused _ _ _)
  | pageFault => exact switches_error (raisedBefore_pageFaultIn _ _)
  | found g =>
    dsimp only
    split
    · exact switches_orElse (raisedBefore_raising _ _ _ _) (switches_orElse (raisedBefore_raising _ _ _ _)
        (switches_taskSwitch _))
    · exact switches_error (ctx := .outgoing) (raisedBefore_refused _ _ _)

theorem returnToLink_switches (nextEip : Word) (s : State) : Switches .iret false nextEip s (returnToLink nextEip s) :=
  switches_orElse (ctx := .outgoing) (raisedBefore_refused _ _ _) <|
    switches_bind (raisesBefore_orPageFault _) fun _ =>
      switches_bind (ctx := .outgoing) (raisesBefore_orPartWay _) fun _ => switches_taskSwitch _

theorem farMem_switches (c : Cause) (size : OpSize) (r : Ref) (nextEip : Word) (s : State) :
    Switches c false nextEip s (readFarPointer s size r >>= fun sel => farTransfer c sel nextEip s) :=
  switches_bind (readFarPointer_raisesBefore s size r) fun sel => farTransfer_switches c sel nextEip s

/-- An instruction with a cause is a run that switches with that cause; or it is INTO with OF = 0 (42 R176). -/
theorem exec_of_cause {i : Instr} {c : Cause} (s : State) (hc : causeOf i = some c) :
    (∃ o, exec i s = finish o ∧ Switches c false (s.nextEip i) s o) ∨
      flagOf s.eflags = false ∧ (∃ pre, i = .into pre) ∧ exec i s = .next { s with eip := s.nextEip i } := by
  cases i with
  | ltr | str => cases hc
  | jmpPtr32 pre off v | jmpPtr16 pre off v | callPtr32 pre off v | callPtr16 pre off v =>
    cases hc
    exact .inl ⟨_, rfl, farTransfer_switches _ v _ s⟩
  | jmpMem pre size m | callMem pre size m =>
    cases hc
    exact .inl ⟨_, rfl, farMem_switches _ size (s.ref pre m) _ s⟩
  | iret pre =>
    cases hc
    exact .inl ⟨_, rfl, switches_orElse (ctx := .outgoing) (raisedBefore_refused _ _ _) (returnToLink_switches _ s)⟩
  | intImm | int3 =>
    cases hc
    exact .inl ⟨_, rfl, vectorToTask_switches _ _ _ _ s⟩
  | into pre =>
    cases hc
    cases hf : flagOf s.eflags with
    | false => exact .inr ⟨rfl, ⟨pre, rfl⟩, if_neg (hf ▸ Bool.false_ne_true)⟩
    | true => exact .inl ⟨_, if_pos hf, vectorToTask_switches 4 _ _ _ s⟩

end Sys2Proof.Machine
end

section
/-! PROOFS. How a step ends, what every step keeps, and the invariant (10 R13, R15, R18, R40, R49; 41 R120, R142, R146, R150 to R152). -/

namespace Sys2Proof.Machine

/-! ### What is used up on the way to a task switch -/

/-- `SameTask`, with no debug register but DR6 written (log 12, log 13, log 14, log 32). -/
def UsedUp (s t : State) : Prop := SameTask s t ∧ t.debugRegs = { s.debugRegs with dr6 := t.debugRegs.dr6 }

theorem UsedUp.refl (s : State) : UsedUp s s := ⟨rfl, rfl⟩

/-- The interrupt list, the pending trap and the count of free values are what a boundary and a page fault use up. -/
theorem usedUp_update (s : State) (l : List (Option (BitVec 8))) (b : Bool) (n : Nat) :
    UsedUp s { s with extInts := l, debugPending := b, choices := n } := ⟨rfl, rfl⟩

theorem SameTask.trans {s t u : State} (h : SameTask s t) (h' : SameTask t u) : SameTask s u := Eq.trans h' (by rw [h])

theorem UsedUp.trans {s t u : State} (h : UsedUp s t) (h' : UsedUp t u) : UsedUp s u :=
  ⟨h.1.trans h'.1, h'.2.trans (by rw [h.2])⟩

theorem SameButChoices.usedUp {s t : State} (h : SameButChoices s t) : UsedUp s t := by
  rw [h]
  exact ⟨rfl, rfl⟩

theorem usedUp_recorded (r : Raise) (s : State) : UsedUp s (recorded r s) := by
  refine ⟨?_, ?_⟩
  · rw [recorded_eq]
    rfl
  · unfold recorded
    cases r.exc <;> rfl

/-! ### How a step ends -/

/-- Where the task switch that ends a step may start: in the state before the step, or where a switch from it had raised an exception, but
for what is used up on the way. -/
def SwitchStart (s s0 : State) : Prop :=
  UsedUp s s0 ∨ ∃ c sel ext retEip s1 r s2, UsedUp s s1 ∧ taskSwitch c sel ext retEip s1 = .error (.raised r s2) ∧ UsedUp s2 s0

theorem SwitchStart.after {s s0 s0' : State} (h : SwitchStart s s0) (h' : UsedUp s0 s0') : SwitchStart s s0' := by
  rcases h with h | ⟨c, sel, ext, retEip, s1, r, s2, h1, hr, h2⟩
  · exact .inl (h.trans h')
  · exact .inr ⟨c, sel, ext, retEip, s1, r, s2, h1, hr, h2.trans h'⟩

theorem SwitchStart.before {s s' s0 : State} (h' : UsedUp s s') (h : SwitchStart s' s0) : SwitchStart s s0 := by
  rcases h with h | ⟨c, sel, ext, retEip, s1, r, s2, h1, hr, h2⟩
  · exact .inl (h'.trans h)
  · exact .inr ⟨c, sel, ext, retEip, s1, r, s2, h'.trans h1, hr, h2⟩

/-- The two ends of a step that answers a next state. -/
inductive StepEnds (s : State) : State → Prop where
  /-- No task switch: general registers, EIP, memory and the interrupt list may differ; TR too where LTR ran, and then it names a descriptor
  of the GDT. -/
  | quiet (regs : Gprs) (eip : Word) (tr : TaskReg) (mem : Memory) (l : List (Option (BitVec 8)))
      (hmem : Memory.wf s.mem = true → Memory.wf mem = true)
      (htr : tr = s.tr ∨ (∃ pre src rest, s.decoded = .ok (.ltr pre src) rest) ∧ selTi tr.sel = false ∧ selNull tr.sel = false) :
      StepEnds s { s with regs := regs, eip := eip, tr := tr, mem := mem, extInts := l }
  /-- A completed task switch, after which an error code may have been pushed (log 10). -/
  | switched {c : Cause} {sel : Sel} {ext : Bool} {retEip : Word} {s0 u : State} (regs : Gprs) (mem : Memory)
      (start : SwitchStart s s0) (run : taskSwitch c sel ext retEip s0 = .ok u)
      (hmem : Memory.wf u.mem = true → Memory.wf mem = true) :
      StepEnds s { u with regs := regs, mem := mem }

/-- An exception taken ends in a completed task switch (60 R190, 42 R178, R182). -/
theorem deliver_ends {r : Raise} {s s1 t : State} (hs : SwitchStart s s1) (h : deliver r s1 = .next t) : StepEnds s t := by
  obtain ⟨gate, -, -, h⟩ := deliver_next h
  obtain ⟨u, hu, rfl | ⟨code, -, hp⟩⟩ := enterHandler_ok h
  · exact .switched t.regs t.mem (hs.after (usedUp_recorded r s1)) hu id
  · obtain ⟨m, hm, rfl⟩ := pushErrorCode_ok hp
    exact .switched _ m (hs.after (usedUp_recorded r s1)) hu (linWrite_ok hm).1

/-- A run that is a task switch, or raises before it, ends in a completed task switch, its own or that of its exception. -/
theorem Switches.ends {c : Cause} {ext : Bool} {retEip : Word} {s s' t : State} {o : Run State}
    (ho : Switches c ext retEip s' o) (hs : UsedUp s s') (h : finish o = .next t) : StepEnds s t := by
  rcases finish_next h with h | ⟨r, s1, h, hd⟩
  · obtain ⟨sel, ht⟩ := ho.ok t h
    exact .switched t.regs t.mem (.inl hs) ht id
  · rcases ho.raised r s1 h with h | ⟨sel, h⟩
    · exact deliver_ends (.inl (hs.trans h.usedUp)) hd
    · exact deliver_ends (.inr ⟨c, sel, ext, retEip, s', r, s1, hs, h, .refl s1⟩) hd

theorem execLtr_ends {pre : List Prefix} {src : RegMem} {s t : State} {rest : List Byte}
    (hd : s.decoded = .ok (.ltr pre src) rest) (h : execLtr pre src s = .next t) : StepEnds s t := by
  rcases execLtr_next h with ⟨sel, d, m, -, hn, ht, hm, rfl⟩ | ⟨r, s1, hs, h⟩
  · exact .quiet _ _ _ m _ hm.1 (.inr ⟨⟨pre, src, rest, hd⟩, ht, hn⟩)
  · exact deliver_ends (.inl hs.usedUp) h

theorem execStr_ends {pre : List Prefix} {dst : RegMem} {s t : State} (h : execStr pre dst s = .next t) : StepEnds s t := by
  cases dst with
  | reg r =>
    obtain rfl := execStr_reg_next h
    exact .quiet _ _ _ _ _ id (.inl rfl)
  | mem m =>
    rcases execStr_mem_next h with ⟨m', hm, rfl⟩ | ⟨r, s1, hs, h⟩
    · exact .quiet _ _ _ m' _ hm.1 (.inl rfl)
    · exact deliver_ends (.inl hs.usedUp) h

theorem exec_ends {i : Instr} {s t : State} {rest : List Byte} (hd : s.decoded = .ok i rest) (h : exec i s = .next t) :
    StepEnds s t := by
  cases hc : causeOf i with
  | some c =>
    rcases exec_of_cause s hc with ⟨o, he, ho⟩ | ⟨-, -, he⟩
    · exact ho.ends (.refl s) (he ▸ h)
    · rw [he] at h
      cases h
      exact .quiet _ _ _ _ _ id (.inl rfl)
  | none =>
    cases i with
    | ltr pre src => exact execLtr_ends hd h
    | str pre dst => exact execStr_ends h
    | jmpPtr32 | jmpPtr16 | jmpMem | callPtr32 | callPtr16 | callMem | iret | intImm | int3 | into => cases hc

theorem cutOff_ends {s t : State} (h : cutOff s = .next t) : StepEnds s t := by
  unfold cutOff at h
  split at h
  · cases h
  · exact deliver_ends (.inl (.refl s)) h
  · exact deliver_ends (.inl (usedUp_update _ _ _ _)) h

theorem undecodable_ends {e : DecodeError} {s t : State} (h : undecodable e s = .next t) : StepEnds s t := by
  cases e with
  | farPointerInRegister => exact deliver_ends (.inl (.refl s)) h
  | otherGroupMember | otherOpcode | otherOpcode0F | onlyPrefixes => cases h

theorem stepInstr_ends {s t : State} (h : stepInstr s = .next t) : StepEnds s t := by
  unfold stepInstr at h
  split at h
  · rename_i i rest hd
    exact exec_ends hd h
  · exact cutOff_ends h
  · exact undecodable_ends h

/-- A fetch does not look at the interrupt list. -/
theorem fetchBytes_extInts (s : State) (l : List (Option (BitVec 8))) (n : Nat) (off : Word) :
    fetchBytes { s with extInts := l } n off = fetchBytes s n off := by
  induction n generalizing off with
  | zero => rfl
  | succ n ih =>
    simp only [fetchBytes, ih]
    rfl

theorem decoded_extInts (s : State) (l : List (Option (BitVec 8))) : State.decoded { s with extInts := l } = s.decoded := by
  simp only [State.decoded, State.fetch, fetchBytes_extInts]

theorem StepEnds.of_extInts {s t : State} {l : List (Option (BitVec 8))} (h : StepEnds { s with extInts := l } t) : StepEnds s t := by
  cases h with
  | quiet regs eip tr mem l' hmem htr => exact .quiet regs eip tr mem l' hmem (decoded_extInts s l ▸ htr)
  | switched regs mem start run hmem => exact .switched regs mem (start.before (usedUp_update _ _ _ _)) run hmem

/-- Every step that answers a next state ends in one of the two ways. -/
theorem step_ends {s t : State} (h : step s = .next t) : StepEnds s t := by
  cases hp : s.debugPending with
  | true =>
    simp only [step, State.boundary, hp, if_true] at h
    exact deliver_ends (.inl (usedUp_update _ _ _ _)) h
  | false =>
    cases he : s.extInts with
    | nil => exact stepInstr_ends (step_of_quiet hp he ▸ h)
    | cons e rest =>
      cases e with
      | none => exact (stepInstr_ends (step_of_none hp he ▸ h)).of_extInts
      | some n =>
        simp only [step, State.boundary, hp, he, Bool.false_eq_true, if_false] at h
        exact (vectorToTask_switches n true false _ _).ends (usedUp_update _ _ _ _) h

/-! ### What every step keeps -/

/-- What no operation changes: canonical memory stays so, TS stays set, and PG, the GDT and IDT registers, the test registers and the debug
registers but DR6 are as they were (10 R13, R18, R49). -/
structure Keeps (s t : State) : Prop where
  memWf : Memory.wf s.mem = true → Memory.wf t.mem = true
  ts : s.ts = true → t.ts = true
  pg : t.pg = s.pg
  gdt : t.gdt = s.gdt
  idt : t.idt = s.idt
  testRegs : t.testRegs = s.testRegs
  debugRegs : t.debugRegs = { s.debugRegs with dr6 := t.debugRegs.dr6 }

theorem Keeps.trans {s t u : State} (h : Keeps s t) (h' : Keeps t u) : Keeps s u where
  memWf hm := h'.memWf (h.memWf hm)
  ts ht := h'.ts (h.ts ht)
  pg := h'.pg.trans h.pg
  gdt := h'.gdt.trans h.gdt
  idt := h'.idt.trans h.idt
  testRegs := h'.testRegs.trans h.testRegs
  debugRegs := h'.debugRegs.trans (by rw [h.debugRegs])

theorem UsedUp.keeps {s t : State} (h : UsedUp s t) : Keeps s t := by
  obtain ⟨h, hd⟩ := h
  refine ⟨?_, ?_, ?_, ?_, ?_, ?_, hd⟩ <;> rw [h]
  exacts [id, id, rfl]

theorem ts_of_setTs {s t : State} (h : t.cr0 = setTs s.cr0) : t.ts = true := by
  rw [State.ts, h, setTs_ts]

theorem pg_of_setTs {s t : State} (h : t.cr0 = setTs s.cr0) : t.pg = s.pg := by
  rw [State.pg, h, setTs_other _ (by decide), State.pg]

theorem taskSwitch_keeps {c : Cause} {sel : Sel} {ext : Bool} {retEip : Word} {s t : State}
    (h : taskSwitch c sel ext retEip s = .ok t) : Keeps s t := by
  obtain ⟨d, img, r⟩ := taskSwitch_result h
  exact
    { memWf := r.mem.1, ts := fun _ => ts_of_setTs r.cr0, pg := pg_of_setTs r.cr0, gdt := r.gdt, idt := r.idt
      testRegs := r.testRegs, debugRegs := by rw [r.debugRegs] }

theorem loadTask_keeps {c : Cause} {sel : Sel} {d : Descriptor} {retEip : Word} {s t : State}
    (h : loadTask c sel d retEip s = .ok t) : Keeps s t := by
  have hm := (loadTask_stores h).1
  obtain ⟨m, img, m', -, -, -, -, -, -, rfl⟩ := loadTask_ok.1 h
  exact
    { memWf := hm, ts := fun _ => ts_of_setTs rfl, pg := pg_of_setTs rfl, gdt := rfl, idt := rfl, testRegs := rfl
      debugRegs := rfl }

theorem SameVisible.keeps {s t : State} (h : SameVisible s t) : Keeps s t where
  memWf := h.mem ▸ id
  ts := by rw [State.ts, State.ts, h.cr0]; exact id
  pg := by rw [State.pg, State.pg, h.cr0]
  gdt := h.gdt
  idt := h.idt
  testRegs := h.testRegs
  debugRegs := by rw [h.debugRegs]

/-- A switch that raises keeps as much: it changed nothing, or it loaded the task. -/
theorem taskSwitch_raised_keeps {c : Cause} {sel : Sel} {ext : Bool} {retEip : Word} {s t : State} {r : Raise}
    (h : taskSwitch c sel ext retEip s = .error (.raised r t)) : Keeps s t := by
  rcases taskSwitch_raised h with ⟨-, h⟩ | ⟨d, s1, -, hl, -, hv⟩
  · exact h.usedUp.keeps
  · exact (loadTask_keeps hl).trans hv.keeps

theorem SwitchStart.keeps {s s0 : State} (h : SwitchStart s s0) : Keeps s s0 := by
  rcases h with h | ⟨c, sel, ext, retEip, s1, r, s2, h1, hr, h2⟩
  · exact h.keeps
  · exact (h1.keeps.trans (taskSwitch_raised_keeps hr)).trans h2.keeps

theorem StepEnds.keeps {s t : State} (h : StepEnds s t) : Keeps s t := by
  cases h with
  | quiet regs eip tr mem l hmem =>
    exact { memWf := hmem, ts := id, pg := rfl, gdt := rfl, idt := rfl, testRegs := rfl, debugRegs := rfl }
  | switched regs mem start run hmem =>
    have k := start.keeps.trans (taskSwitch_keeps run)
    exact { k with memWf := fun hs => hmem (k.memWf hs) }

/-- Every step keeps as much. -/
theorem step_keeps {s t : State} (h : step s = .next t) : Keeps s t := (step_ends h).keeps

/-! ### The invariant -/

/-- The cause of a switch decides NT alone: VM is that of the image. -/
theorem flagVm_loadedFlags (c : Cause) (f : Word) : flagVm (loadedFlags c f) = flagVm f := by
  cases c <;> simp [loadedFlags, flagVm, setNt, clearNt]

/-- A completed task switch meets the invariant whatever the state it started in, but for memory. -/
theorem SwitchResult.inv {c : Cause} {sel : Sel} {retEip : Word} {s t : State} {d : Descriptor} {img : Image}
    (h : SwitchResult c sel retEip s t d img) (hm : Memory.wf t.mem = true) : t.Inv := by
  obtain ⟨hcu, hcs, hcx⟩ := h.csCache
  obtain ⟨hsu, hsw, hsl, hsr⟩ := h.ssCache
  exact
    { memWf := hm
      vmClear := by rw [h.eflags, flagVm_loadedFlags, h.vm]
      cplIsRpl := by rw [h.cpl, h.cs]
      csUsable := hcu
      csIsCode := ⟨hcs, hcx⟩
      ssUsable := hsu
      ssWritable := hsw
      ssLevel := ⟨hsl, hsr⟩
      trInGdt := fun _ => by rw [h.tr]; exact h.trSel
      ldtInGdt := h.ldtr }

theorem StepEnds.inv {s t : State} (h : StepEnds s t) (hi : s.Inv) : t.Inv := by
  have hm := h.keeps.memWf hi.memWf
  cases h with
  | quiet regs eip tr mem l hmem htr =>
    refine { hi with memWf := hm, trInGdt := fun hv => ?_ }
    rcases htr with rfl | ⟨-, h⟩
    · exact hi.trInGdt hv
    · exact h
  | switched regs mem start run hmem =>
    obtain ⟨d, img, r⟩ := taskSwitch_result run
    have hu := r.inv ((taskSwitch_keeps run).memWf (start.keeps.memWf hi.memWf))
    exact { hu with memWf := hm }

end Sys2Proof.Machine

open Sys2Proof Sys2Proof.Machine

/-- Settles O11: a step changes nothing of the invariant but what LTR loads, or ends in a completed switch, which meets it by its tests. -/
theorem invariantKeptByStep : Obligations.InvariantKeptByStep := fun _ _ hi h => (step_ends h).inv hi

/-- Settles O44, by the two ends of a step. -/
theorem onlyATaskSwitchChangesTheTask : Obligations.OnlyATaskSwitchChangesTheTask := by
  intro s t h
  cases step_ends h with
  | quiet regs eip tr mem l hmem htr => exact .inl ⟨rfl, rfl, rfl, rfl, rfl, rfl, htr.imp_right And.left⟩
  | switched regs mem start run hmem =>
    refine .inr ⟨_, _, _, _, _, _, run, rfl, ?_⟩
    rcases start with h | ⟨c, sel, ext, retEip, s1, r, s2, h1, hr, h2⟩
    · exact .inl h.1
    · exact .inr ⟨c, sel, ext, retEip, s1, r, s2, h1.1, hr, h2.1⟩

/-- Settles O45: part of what every step keeps. -/
theorem tablesAreShared : Obligations.TablesAreShared := fun _ _ h =>
  have k := step_keeps h
  ⟨k.gdt, k.idt, k.pg, k.testRegs, k.debugRegs⟩

/-- Settles O46: part of what every step keeps. -/
theorem tsIsNeverCleared : Obligations.TsIsNeverCleared := fun _ _ h => (step_keeps h).ts

end

section
/-! PROOFS. What a completed task switch loads and leaves unchanged (10 R22 to R24, R29, R49; 41 R142, R167), and the same for the
instructions that switch. -/

namespace Sys2Proof.Machine

/-- PDBR of an image: the slot of the TSS with paging on, the value in force with paging off (10 R24, 41 R142). -/
theorem loadImage_pdbr {x : Xlat} {m : Memory} {base : Word} {img : Image} (h : loadImage x m base = some img) :
    (if x.pg then linRead4 x m .sysRead (base + tssPdbr) else some x.pdbr) = some img.pdbr := by
  simp only [loadImage, Option.bind_eq_bind, Option.bind_eq_some_iff] at h
  obtain ⟨_, -, _, -, _, -, _, -, _, -, _, -, _, -, _, -, _, -, _, -, h⟩ := h
  split at h
  all_goals
    rename_i hpg
    obtain ⟨pdbr, hp, h⟩ := Option.bind_eq_some_iff.1 h
    cases h
    simpa [hpg] using hp

/-- The offsets of a TSS that step 3 saves to, in the words of 10 R22 and R24: EIP to EDI, and the low halves of the selector slots. -/
theorem mem_savedOffsets_iff : ∀ k < 0x68, k ∈ savedOffsets ↔ ¬(k < 0x20 ∨ 0x60 ≤ k ∨ (0x48 ≤ k ∧ 2 ≤ k % 4)) := by
  decide

/-- A byte of a TSS is saved to exactly when its offset is one of those saved. -/
theorem mem_savedAddrs_iff {c : Cause} {retEip : Word} {s : State} {k : Nat} (hk : k < 0x68) :
    s.tr.base + BitVec.ofNat 32 k ∈ savedAddrs c retEip s ↔ k ∈ savedOffsets := by
  rw [savedAddrs_eq, List.mem_map]
  refine ⟨?_, fun h => ⟨k, h, rfl⟩⟩
  rintro ⟨j, hj, e⟩
  have hlt := savedOffsets_lt j hj
  have e' := congrArg BitVec.toNat ((BitVec.add_right_inj _).1 e)
  simp only [BitVec.toNat_ofNat] at e'
  obtain rfl : j = k := by omega
  exact hj

/-- A completed switch, named by what it left in TR: where it stored, and what it left alone. -/
theorem taskSwitch_frame {c : Cause} {sel : Sel} {ext : Bool} {retEip : Word} {s t : State}
    (h : taskSwitch c sel ext retEip s = .ok t) :
    t.tr.sel = sel ∧ StoresOnly s.xlat .sysWrite (switchStores c t.tr.sel t.tr.base retEip s) s.mem t.mem ∧
      t.gdt = s.gdt ∧ t.idt = s.idt ∧ t.cr0 = setTs s.cr0 ∧ t.cr2 = s.cr2 ∧ t.debugRegs = s.debugRegs ∧
      t.testRegs = s.testRegs ∧ t.extInts = s.extInts ∧ t.choices = s.choices := by
  obtain ⟨d, img, r⟩ := taskSwitch_result h
  rw [r.tr]
  exact ⟨rfl, r.mem, r.gdt, r.idt, r.cr0, r.cr2, r.debugRegs, r.testRegs, r.extInts, r.choices⟩

end Sys2Proof.Machine

open Sys2Proof Sys2Proof.Machine

/-- Settles O39: the parts of `SwitchResult`. -/
theorem switchFrame : Obligations.SwitchFrame := by
  intro c sel ext retEip s t h
  obtain ⟨d, img, r⟩ := taskSwitch_result h
  obtain ⟨m, hm, hi, -⟩ := r.image
  exact ⟨d, m, img, r.found, hm, hi, r.regs, r.eip, r.eflags, r.cpl, r.es, r.cs, r.ss, r.ds, r.fs, r.gs, r.ldtSel, r.pdbr, r.tr,
    r.gdt, r.idt, r.cr0, r.cr2, r.debugRegs, r.testRegs, r.extInts, r.choices, r.mem⟩

/-- Settles O40: the offsets saved to are a fixed list. -/
theorem savedFieldsAreTheRegistersOfTheDynamicSet : Obligations.SavedFieldsAreTheRegistersOfTheDynamicSet := by
  intro c retEip s k hk
  rw [mem_savedAddrs_iff hk, mem_savedOffsets_iff k hk, not_not]

/-- Settles O43: the completed switch loads PDBR from the image that the ready target holds. -/
theorem pdbrIsReadOnlyWithPaging : Obligations.PdbrIsReadOnlyWithPaging := by
  intro c sel ext d img ldt retEip s t hr h
  obtain ⟨t', h', hsw, -⟩ := taskSwitch_of_ready ext hr
  obtain rfl : t' = t := Except.ok.inj (h'.symm.trans h)
  rw [hsw.pdbr]
  exact loadImage_pdbr hr.image

/-- Settles O51: such an instruction is a run that switches with its cause, or INTO with OF = 0. -/
theorem switchingInstructionsFrame : Obligations.SwitchingInstructionsFrame := by
  intro i c s t hc h
  rcases exec_of_cause s hc with ⟨o, he, ho⟩ | ⟨hof, hi, he⟩
  · rcases finish_next (he ▸ h) with h | ⟨r, s1, h, hd⟩
    · obtain ⟨sel, ht⟩ := ho.ok t h
      obtain ⟨rfl, frame⟩ := taskSwitch_frame ht
      exact .inl ⟨ht, frame⟩
    · exact .inr (.inr ⟨r, s1, hd, ho.raised r s1 h⟩)
  · exact .inr (.inl ⟨hof, hi, Host.Outcome.next.inj (h.symm.trans he)⟩)

end

section
/-! PROOFS. The fields of a selector and of a descriptor (10 R16, R31, R32, R41, R47). -/

namespace Sys2Proof.Machine

/-- The bits of a selector but its RPL (10 R16). -/
theorem and_selMask (v : Sel) : v &&& 0xFFFC#16 = v.extractLsb' 2 14 ++ 0#2 := by
  have mask : ∀ i < 16, (0xFFFC#16).getLsbD i = decide (2 ≤ i) := by decide
  refine BitVec.eq_of_getLsbD_eq fun i hi => ?_
  rw [BitVec.getLsbD_and, mask i hi, BitVec.getLsbD_append]
  grind

/-- A null selector is 0 but for its RPL (10 R16). -/
theorem selNull_iff (v : Sel) : selNull v = true ↔ v &&& 0xFFFC#16 = 0#16 := by
  rw [selNull, beq_iff_eq, and_selMask]
  constructor
  · rintro h
    rw [h]
    rfl
  · intro h
    rw [← append_high (v.extractLsb' 2 14) 0#2, h]
    rfl

/-! ### The predicates of the access byte -/

/-- Every predicate of a descriptor, on the bits of its access byte (10 R31, R32, R41, R47). -/
theorem access_predicates (d : Descriptor) :
    (isTaskGate d = true ↔ accessByte d &&& 0x1F#8 = 5#8) ∧
      (isTss d = true ↔ accessByte d &&& 0x1F#8 = 9#8 ∨ accessByte d &&& 0x1F#8 = 11#8) ∧
      (isBusy d = true ↔ accessByte d &&& 0x0F#8 = 11#8) ∧ (isLdt d = true ↔ accessByte d &&& 0x1F#8 = 2#8) ∧
      descS d = (accessByte d).getLsbD 4 ∧ (isCode d = true ↔ accessByte d &&& 0x18#8 = 0x18#8) ∧
      (isData d = true ↔ accessByte d &&& 0x18#8 = 0x10#8) ∧ (isConforming d = true ↔ accessByte d &&& 0x1C#8 = 0x1C#8) ∧
      (isReadable d = true ↔ accessByte d &&& 0x18#8 = 0x10#8 ∨ accessByte d &&& 0x1A#8 = 0x1A#8) ∧
      (isWritableData d = true ↔ accessByte d &&& 0x1A#8 = 0x12#8) := by
  simp only [isTaskGate, isTss, isBusy, isLdt, isConforming, isReadable, isWritableData, isCode, isData, descS, descType]
  generalize accessByte d = b
  revert b
  decide

/-! ### The fields of a descriptor -/

/-- The effective limit as a number: no scaled limit overflows 32 bits (10 R31). -/
theorem effectiveLimit_toNat (d : Descriptor) :
    (effectiveLimit d).toNat = if descG d then (rawLimit d).toNat * 4096 + 4095 else (rawLimit d).toNat := by
  have := (rawLimit d).isLt
  rw [effectiveLimit]
  split <;> simp only [BitVec.toNat_add, BitVec.toNat_mul, BitVec.toNat_setWidth, BitVec.toNat_ofNat] <;> omega

/-- A descriptor of eight bytes, byte 0 lowest (10 R31). -/
def descOf (b0 b1 b2 b3 b4 b5 b6 b7 : Byte) : Descriptor := b7 ++ b6 ++ b5 ++ b4 ++ b3 ++ b2 ++ b1 ++ b0

section DescOf
variable (b0 b1 b2 b3 b4 b5 b6 b7 : Byte)

/-- Each bit of a descriptor is one of its eight bytes'. -/
theorem getLsbD_descOf (i : Nat) : (descOf b0 b1 b2 b3 b4 b5 b6 b7).getLsbD i =
    if i < 8 then b0.getLsbD i else if i < 16 then b1.getLsbD (i - 8) else if i < 24 then b2.getLsbD (i - 16)
    else if i < 32 then b3.getLsbD (i - 24) else if i < 40 then b4.getLsbD (i - 32) else if i < 48 then b5.getLsbD (i - 40)
    else if i < 56 then b6.getLsbD (i - 48) else b7.getLsbD (i - 56) := by
  simp only [descOf, BitVec.getLsbD_append]
  grind

@[simp] theorem accessByte_descOf : accessByte (descOf b0 b1 b2 b3 b4 b5 b6 b7) = b5 := by
  refine BitVec.eq_of_getLsbD_eq fun i hi => ?_
  rw [accessByte, BitVec.getLsbD_extractLsb', getLsbD_descOf]
  grind

theorem descBase_descOf : descBase (descOf b0 b1 b2 b3 b4 b5 b6 b7) = b7 ++ b4 ++ b3 ++ b2 := by
  refine BitVec.eq_of_getLsbD_eq fun i hi => ?_
  simp only [descBase, BitVec.getLsbD_append, BitVec.getLsbD_extractLsb', getLsbD_descOf]
  grind

theorem rawLimit_descOf : rawLimit (descOf b0 b1 b2 b3 b4 b5 b6 b7) = b6.extractLsb' 0 4 ++ b1 ++ b0 := by
  refine BitVec.eq_of_getLsbD_eq fun i hi => ?_
  simp only [rawLimit, BitVec.getLsbD_append, BitVec.getLsbD_extractLsb', getLsbD_descOf]
  grind

theorem gateSelector_descOf : gateSelector (descOf b0 b1 b2 b3 b4 b5 b6 b7) = b3 ++ b2 := by
  refine BitVec.eq_of_getLsbD_eq fun i hi => ?_
  simp only [gateSelector, BitVec.getLsbD_append, BitVec.getLsbD_extractLsb', getLsbD_descOf]
  grind

theorem descG_descOf : descG (descOf b0 b1 b2 b3 b4 b5 b6 b7) = b6.getLsbD 7 := getLsbD_descOf b0 b1 b2 b3 b4 b5 b6 b7 55

end DescOf

end Sys2Proof.Machine

open Sys2Proof Sys2Proof.Machine

/-- Settles O15, field by field. -/
theorem selectorAndDescriptorFields : Obligations.SelectorAndDescriptorFields := by
  refine ⟨fun v => ⟨rfl, rfl, rfl, selNull_iff v⟩, fun b0 b1 b2 b3 b4 b5 b6 b7 => ?_⟩
  obtain ⟨gate, tss, busy, ldt, s, code, data, conforming, readable, writable⟩ :=
    access_predicates (descOf b0 b1 b2 b3 b4 b5 b6 b7)
  have present : descPresent (descOf b0 b1 b2 b3 b4 b5 b6 b7) = b5.getLsbD 7 := by rw [descPresent, accessByte_descOf]
  have dpl : descDpl (descOf b0 b1 b2 b3 b4 b5 b6 b7) = b5.extractLsb' 5 2 := by rw [descDpl, accessByte_descOf]
  rw [accessByte_descOf] at gate tss busy ldt s code data conforming readable writable
  exact ⟨accessByte_descOf .., descBase_descOf .., rawLimit_descOf .., descG_descOf .., present, dpl, gateSelector_descOf ..,
    gate, tss, busy, ldt, s, code, data, conforming, readable, writable, effectiveLimit_toNat _⟩

end

section
/-! PROOFS. Byte order of linear accesses (20 R62), and translation with paging off (20 R60, R71). -/

namespace Sys2Proof.Machine

/-! ### Reads of several bytes, from the bytes -/

section Reads
variable {x : Xlat} {m : Memory} {acc : Access} {a : Word}

theorem linRead2_of_bytes {b0 b1 : Byte} (h0 : linRead1 x m acc a = some b0) (h1 : linRead1 x m acc (a + 1) = some b1) :
    linRead2 x m acc a = some (of2 b0 b1) := by
  rw [linRead2, h0, h1]
  rfl

theorem linRead4_of_bytes {b0 b1 b2 b3 : Byte} (h0 : linRead1 x m acc a = some b0) (h1 : linRead1 x m acc (a + 1) = some b1)
    (h2 : linRead1 x m acc (a + 2) = some b2) (h3 : linRead1 x m acc (a + 3) = some b3) :
    linRead4 x m acc a = some (of4 b0 b1 b2 b3) := by
  rw [linRead4, h0, h1, h2, h3]
  rfl

theorem linRead8_of_halves {lo hi : BitVec 32} (h0 : linRead4 x m acc a = some lo) (h1 : linRead4 x m acc (a + 4) = some hi) :
    linRead8 x m acc a = some (hi ++ lo) := by
  rw [linRead8, h0, h1]
  rfl

/-- A 2-byte value is read where its bytes are. -/
theorem linRead2_of_span {v : BitVec 16} (h : (span a 2).map (linRead1 x m acc) = (bytes2 v).map some) :
    linRead2 x m acc a = some v := by
  simp only [span_two, bytes2, List.map_cons, List.map_nil, List.cons.injEq, and_true] at h
  obtain ⟨h0, h1⟩ := h
  rw [linRead2_of_bytes h0 h1, of2_bytes2]

/-- A 4-byte value is read where its bytes are. -/
theorem linRead4_of_span {v : BitVec 32} (h : (span a 4).map (linRead1 x m acc) = (bytes4 v).map some) :
    linRead4 x m acc a = some v := by
  simp only [span_four, bytes4, List.map_cons, List.map_nil, List.cons.injEq, and_true] at h
  obtain ⟨h0, h1, h2, h3⟩ := h
  rw [linRead4_of_bytes h0 h1 h2 h3, of4_bytes4]

end Reads

/-! ### Writes read back -/

/-- The bytes of a linear write are read back in order, where each has a physical byte of its own and the write leaves their translation
as it was: a later byte of the write does not touch an earlier one. -/
theorem linRead1_linWrite {x : Xlat} {acc : Access} {bs : List Byte} {m m' : Memory} {a : Word} (hw : Memory.wf m = true)
    (h : linWrite x acc m a bs = some m') (hn : (physStores x acc m (storeBytes a bs)).Nodup)
    (hp : ((span a bs.length).map fun b => (x.phys m' b acc).map BitVec.toNat) =
      (physStores x acc m (storeBytes a bs)).map some) :
    (span a bs.length).map (linRead1 x m' acc) = bs.map some := by
  induction bs generalizing m a with
  | nil => rfl
  | cons b bs ih =>
    obtain ⟨p, hpa, h⟩ := runStores_cons.1 h
    rw [storeBytes, physStores_cons hpa] at hn hp
    obtain ⟨hnew, hn⟩ := List.nodup_cons.1 hn
    simp only [List.length_cons, span, List.map_cons, List.cons.injEq] at hp ⊢
    obtain ⟨hhead, hp⟩ := hp
    obtain ⟨q, hq, hqp⟩ := Option.map_eq_some_iff.1 hhead
    refine ⟨?_, ih (Memory.wf_write hw p b) h hn hp⟩
    have hread : Memory.read m' p.toNat = b :=
      ((runStores_ok h).2 _ hnew).trans (Memory.read_write_same hw _ _)
    rw [linRead1, hq, Option.map_some, hqp, hread]

end Sys2Proof.Machine

open Sys2Proof Sys2Proof.Machine

/-- Settles O13: reads byte by byte, writes by induction on the bytes, immediates by the decoder. -/
theorem littleEndian : Obligations.LittleEndian :=
  ⟨fun _ _ _ _ _ _ => linRead2_of_bytes, fun _ _ _ _ _ _ _ _ => linRead4_of_bytes, fun _ _ _ _ _ _ => linRead8_of_halves,
    fun _ _ _ _ _ _ hw h hn hp => linRead2_of_span (linRead1_linWrite hw h hn hp),
    fun _ _ _ _ _ _ hw h hn hp => linRead4_of_span (linRead1_linWrite hw h hn hp),
    fun _ _ _ _ _ _ => ⟨rfl, rfl⟩⟩

/-- Settles O14. -/
theorem pagingOffMapsToItself : Obligations.PagingOffMapsToItself := fun _ m a acc h => Xlat.phys_of_pg_off h m a acc

end

section
/-! PROOFS. Missing pages and the common mapping in a task switch (20 R66 to R68, R74). -/

namespace Sys2Proof.Machine

@[simp] theorem orPageFault_none {α : Type} (ctx : Context) (s : State) :
    orPageFault ctx s (none : Option α) = .error (pageFaultIn ctx s) := rfl
@[simp] theorem orPartWay_none {α : Type} : orPartWay (none : Option α) = .error (.refused .pageFaultPartWay) := rfl
@[simp] theorem add_tssBackLink (base : Word) : base + tssBackLink = base := BitVec.add_zero base

/-! ### The page check -/

theorem accessible_iff {s : State} {a : Word} : s.accessible a = true ↔
    (s.xlat.phys s.mem a .sysRead).isSome = true ∧ (s.xlat.phys s.mem a .sysWrite).isSome = true := by
  rw [State.accessible, Bool.and_eq_true]

/-- Whether every byte that 20 R68 checks is there: of both TSSs, and byte 5 of both descriptors. -/
def State.wholeAccessible (s : State) (sel : Sel) (d : Descriptor) : Bool :=
  (tssAddrs s.tr.base ++ tssAddrs (descBase d)).all s.accessible &&
    (s.xlat.phys s.mem (s.busyByteAddr s.tr.sel) .sysWrite).isSome && (s.xlat.phys s.mem (s.busyByteAddr sel) .sysWrite).isSome

theorem wholeAccessible_iff {s : State} {sel : Sel} {d : Descriptor} : s.wholeAccessible sel d = true ↔
    (∀ a ∈ span s.tr.base 0x68 ++ span (descBase d) 0x68,
      (s.xlat.phys s.mem a .sysRead).isSome = true ∧ (s.xlat.phys s.mem a .sysWrite).isSome = true) ∧
    (s.xlat.phys s.mem (s.busyByteAddr s.tr.sel) .sysWrite).isSome = true ∧
    (s.xlat.phys s.mem (s.busyByteAddr sel) .sysWrite).isSome = true := by
  simp only [State.wholeAccessible, Bool.and_eq_true, List.all_eq_true, List.mem_append, tssAddrs, tssBytes, region_eq_mem_span,
    accessible_iff, and_assoc]

/-- The page check as one decision (20 R68; with `PG = 0` every byte is there, 20 R60). -/
theorem pagesPresent_eq (c : Cause) (s : State) (sel : Sel) (d : Descriptor) : pagesPresent c s sel d =
    if s.firstAccessible c then orElse (s.wholeAccessible sel d) (.refused .pageFaultPartWay)
    else .error (pageFaultIn .outgoing s) := by
  cases hp : s.pg with
  | false =>
    have hflat : s.xlat.Flat s.mem := Xlat.flat_of_pg_off hp s.mem
    have hwhole : s.wholeAccessible sel d = true :=
      wholeAccessible_iff.2 ⟨fun a _ => by simp [hflat a], by simp [hflat (s.busyByteAddr s.tr.sel)], by simp [hflat (s.busyByteAddr sel)]⟩
    rw [pagesPresent_of_pg_off hp, firstAccessible_of_flat hflat, hwhole]
    rfl
  | true =>
    rw [pagesPresent, if_pos hp, State.wholeAccessible]
    cases s.firstAccessible c
    · rfl
    · cases (tssAddrs s.tr.base ++ tssAddrs (descBase d)).all s.accessible
      · rfl
      · cases (s.xlat.phys s.mem (s.busyByteAddr s.tr.sel) .sysWrite).isSome <;> rfl

theorem pg_of_not_firstAccessible {c : Cause} {s : State} (h : s.firstAccessible c = false) : s.pg = true := by
  by_contra hp
  have hflat : s.xlat.Flat s.mem := Xlat.flat_of_pg_off (Bool.eq_false_iff.2 hp) s.mem
  rw [firstAccessible_of_flat hflat] at h
  cases h

/-- The page check passed: the first byte is there, and so is every other. -/
theorem pagesPresent_ok_iff {c : Cause} {s : State} {sel : Sel} {d : Descriptor} :
    pagesPresent c s sel d = .ok () ↔ s.firstAccessible c = true ∧ s.wholeAccessible sel d = true := by
  rw [pagesPresent_eq]
  cases s.firstAccessible c <;> simp [orElse_ok]

/-- The page check raises the page fault exactly where the first byte is missing. -/
theorem pagesPresent_raised_iff {c : Cause} {s t : State} {sel : Sel} {d : Descriptor} {r : Raise} :
    pagesPresent c s sel d = .error (.raised r t) ↔ s.firstAccessible c = false ∧ .raised r t = pageFaultIn .outgoing s := by
  rw [pagesPresent_eq]
  cases s.firstAccessible c
  · simp [eq_comm]
  · simp [orElse_error]

/-! ### The page check within the switch -/

section Pages
variable {c : Cause} {sel : Sel} {ext : Bool} {retEip : Word} {s : State} {d : Descriptor}

/-- A switch whose target passes tests 1 to 3 stops where its page check does. -/
theorem taskSwitch_of_pagesPresent_error {e : Stop} (hv : s.tr.valid = true) (hd : locateTss c sel ext s = .ok d)
    (h : pagesPresent c s sel d = .error e) : taskSwitch c sel ext retEip s = .error e := by
  simp only [taskSwitch, hv, hd, h, orElse_true, run_ok_bind, run_error_bind]

/-- Past its page check a switch raises no exception in the outgoing context (41 R149). -/
theorem pagesPresent_of_taskSwitch_raised {r : Raise} {t : State} (hv : s.tr.valid = true) (hd : locateTss c sel ext s = .ok d)
    (hr : r.ctx = .outgoing) (h : taskSwitch c sel ext retEip s = .error (.raised r t)) :
    pagesPresent c s sel d = .error (.raised r t) := by
  simp only [taskSwitch, hv, hd, orElse_true, run_ok_bind, run_bind_error, orPartWay_error, run_pure, reduceCtorEq, and_false,
    exists_const, or_false] at h
  rcases h with h | ⟨-, -, h | ⟨s1, -, h | ⟨-, ⟨⟩⟩⟩⟩
  · exact h
  · obtain ⟨x, hx⟩ := loadTask_error h
    cases hx
  · rw [(runTests_raised h).1.1] at hr
    cases hr

/-- The page fault of the first byte touched, and the refusal of a later one; `P` and `W` say in the words of the rule that the first byte is
there and that all are (20 R66 to R68, log 5). -/
theorem taskSwitch_missingPages {P W : Prop} (hv : s.tr.valid = true) (hd : locateTss c sel ext s = .ok d)
    (hP : s.firstAccessible c = true ↔ P) (hW : s.wholeAccessible sel d = true ↔ W) :
    ((∃ code, taskSwitch c sel ext retEip s = .error (.raised { exc := .pageFault, code := code, ctx := .outgoing }
        { s with choices := s.choices + 1 })) ↔ s.pg = true ∧ ¬P) ∧
      (P → W ∨ (s.pg = true ∧ taskSwitch c sel ext retEip s = .error (.refused .pageFaultPartWay))) := by
  rw [← hP, ← hW, Bool.not_eq_true]
  refine ⟨?_, fun hfirst => ?_⟩
  · constructor
    · rintro ⟨code, h⟩
      obtain ⟨hfirst, -⟩ := pagesPresent_raised_iff.1 (pagesPresent_of_taskSwitch_raised hv hd rfl h)
      exact ⟨pg_of_not_firstAccessible hfirst, hfirst⟩
    · rintro ⟨-, hfirst⟩
      exact ⟨_, taskSwitch_of_pagesPresent_error hv hd (pagesPresent_raised_iff.2 ⟨hfirst, rfl⟩)⟩
  · rw [or_iff_not_imp_left, Bool.not_eq_true]
    intro hwhole
    have hpages : pagesPresent c s sel d = .error (.refused .pageFaultPartWay) := by
      rw [pagesPresent_eq, hfirst, hwhole]
      rfl
    refine ⟨?_, taskSwitch_of_pagesPresent_error hv hd hpages⟩
    by_contra hp
    rw [pagesPresent_of_pg_off (Bool.eq_false_iff.2 hp)] at hpages
    cases hpages

/-! ### The common mapping -/

/-- Under the common mapping both page directories translate each address of the structures alike (20 R74). -/
theorem phys_of_commonMapping {m : Memory} {pdbr a : Word} {acc : Access} (h : commonMapping s m d pdbr = true)
    (ha : a ∈ commonAddrs s d) (hacc : acc ∈ Access.all) : s.xlat.phys m a acc = (s.xlat.under pdbr).phys m a acc := by
  cases hp : s.pg with
  | false => rw [Xlat.phys_of_pg_off hp, Xlat.phys_of_pg_off (x := s.xlat.under pdbr) hp]
  | true =>
    simp only [commonMapping, hp, Bool.not_true, Bool.false_or, List.all_eq_true, mapsAlike, decide_eq_true_eq] at h
    exact h a ha acc hacc

theorem mem_tssRegion {base limit a : Word} (h : a ∈ span base 0x68 ∨ ∃ k, k ≤ limit.toNat ∧ a = base + BitVec.ofNat 32 k) :
    a ∈ tssRegion base limit := by
  rw [tssRegion, region_eq_mem_span]
  rcases h with h | ⟨k, hk, rfl⟩
  · exact span_mono h (Nat.le_max_left ..)
  · exact mem_span.2 ⟨k, by omega, rfl⟩

/-- The addresses of 20 R74: both TSSs, up to their limits and at least to offset 67h, and the GDT. -/
theorem mem_commonAddrs {a : Word}
    (h : a ∈ span s.tr.base 0x68 ++ span (descBase d) 0x68 ++ span s.gdt.base (s.gdt.limit.toNat + 1) ∨
      (∃ k, k ≤ s.tr.limit.toNat ∧ a = s.tr.base + BitVec.ofNat 32 k) ∨
      ∃ k, k ≤ (effectiveLimit d).toNat ∧ a = descBase d + BitVec.ofNat 32 k) : a ∈ commonAddrs s d := by
  simp only [List.mem_append] at h
  rw [commonAddrs, List.mem_append, List.mem_append, region_eq_mem_span]
  rcases h with ((h | h) | h) | h | h
  · exact .inl (.inl (mem_tssRegion (.inl h)))
  · exact .inl (.inr (mem_tssRegion (.inl h)))
  · exact .inr h
  · exact .inl (.inl (mem_tssRegion (.inr h)))
  · exact .inl (.inr (mem_tssRegion (.inr h)))

/-- A completed switch passed its page check, and met the common mapping when PDBR was read and after the last store (log 6). -/
theorem taskSwitch_checks {t : State} (h : taskSwitch c sel ext retEip s = .ok t) (hd : s.desc sel = .found d) :
    pagesPresent c s sel d = .ok () ∧ commonMapping s t.mem d t.pdbr = true ∧
      ∀ m, runStores s.xlat .sysWrite s.mem (outgoingStores c retEip s ++ incomingStores c sel s) = some m →
        commonMapping s m d t.pdbr = true := by
  obtain ⟨-, d', hd', hpages, s1, hload, s2, htests, b, -, rfl⟩ := taskSwitch_ok.1 h
  obtain ⟨-, -, hfound, -⟩ := locateTss_ok.1 hd'
  obtain rfl : d' = d := Lookup.found.inj (hfound.symm.trans hd)
  obtain ⟨m, img, m', hm, -, -, hcommon, -, hcommon', rfl⟩ := loadTask_ok.1 hload
  have o := (runTests_ok htests).1
  refine ⟨hpages, ?_, fun n hn => ?_⟩
  · rwa [o.mem, o.pdbr]
  · obtain rfl : m = n := Option.some.inj (hm.symm.trans hn)
    rwa [o.pdbr]

end Pages

end Sys2Proof.Machine

open Sys2Proof Sys2Proof.Machine

/-- Settles O41: the page check and the two checks of the common mapping that the switch passed. -/
theorem completedSwitchesMeetNoMissingPage : Obligations.CompletedSwitchesMeetNoMissingPage := by
  intro c sel ext retEip s t d h hd
  obtain ⟨hpages, hlast, hread⟩ := taskSwitch_checks h hd
  obtain ⟨htss, hout, hin⟩ := wholeAccessible_iff.1 (pagesPresent_ok_iff.1 hpages).2
  exact ⟨htss, hout, hin, fun a ha acc hacc => ⟨phys_of_commonMapping hlast (mem_commonAddrs ha) hacc,
    fun m hm => phys_of_commonMapping (hread m hm) (mem_commonAddrs ha) hacc⟩⟩

/-- Settles O42: the page check decides, whatever the cause; the return meets the bytes of the back-link before the switch. -/
theorem missingPagesOfASwitch : Obligations.MissingPagesOfASwitch := by
  refine ⟨fun c sel ext retEip s d hv hd => ?_, fun nextEip s hv => ⟨fun hlow => ?_, fun hlow hhigh => ?_⟩⟩
  · cases c
    case jmp => exact taskSwitch_missingPages hv hd .rfl wholeAccessible_iff
    case call | int => exact taskSwitch_missingPages hv hd accessible_iff wholeAccessible_iff
    case iret =>
      have hfirst : s.firstAccessible .iret = s.accessible s.tr.base := by rw [State.firstAccessible, add_tssBackLink]
      exact taskSwitch_missingPages hv hd (hfirst ▸ accessible_iff) wholeAccessible_iff
  · exact ⟨Config.pageFaultCode s.choices, by simp [returnToLink, hv, linRead1, hlow, pageFaultIn]⟩
  · obtain ⟨p, hp⟩ := Option.isSome_iff_exists.1 hlow
    simp [returnToLink, hv, linRead1, hp, hhigh]

end

section
/-! PROOFS. Decoding and encoding are inverse (30 R91 to R94), and the bytes that are no row of the table (30 R96). -/

namespace Sys2Proof

/-! ### Immediates and displacements: the bytes taken are those of the value -/

theorem bytes2_of2 (b0 b1 : Byte) : bytes2 (of2 b0 b1) = [b0, b1] := by
  have h0 : (of2 b0 b1).extractLsb' 0 8 = b0 := BitVec.extractLsb'_append_eq_right
  have h1 : (of2 b0 b1).extractLsb' 8 8 = b1 := BitVec.extractLsb'_append_eq_left
  rw [bytes2, h0, h1]

theorem bytes4_of4 (b0 b1 b2 b3 : Byte) : bytes4 (of4 b0 b1 b2 b3) = [b0, b1, b2, b3] := by
  have h0 : (of4 b0 b1 b2 b3).extractLsb' 0 8 = b0 := BitVec.extractLsb'_append_eq_right
  have h1 : (of4 b0 b1 b2 b3).extractLsb' 8 8 = b1 :=
    (BitVec.extractLsb'_append_eq_of_le (Nat.le_refl 8)).trans BitVec.extractLsb'_append_eq_right
  have h2 : (of4 b0 b1 b2 b3).extractLsb' 16 8 = b2 :=
    (BitVec.extractLsb'_append_eq_of_le (by decide)).trans <|
      (BitVec.extractLsb'_append_eq_of_le (Nat.le_refl 8)).trans BitVec.extractLsb'_append_eq_right
  have h3 : (of4 b0 b1 b2 b3).extractLsb' 24 8 = b3 :=
    (BitVec.extractLsb'_append_eq_of_le (by decide)).trans <|
      (BitVec.extractLsb'_append_eq_of_le (by decide)).trans BitVec.extractLsb'_append_eq_left
  rw [bytes4, h0, h1, h2, h3]

theorem eq_of_take1 {bs r : List Byte} {v : Byte} (h : take1 bs = some (v, r)) : bs = v :: r := by
  cases bs <;> cases h
  rfl

theorem eq_of_take2 {bs r : List Byte} {v : BitVec 16} (h : take2 bs = some (v, r)) : bs = bytes2 v ++ r := by
  unfold take2 at h
  split at h <;> cases h
  simp [bytes2_of2]

theorem eq_of_take4 {bs r : List Byte} {v : BitVec 32} (h : take4 bs = some (v, r)) : bs = bytes4 v ++ r := by
  unfold take4 at h
  split at h <;> cases h
  simp [bytes4_of4]

@[simp] theorem takeFar32_bytes (off : BitVec 32) (sel : Sel) (rest : List Byte) :
    takeFar32 (bytes4 off ++ (bytes2 sel ++ rest)) = some ((off, sel), rest) := by simp [takeFar32]

@[simp] theorem takeFar16_bytes (off : BitVec 16) (sel : Sel) (rest : List Byte) :
    takeFar16 (bytes2 off ++ (bytes2 sel ++ rest)) = some ((off, sel), rest) := by simp [takeFar16]

theorem eq_of_takeFar32 {bs r : List Byte} {p : BitVec 32 × Sel} (h : takeFar32 bs = some (p, r)) :
    bs = bytes4 p.1 ++ bytes2 p.2 ++ r := by
  unfold takeFar32 at h
  split at h
  · cases h
  · next off r' hoff =>
    obtain ⟨⟨sel, _⟩, hsel, ⟨⟩⟩ := Option.map_eq_some_iff.1 h
    rw [eq_of_take4 hoff, eq_of_take2 hsel, List.append_assoc]

theorem eq_of_takeFar16 {bs r : List Byte} {p : BitVec 16 × Sel} (h : takeFar16 bs = some (p, r)) :
    bs = bytes2 p.1 ++ bytes2 p.2 ++ r := by
  unfold takeFar16 at h
  split at h
  · cases h
  · next off r' hoff =>
    obtain ⟨⟨sel, _⟩, hsel, ⟨⟩⟩ := Option.map_eq_some_iff.1 h
    rw [eq_of_take2 hoff, eq_of_take2 hsel, List.append_assoc]

theorem eq_of_takeDisp32 {mod : BitVec 2} {bs r : List Byte} {d : Disp32} (hmod : mod ≠ 3)
    (h : takeDisp32 mod bs = some (d, r)) : d.mod = mod ∧ bs = d.bytes ++ r := by
  unfold takeDisp32 at h
  split_ifs at h with h0 h1
  · cases h
    exact ⟨h0.symm, rfl⟩
  · obtain ⟨_, hv, ⟨⟩⟩ := Option.map_eq_some_iff.1 h
    exact ⟨h1.symm, eq_of_take1 hv⟩
  · obtain ⟨_, hv, ⟨⟩⟩ := Option.map_eq_some_iff.1 h
    exact ⟨show 2#2 = mod by bv_omega, eq_of_take4 hv⟩

theorem eq_of_takeDisp16 {mod : BitVec 2} {bs r : List Byte} {d : Disp16} (hmod : mod ≠ 3)
    (h : takeDisp16 mod bs = some (d, r)) : d.mod = mod ∧ bs = d.bytes ++ r := by
  unfold takeDisp16 at h
  split_ifs at h with h0 h1
  · cases h
    exact ⟨h0.symm, rfl⟩
  · obtain ⟨_, hv, ⟨⟩⟩ := Option.map_eq_some_iff.1 h
    exact ⟨h1.symm, eq_of_take1 hv⟩
  · obtain ⟨_, hv, ⟨⟩⟩ := Option.map_eq_some_iff.1 h
    exact ⟨show 2#2 = mod by bv_omega, eq_of_take2 hv⟩

/-! ### Operands: what is taken is well formed and its bytes are those taken -/

theorem regOfNum_eq_esp {n : BitVec 3} : regOfNum n = .esp ↔ n = 4 := by rw [← num_eq_four, num_regOfNum]; rfl
theorem regOfNum_eq_ebp {n : BitVec 3} : regOfNum n = .ebp ↔ n = 5 := by rw [← num_eq_five, num_regOfNum]; rfl
theorem base16OfNum_eq_bp {n : BitVec 3} : base16OfNum n = .bp ↔ n = 6 := by rw [← num_eq_six, num_base16OfNum]; rfl

theorem takeSib_taken {mod : BitVec 2} {bs r : List Byte} {a : Addr32} (hmod : mod ≠ 3) (h : takeSib mod bs = some (a, r)) :
    a.wf = true ∧ ∀ n, packByte mod n 4 :: bs = (Mem.a32 a).bytes n ++ r := by
  unfold takeSib at h
  split at h
  · cases h
  next sib bs =>
  split_ifs at h with h5
  · obtain ⟨⟨d, _⟩, hv, ⟨⟩⟩ := Option.map_eq_some_iff.1 h
    obtain ⟨h5, rfl⟩ := h5
    refine ⟨by simp [Addr32.wf, indexOfNum_ne_esp], fun n => ?_⟩
    simp [Mem.bytes, eq_of_take4 hv, ← h5]
  · obtain ⟨⟨d, _⟩, hv, ⟨⟩⟩ := Option.map_eq_some_iff.1 h
    obtain ⟨rfl, rfl⟩ := eq_of_takeDisp32 hmod hv
    refine ⟨?_, fun n => ?_⟩
    · rw [← regOfNum_eq_ebp] at h5
      simpa [Addr32.wf, indexOfNum_ne_esp, mod32_eq_zero, imp_iff_not_or] using h5
    · simp [Mem.bytes]

theorem takeAddr32_taken {mod : BitVec 2} {rm : BitVec 3} {bs r : List Byte} {a : Addr32} (hmod : mod ≠ 3)
    (h : takeAddr32 mod rm bs = some (a, r)) : a.wf = true ∧ ∀ n, packByte mod n rm :: bs = (Mem.a32 a).bytes n ++ r := by
  unfold takeAddr32 at h
  split_ifs at h with h4 h5
  · subst h4
    exact takeSib_taken hmod h
  · obtain ⟨⟨d, _⟩, hv, ⟨⟩⟩ := Option.map_eq_some_iff.1 h
    obtain ⟨rfl, rfl⟩ := h5
    exact ⟨rfl, fun n => by simp [Mem.bytes, eq_of_take4 hv]⟩
  · obtain ⟨⟨d, _⟩, hv, ⟨⟩⟩ := Option.map_eq_some_iff.1 h
    obtain ⟨rfl, rfl⟩ := eq_of_takeDisp32 hmod hv
    refine ⟨?_, fun n => by simp [Mem.bytes]⟩
    rw [← regOfNum_eq_ebp] at h5
    rw [← regOfNum_eq_esp] at h4
    simpa [Addr32.wf, mod32_eq_zero, h4, imp_iff_not_or] using h5

theorem takeAddr16_taken {mod : BitVec 2} {rm : BitVec 3} {bs r : List Byte} {a : Addr16} (hmod : mod ≠ 3)
    (h : takeAddr16 mod rm bs = some (a, r)) : a.wf = true ∧ ∀ n, packByte mod n rm :: bs = (Mem.a16 a).bytes n ++ r := by
  unfold takeAddr16 at h
  split_ifs at h with h6
  · obtain ⟨⟨d, _⟩, hv, ⟨⟩⟩ := Option.map_eq_some_iff.1 h
    obtain ⟨rfl, rfl⟩ := h6
    exact ⟨rfl, fun n => by simp [Mem.bytes, eq_of_take2 hv]⟩
  · obtain ⟨⟨d, _⟩, hv, ⟨⟩⟩ := Option.map_eq_some_iff.1 h
    obtain ⟨rfl, rfl⟩ := eq_of_takeDisp16 hmod hv
    refine ⟨?_, fun n => by simp [Mem.bytes]⟩
    rw [← base16OfNum_eq_bp] at h6
    simpa [Addr16.wf, mod16_eq_zero, imp_iff_not_or] using h6

/-- The converse of `takeMem_bytes`. -/
theorem takeMem_taken {a32 : Bool} {b : Byte} {bs r : List Byte} {m : Mem} (hmod : modOf b ≠ 3)
    (h : takeMem a32 b bs = some (m, r)) : m.wf a32 = true ∧ b :: bs = m.bytes (regOf b) ++ r := by
  cases a32 with
  | true =>
    obtain ⟨_, hv, ⟨⟩⟩ := Option.map_eq_some_iff.1 h
    obtain ⟨hwf, hb⟩ := takeAddr32_taken hmod hv
    exact ⟨hwf, by simpa using hb (regOf b)⟩
  | false =>
    obtain ⟨_, hv, ⟨⟩⟩ := Option.map_eq_some_iff.1 h
    obtain ⟨hwf, hb⟩ := takeAddr16_taken hmod hv
    exact ⟨hwf, by simpa using hb (regOf b)⟩

/-- The converse of `takeRegMem_bytes`. -/
theorem takeRegMem_taken {a32 : Bool} {b : Byte} {bs r : List Byte} {o : RegMem} (h : takeRegMem a32 b bs = some (o, r)) :
    o.wf a32 = true ∧ b :: bs = o.bytes (regOf b) ++ r := by
  unfold takeRegMem at h
  split_ifs at h with h3
  · cases h
    exact ⟨rfl, by simp [RegMem.bytes, ← h3]⟩
  · obtain ⟨_, hv, ⟨⟩⟩ := Option.map_eq_some_iff.1 h
    exact takeMem_taken h3 hv

/-! ### Prefixes -/

theorem eq_of_prefixOfByte {b : Byte} {p : Prefix} (h : prefixOfByte b = some p) : p.byte = b := by
  have hall : ∀ b : Byte, (prefixOfByte b).all (·.byte = b) = true := by decide
  simpa [h] using hall b

/-- No byte is lost between the prefixes and what follows them. -/
theorem map_takePrefixes (bs : List Byte) : (takePrefixes bs).1.map Prefix.byte ++ (takePrefixes bs).2 = bs := by
  induction bs with
  | nil => rfl
  | cons b bs ih =>
    cases hp : prefixOfByte b with
    | none => rw [takePrefixes_of_none hp]; rfl
    | some p => simp only [takePrefixes, hp, List.map_cons, List.cons_append, ih, eq_of_prefixOfByte hp]

/-- Prefixes of any number before an opcode: the opcode is decoded under them. -/
theorem decode_map_prefixes (big : Bool) (pre : List Prefix) {op : Byte} (h : prefixOfByte op = none) (bs : List Byte) :
    decode big (pre.map Prefix.byte ++ op :: bs) = decodeBody big pre (op :: bs) := by
  rw [decode, takePrefixes_map pre (takePrefixes_of_none h bs)]

/-! ### The opcodes, one by one (30 R94) -/

section Opcodes
variable (big : Bool) (pre : List Prefix) (bs : List Byte)

@[simp] theorem decodeBody_0F (op : Byte) : decodeBody big pre (0x0F#8 :: op :: bs) =
    if op = 0x00#8 then decode0F00 big pre bs else .reject (.otherOpcode0F op) := rfl

@[simp] theorem decodeBody_FF : decodeBody big pre (0xFF#8 :: bs) = decodeFF big pre bs := rfl

@[simp] theorem decodeBody_EA : decodeBody big pre (0xEA#8 :: bs) =
    if opSize32 big pre then orShort (takeFar32 bs) fun p => .jmpPtr32 pre p.1 p.2
    else orShort (takeFar16 bs) fun p => .jmpPtr16 pre p.1 p.2 := rfl

@[simp] theorem decodeBody_9A : decodeBody big pre (0x9A#8 :: bs) =
    if opSize32 big pre then orShort (takeFar32 bs) fun p => .callPtr32 pre p.1 p.2
    else orShort (takeFar16 bs) fun p => .callPtr16 pre p.1 p.2 := rfl

@[simp] theorem decodeBody_CD : decodeBody big pre (0xCD#8 :: bs) = orShort (take1 bs) (.intImm pre) := rfl
@[simp] theorem decodeBody_CF : decodeBody big pre (0xCF#8 :: bs) = .ok (.iret pre) bs := rfl
@[simp] theorem decodeBody_CC : decodeBody big pre (0xCC#8 :: bs) = .ok (.int3 pre) bs := rfl
@[simp] theorem decodeBody_CE : decodeBody big pre (0xCE#8 :: bs) = .ok (.into pre) bs := rfl

/-- An opcode of no row. -/
theorem decodeBody_other {op : Byte} (h : op ∉ [0x0F#8, 0xEA#8, 0x9A#8, 0xFF#8, 0xCF#8, 0xCD#8, 0xCC#8, 0xCE#8]) :
    decodeBody big pre (op :: bs) = .reject (.otherOpcode op) := by
  simp only [List.mem_cons, List.not_mem_nil, or_false, not_or] at h
  simp [decodeBody, h]

/-- `0F 00 /3` is LTR. -/
theorem decode0F00_ltr {b : Byte} (h : regOf b = 3) :
    decode0F00 big pre (b :: bs) = orShort (takeRegMem (addrSize32 big pre) b bs) (.ltr pre) := if_pos h

/-- `0F 00 /1` is STR. -/
theorem decode0F00_str {b : Byte} (h : regOf b = 1) :
    decode0F00 big pre (b :: bs) = orShort (takeRegMem (addrSize32 big pre) b bs) (.str pre) := by
  simp [decode0F00, h]

theorem decode0F00_other {b : Byte} (h : regOf b ∉ [1#3, 3#3]) :
    decode0F00 big pre (b :: bs) = .reject (.otherGroupMember 0x00#8 (regOf b)) := by
  simp only [List.mem_cons, List.not_mem_nil, or_false, not_or] at h
  simp [decode0F00, h]

/-- `FF /5` with a memory operand is JMP. -/
theorem decodeFF_jmp {b : Byte} (h : regOf b = 5) (hmod : modOf b ≠ 3) :
    decodeFF big pre (b :: bs) = orShort (takeMem (addrSize32 big pre) b bs) (.jmpMem pre (farSize big pre)) := by
  simp [decodeFF, h, show ¬modOf b = 3#2 from hmod]

/-- `FF /3` with a memory operand is CALL. -/
theorem decodeFF_call {b : Byte} (h : regOf b = 3) (hmod : modOf b ≠ 3) :
    decodeFF big pre (b :: bs) = orShort (takeMem (addrSize32 big pre) b bs) (.callMem pre (farSize big pre)) := by
  simp [decodeFF, h, show ¬modOf b = 3#2 from hmod]

theorem decodeFF_register {b : Byte} (h : regOf b = 3 ∨ regOf b = 5) (hmod : modOf b = 3) :
    decodeFF big pre (b :: bs) = .reject .farPointerInRegister := by
  rcases h with h | h <;> simp [decodeFF, h, hmod]

theorem decodeFF_other {b : Byte} (h : regOf b ∉ [3#3, 5#3]) :
    decodeFF big pre (b :: bs) = .reject (.otherGroupMember 0xFF#8 (regOf b)) := by
  simp only [List.mem_cons, List.not_mem_nil, or_false, not_or] at h
  simp [decodeFF, h]

end Opcodes

/-! ### Decoding what was encoded -/

theorem decodeBody_encodeBody {big : Bool} {i : Instr} (rest : List Byte) (h : i.wf big = true) :
    decodeBody big i.pre (encodeBody i ++ rest) = .ok i rest := by
  cases i with
  | ltr pre o =>
    obtain ⟨b, bs, hb, hr, ht⟩ := takeRegMem_bytes 3 rest h
    rw [encodeBody, hb]
    simp [Instr.pre, decode0F00_ltr _ _ _ hr, ht, orShort]
  | str pre o =>
    obtain ⟨b, bs, hb, hr, ht⟩ := takeRegMem_bytes 1 rest h
    rw [encodeBody, hb]
    simp [Instr.pre, decode0F00_str _ _ _ hr, ht, orShort]
  | jmpMem pre z m =>
    simp only [Instr.wf, Instr.operandsWf, Bool.and_eq_true, beq_iff_eq] at h
    obtain ⟨rfl, hm⟩ := h
    obtain ⟨b, bs, hb, hr, hmod, ht⟩ := takeMem_bytes 5 rest hm
    rw [encodeBody, hb]
    simp [Instr.pre, decodeFF_jmp _ _ _ hr hmod, ht, orShort]
  | callMem pre z m =>
    simp only [Instr.wf, Instr.operandsWf, Bool.and_eq_true, beq_iff_eq] at h
    obtain ⟨rfl, hm⟩ := h
    obtain ⟨b, bs, hb, hr, hmod, ht⟩ := takeMem_bytes 3 rest hm
    rw [encodeBody, hb]
    simp [Instr.pre, decodeFF_call _ _ _ hr hmod, ht, orShort]
  | jmpPtr32 | callPtr32 =>
    simp only [Instr.wf, Instr.operandsWf] at h
    simp [encodeBody, Instr.pre, h, orShort]
  | jmpPtr16 | callPtr16 =>
    simp only [Instr.wf, Instr.operandsWf, Bool.not_eq_true'] at h
    simp [encodeBody, Instr.pre, h, orShort]
  | iret | intImm | int3 | into => rfl

/-! ### Encoding what was decoded -/

/-- `i` is well formed under the prefixes `pre`, and `bs` holds its bytes after them and then `rest`. -/
structure EncodedAs (big : Bool) (pre : List Prefix) (bs : List Byte) (i : Instr) (rest : List Byte) : Prop where
  pre_eq : i.pre = pre
  wf : i.wf big = true
  bytes_eq : bs = encodeBody i ++ rest

theorem orShort_eq_ok {α : Type} {o : Option (α × List Byte)} {f : α → Instr} {i : Instr} {rest : List Byte} :
    orShort o f = .ok i rest ↔ ∃ a, o = some (a, rest) ∧ f a = i := by
  cases o with
  | none => simp [orShort]
  | some p => simp [orShort, Prod.ext_iff, and_comm]

section Decoded
variable {big : Bool} {pre : List Prefix} {bs rest : List Byte} {i : Instr}

theorem decode0F00_encodedAs (h : decode0F00 big pre bs = .ok i rest) :
    EncodedAs big pre (0x0F#8 :: 0x00#8 :: bs) i rest := by
  cases bs with
  | nil => cases h
  | cons b bs =>
    by_cases h3 : regOf b = 3
    · rw [decode0F00_ltr _ _ _ h3, orShort_eq_ok] at h
      obtain ⟨o, ho, rfl⟩ := h
      obtain ⟨hwf, hb⟩ := takeRegMem_taken ho
      exact ⟨rfl, hwf, by rw [hb, h3]; rfl⟩
    by_cases h1 : regOf b = 1
    · rw [decode0F00_str _ _ _ h1, orShort_eq_ok] at h
      obtain ⟨o, ho, rfl⟩ := h
      obtain ⟨hwf, hb⟩ := takeRegMem_taken ho
      exact ⟨rfl, hwf, by rw [hb, h1]; rfl⟩
    · rw [decode0F00_other _ _ _ (by simpa using ⟨h1, h3⟩)] at h
      cases h

theorem decodeFF_encodedAs (h : decodeFF big pre bs = .ok i rest) : EncodedAs big pre (0xFF#8 :: bs) i rest := by
  cases bs with
  | nil => cases h
  | cons b bs =>
    by_cases hreg : regOf b ∈ [3#3, 5#3]
    · simp only [List.mem_cons, List.not_mem_nil, or_false] at hreg
      by_cases hmod : modOf b = 3
      · rw [decodeFF_register _ _ _ hreg hmod] at h
        cases h
      rcases hreg with hreg | hreg
      · rw [decodeFF_call _ _ _ hreg hmod, orShort_eq_ok] at h
        obtain ⟨m, hm, rfl⟩ := h
        obtain ⟨hwf, hb⟩ := takeMem_taken hmod hm
        exact ⟨rfl, by simp [Instr.wf, Instr.operandsWf, hwf], by rw [hb, hreg]; rfl⟩
      · rw [decodeFF_jmp _ _ _ hreg hmod, orShort_eq_ok] at h
        obtain ⟨m, hm, rfl⟩ := h
        obtain ⟨hwf, hb⟩ := takeMem_taken hmod hm
        exact ⟨rfl, by simp [Instr.wf, Instr.operandsWf, hwf], by rw [hb, hreg]; rfl⟩
    · rw [decodeFF_other _ _ _ hreg] at h
      cases h

theorem decodeBody_encodedAs (h : decodeBody big pre bs = .ok i rest) : EncodedAs big pre bs i rest := by
  cases bs with
  | nil => cases h
  | cons op bs =>
    by_cases hop : op ∈ [0x0F#8, 0xEA#8, 0x9A#8, 0xFF#8, 0xCF#8, 0xCD#8, 0xCC#8, 0xCE#8]
    · simp only [List.mem_cons, List.not_mem_nil, or_false] at hop
      rcases hop with rfl | rfl | rfl | rfl | rfl | rfl | rfl | rfl
      · cases bs with
        | nil => cases h
        | cons op2 bs =>
          rw [decodeBody_0F] at h
          split_ifs at h with h2
          subst h2
          exact decode0F00_encodedAs h
      · rw [decodeBody_EA] at h
        split_ifs at h with hsize
        · obtain ⟨p, hp, rfl⟩ := orShort_eq_ok.1 h
          exact ⟨rfl, hsize, by rw [eq_of_takeFar32 hp]; rfl⟩
        · obtain ⟨p, hp, rfl⟩ := orShort_eq_ok.1 h
          exact ⟨rfl, by simpa [Instr.wf, Instr.operandsWf] using hsize, by rw [eq_of_takeFar16 hp]; rfl⟩
      · rw [decodeBody_9A] at h
        split_ifs at h with hsize
        · obtain ⟨p, hp, rfl⟩ := orShort_eq_ok.1 h
          exact ⟨rfl, hsize, by rw [eq_of_takeFar32 hp]; rfl⟩
        · obtain ⟨p, hp, rfl⟩ := orShort_eq_ok.1 h
          exact ⟨rfl, by simpa [Instr.wf, Instr.operandsWf] using hsize, by rw [eq_of_takeFar16 hp]; rfl⟩
      · exact decodeFF_encodedAs h
      · cases h
        exact ⟨rfl, rfl, rfl⟩
      · obtain ⟨n, hn, rfl⟩ := orShort_eq_ok.1 h
        exact ⟨rfl, rfl, by rw [eq_of_take1 hn]; rfl⟩
      · cases h
        exact ⟨rfl, rfl, rfl⟩
      · cases h
        exact ⟨rfl, rfl, rfl⟩
    · rw [decodeBody_other _ _ _ hop] at h
      cases h

end Decoded

end Sys2Proof

open Sys2Proof Sys2Proof.Machine

/-- Settles O1: the prefixes are taken off, then every row is read back from its bytes. -/
theorem decodeOfEncode : Obligations.DecodeOfEncode := by
  intro big i rest h
  rw [encode, List.append_assoc, decode, takePrefixes_map _ (takePrefixes_body i rest)]
  exact decodeBody_encodeBody rest h

/-- Settles O2: what follows the prefixes is the encoding of the row that its opcode selects. -/
theorem decodedBytesAreTheEncoding : Obligations.DecodedBytesAreTheEncoding := by
  intro big bs rest i h
  obtain ⟨hpre, hwf, hb⟩ := decodeBody_encodedAs h
  exact ⟨hwf, by rw [← map_takePrefixes bs, hb, encode, hpre, List.append_assoc]⟩

/-- Settles O4: the register form of the `FF` group, and the exception a step takes for it. -/
theorem farPointerInRegisterRaises : Obligations.FarPointerInRegisterRaises := by
  refine ⟨fun big pre modrm rest hmod hreg => ?_, fun s hp he hd => ⟨?_, rfl⟩⟩
  · rw [decode_map_prefixes big pre (by decide), decodeBody_FF]
    exact decodeFF_register big pre rest hreg hmod
  · rw [step_of_quiet hp he, stepInstr, hd]
    rfl

/-- Settles O5: the equation of each rejected group, and the two ways in which a step is refused. -/
theorem undecodableBytesAreRefused : Obligations.UndecodableBytesAreRefused := by
  refine ⟨fun big pre op rest hp hop => ?_, fun big pre op rest hop => ?_, fun big pre modrm rest hreg => ?_,
    fun big pre modrm rest hreg => ?_, fun s hp he => ⟨fun e hd hne => ?_, fun hd hf => ?_⟩⟩
  · rw [decode_map_prefixes big pre hp, decodeBody_other big pre rest hop]
  · rw [decode_map_prefixes big pre (by decide), decodeBody_0F, if_neg hop]
  · rw [decode_map_prefixes big pre (by decide), decodeBody_0F, if_pos rfl]
    exact decode0F00_other big pre rest hreg
  · rw [decode_map_prefixes big pre (by decide), decodeBody_FF]
    exact decodeFF_other big pre rest hreg
  · rw [step_of_quiet hp he, stepInstr, hd]
    cases e with
    | farPointerInRegister => exact absurd rfl hne
    | otherGroupMember | otherOpcode | otherOpcode0F | onlyPrefixes => rfl
  · rw [step_of_quiet hp he, stepInstr, hd, cutOff, hf]

/-- The bytes an instruction is encoded in decode to it. -/
theorem decode_of_encode_eq {big : Bool} {i : Instr} {bs : List Byte} (h : i.wf big = true) (hb : encode i = bs) :
    decode big bs = .ok i [] := by
  rw [← hb, ← List.append_nil (encode i)]
  exact decodeOfEncode big i [] h

/-- Settles O3: each word is the encoding of a well-formed instruction. -/
theorem workedEncodings : Obligations.WorkedEncodings := by
  unfold Obligations.WorkedEncodings
  and_intros <;> exact decode_of_encode_eq rfl rfl

end

section
/-! PROOFS. LTR and STR (40 R110, R111): what each completes to, the exception of each failed check, and what they leave unchanged. -/

namespace Sys2Proof.Machine

/-! ### The operand, and error codes -/

/-- The operand is read exactly as the rule names it (40 R110). -/
theorem readSel_ok {s : State} {pre : List Prefix} {src : RegMem} {sel : Sel} :
    readSel s pre src = .ok sel ↔ Operand16 s pre src sel := by
  cases src with
  | reg r => simp [readSel, Operand16, Gprs.get16, eq_comm]
  | mem m => simp [readSel, readSelMem, Operand16, run_bind_ok, orElse_ok, orPageFault_ok]

theorem errCode_noExt (sel : Sel) : errCode sel false = sel &&& 0xFFFC#16 := by simp [errCode]

@[simp] theorem finish_raising (x : Exc) (code : BitVec 16) (ctx : Context) (s : State) :
    finish (.error (raising x code ctx s)) = deliver { exc := x, code := some code, ctx := ctx } s := rfl

/-! ### The checks of LTR, each with its exception (40 R110) -/

section Checks
variable {sel : Sel} {s : State}

theorem locateForLtr_null (hn : selNull sel = true) : locateForLtr sel s = .error (raising .gp 0 .before s) := by
  simp [locateForLtr, hn]

theorem locateForLtr_inLdt (hn : selNull sel = false) (ht : selTi sel = true) :
    locateForLtr sel s = .error (raising .gp (sel &&& 0xFFFC#16) .before s) := by
  simp [locateForLtr, hn, ht, errCode_noExt]

theorem locateForLtr_outOfBounds (hn : selNull sel = false) (ht : selTi sel = false) (hd : s.desc sel = .outOfBounds) :
    locateForLtr sel s = .error (raising .gp (sel &&& 0xFFFC#16) .before s) := by
  simp [locateForLtr, hn, ht, hd, errCode_noExt]

/-- A descriptor found in the GDT: it is a TSS descriptor, not busy, and present, in this order. -/
theorem locateForLtr_found {d : Descriptor} (hn : selNull sel = false) (ht : selTi sel = false) (hd : s.desc sel = .found d) :
    locateForLtr sel s =
      if isTss d = false ∨ isBusy d = true then .error (raising .gp (sel &&& 0xFFFC#16) .before s)
      else if descPresent d = false then .error (raising .np (sel &&& 0xFFFC#16) .before s)
      else .ok d := by
  cases htss : isTss d <;> cases hbusy : isBusy d <;> cases hp : descPresent d <;>
    simp [locateForLtr, hn, ht, hd, htss, hbusy, hp, errCode_noExt, run_pure]

end Checks

/-! ### LTR and STR, run -/

section Run
variable {pre : List Prefix} {s : State}

theorem exec_ltr_of_cpl_ne (src : RegMem) (hc : s.cpl ≠ 0) :
    exec (.ltr pre src) s = deliver { exc := .gp, code := some 0, ctx := .before } s := by
  rw [exec, execLtr, beq_false_of_ne hc]
  rfl

/-- At CPL 0 with a readable operand, LTR looks at the descriptor of its selector and loads TR from it. -/
theorem exec_ltr_of_operand {src : RegMem} {sel : Sel} (hc : s.cpl = 0) (ho : Operand16 s pre src sel) :
    exec (.ltr pre src) s =
      finish (do
        let d ← locateForLtr sel s
        let s' ← loadTr sel d s
        return { s' with eip := s.nextEip (.ltr pre src) }) := by
  simp [exec, execLtr, hc, readSel_ok.2 ho]

/-- At CPL 0 with a readable operand, the exception of a failed check of LTR is taken. -/
theorem exec_ltr_of_locate_error {src : RegMem} {sel : Sel} {x : Exc} {code : BitVec 16} (hc : s.cpl = 0)
    (ho : Operand16 s pre src sel) (hl : locateForLtr sel s = .error (raising x code .before s)) :
    exec (.ltr pre src) s = deliver { exc := x, code := some code, ctx := .before } s := by
  rw [exec_ltr_of_operand hc ho, hl, run_error_bind, finish_raising]

/-- TR is loaded and the busy bit set where byte 5 of the descriptor is mapped for writing. -/
theorem loadTr_of_mapped {sel : Sel} {p : Word} (d : Descriptor) (hp : s.xlat.phys s.mem (s.busyByteAddr sel) .sysWrite = some p) :
    loadTr sel d s = .ok { s with
      mem := Memory.write s.mem p.toNat (setBusyBit (Memory.read s.mem p.toNat))
      tr := { valid := true, sel := sel, base := descBase d, limit := effectiveLimit d } } := by
  simp [loadTr, Config.ltrMarksBusy, busyStores, lockedRmw, runStores, hp, run_pure]

/-- LTR completes when it is ready (40 R110). -/
theorem exec_ltr_of_ready {src : RegMem} {sel : Sel} {d : Descriptor} {p : Word} (h : LtrReady pre src sel d p s) :
    exec (.ltr pre src) s = .next { s with
      mem := Memory.write s.mem p.toNat (setBusyBit (Memory.read s.mem p.toNat))
      tr := { valid := true, sel := sel, base := descBase d, limit := effectiveLimit d }
      eip := s.nextEip (.ltr pre src) } := by
  have hl : locateForLtr sel s = .ok d := by
    rw [locateForLtr_found h.notNull h.inGdt h.found]
    simp [h.isTss, h.notBusy, h.present]
  rw [exec_ltr_of_operand h.level h.operand, hl, run_ok_bind, loadTr_of_mapped d h.mapped]
  rfl

theorem exec_str_of_invalid (dst : RegMem) (hv : s.tr.valid = false) : exec (.str pre dst) s = .refused .trNeverLoaded := by
  simp [exec, execStr, hv]

theorem exec_str_reg (r : Reg) (hv : s.tr.valid = true) :
    exec (.str pre (.reg r)) s =
      .next { s with regs := s.regs.set16 r s.tr.sel, eip := s.nextEip (.str pre (.reg r)) } := by
  simp [exec, execStr, hv, run_pure]

theorem exec_str_mem {m : Mem} {m' : Memory} (hv : s.tr.valid = true)
    (ha : (s.segs.get (s.ref pre m).seg).cache.allows (s.ref pre m).off 2 true = true)
    (hw : linWrite s.xlat (.progWrite s.cpl) s.mem (s.linear (s.ref pre m)) (bytes2 s.tr.sel) = some m') :
    exec (.str pre (.mem m)) s = .next { s with mem := m', eip := s.nextEip (.str pre (.mem m)) } := by
  simp [exec, execStr, writeSelMem, hv, ha, hw, run_pure]

end Run

end Sys2Proof.Machine

open Sys2Proof Sys2Proof.Machine

/-- Settles O16: the completed run, the CPL check, and each check of the descriptor with its exception. -/
theorem ltrByItsRule : Obligations.LtrByItsRule := by
  refine ⟨fun pre src sel d p s h => exec_ltr_of_ready h, fun pre src s hc => exec_ltr_of_cpl_ne src hc,
    fun pre src sel s hc ho => ⟨fun hn => ?_, fun hn ht => ?_, fun hn ht hd => ?_, fun d hn ht hd => ?_⟩⟩
  · exact exec_ltr_of_locate_error hc ho (locateForLtr_null hn)
  · exact exec_ltr_of_locate_error hc ho (locateForLtr_inLdt hn ht)
  · exact exec_ltr_of_locate_error hc ho (locateForLtr_outOfBounds hn ht hd)
  · have hl := locateForLtr_found hn ht hd
    refine ⟨fun htss => ?_, fun _ hbusy => ?_, fun htss hbusy hp => ?_⟩
    · exact exec_ltr_of_locate_error hc ho (hl.trans (if_pos (.inl htss)))
    · exact exec_ltr_of_locate_error hc ho (hl.trans (if_pos (.inr hbusy)))
    · exact exec_ltr_of_locate_error hc ho (hl.trans (by simp [htss, hbusy, hp]))

/-- Settles O17, by the two ends of LTR. -/
theorem ltrFrame : Obligations.LtrFrame := by
  intro pre src s t h
  refine (execLtr_next h).imp_left ?_
  rintro ⟨sel, d, m, hsel, -, -, hm, rfl⟩
  exact ⟨sel, hsel, rfl, rfl, hm⟩

/-- Settles O18: the run of each destination, and the refusal. -/
theorem strByItsRule : Obligations.StrByItsRule :=
  ⟨fun _ r _ hv => exec_str_reg r hv, fun _ _ _ _ hv ha hw => exec_str_mem hv ha hw,
    fun _ dst _ hv => exec_str_of_invalid dst hv⟩

/-- Settles O19, by the ends of STR to a register and to memory. -/
theorem strFrame : Obligations.StrFrame := by
  refine ⟨fun pre r s t h => ?_, fun pre m s t h => ?_⟩
  · rw [execStr_reg_next h]
    exact ⟨rfl, fun q hq => Gprs.get_set16_other _ _ hq⟩
  · refine (execStr_mem_next h).imp_left ?_
    rintro ⟨m', hm, rfl⟩
    exact ⟨rfl, hm⟩

end

section
/-! PROOFS. What a step runs: the pending debug trap, the decoded instruction, the instruction stored at CS:EIP (41 R157, R158, 60 R201). -/

open Sys2Proof Sys2Proof.Machine

/-- Settles O8: the pending trap is looked at first. -/
theorem pendingDebugTrapComesFirst : Obligations.PendingDebugTrapComesFirst := by
  intro s h
  exact ⟨by rw [step, State.boundary, if_pos h, debugTrap], rfl⟩

/-- Settles O6: with nothing presented at this boundary the bytes at CS:EIP decide, and using up the entry does not change them. -/
theorem stepRunsTheDecodedInstruction : Obligations.StepRunsTheDecodedInstruction := by
  intro s i rest hp he hd
  rcases he with he | ⟨l, he⟩
  · have hs : ({ s with extInts := s.extInts.tail } : State) = s := by rw [he, List.tail_nil, ← he]
    rw [hs, step_of_quiet hp he, stepInstr, hd]
  · rw [step_of_none hp he, stepInstr, decoded_extInts, hd, he, List.tail_cons]

/-- Settles O7: the fetch begins with the stored bytes, which decode to the instruction they encode. -/
theorem stepRunsTheStoredInstruction : Obligations.StepRunsTheStoredInstruction := by
  intro s i hp he hwf hb
  have hlen : i.length ≤ Config.fetchWindow := by
    refine length_le_fetchWindow
      (f := fun w => (linRead1 s.xlat s.mem (.fetch s.cpl) (s.segs.cs.cache.base + (s.eip + w))).getD 0) fun k b hk => ?_
    obtain ⟨-, p, hphys, hread⟩ := hb k b hk
    rw [linRead1, hphys, Option.map_some, hread, Option.getD_some]
  obtain ⟨rest, hf⟩ := fetchBytes_stored s hlen s.eip hb
  have hd : s.decoded = .ok i rest := by rw [State.decoded, State.fetch, hf, decodeOfEncode _ i rest hwf]
  rw [step_of_quiet hp he, stepInstr, hd]

end

section
/-! PROOFS. Tests 1 to 3 of a task switch, each with its exception (41 R126 to R132). -/

namespace Sys2Proof.Machine

/-- A check and what comes after it. -/
theorem orElse_bind {α : Type} (b : Bool) (e : Stop) (f : Unit → Run α) :
    (orElse b e >>= f) = if b = false then .error e else f () := by cases b <;> rfl

section Target
variable {c : Cause} {sel : Sel} {ext : Bool} {retEip : Word} {s : State} {d : Descriptor}

theorem targetExc_eq (c : Cause) : targetExc c = if c = .iret then .ts else .gp := by cases c <;> rfl

theorem setsIncomingBusy_iff : setsIncomingBusy c = true ↔ c ≠ .iret := by cases c <;> decide

/-- A switch stops where locating its target does. -/
theorem taskSwitch_of_locate_error {e : Stop} (hv : s.tr.valid = true) (h : locateTss c sel ext s = .error e) :
    taskSwitch c sel ext retEip s = .error e := by
  rw [taskSwitch, hv, orElse_true, run_ok_bind, h, run_error_bind]

theorem locateTss_badSelector (h : selNull sel = true ∨ selTi sel = true) :
    locateTss c sel ext s = .error (raising (targetExc c) (errCode sel ext) .outgoing s) := by
  rcases h with h | h <;> simp [locateTss, h]

theorem locateTss_outOfBounds (hn : selNull sel = false) (ht : selTi sel = false) (hd : s.desc sel = .outOfBounds) :
    locateTss c sel ext s = .error (raising (targetExc c) (errCode sel ext) .outgoing s) := by
  simp [locateTss, hn, ht, hd]

/-- A descriptor found in the GDT: it is a TSS descriptor, present, of the busy state its cause asks for, and its limit is at least 103, in
this order (41 R126 to R131). -/
theorem locateTss_found (hn : selNull sel = false) (ht : selTi sel = false) (hd : s.desc sel = .found d) :
    locateTss c sel ext s =
      if isTss d = false then .error (raising (targetExc c) (errCode sel ext) .outgoing s)
      else if descPresent d = false then .error (raising .np (errCode sel ext) .outgoing s)
      else if isBusy d = setsIncomingBusy c then .error (raising (targetExc c) (errCode sel ext) .outgoing s)
      else if descG d = true ∧ (rawLimit d).toNat < 103 then .error (.refused .tssLimitReadingsDiffer)
      else if (effectiveLimit d).toNat < 103 then .error (raising .ts (errCode sel ext) .outgoing s)
      else .ok d := by
  simp only [locateTss, hn, ht, hd, Bool.not_false, Bool.and_true, orElse_true, run_ok_bind, orElse_bind, run_pure]
  cases c <;> simp [setsIncomingBusy, targetExc] <;> rfl

end Target

end Sys2Proof.Machine

open Sys2Proof Sys2Proof.Machine

/-- Settles O28: the selector, the bounds, and the first three checks of the descriptor. -/
theorem badTargetsRaise : Obligations.BadTargetsRaise := by
  intro c sel ext retEip s hv ec bad raises
  have raise {x : Exc} (h : locateTss c sel ext s = .error (raising x (errCode sel ext) .outgoing s)) : raises x :=
    taskSwitch_of_locate_error hv h
  have hbad : bad = targetExc c := (targetExc_eq c).symm
  rw [hbad]
  refine ⟨fun h => raise (locateTss_badSelector h), fun hn ht hd => raise (locateTss_outOfBounds hn ht hd),
    fun d hn ht hd => ?_⟩
  have found := locateTss_found (c := c) (ext := ext) hn ht hd
  refine ⟨fun htss => ?_, fun htss hp => ?_, fun htss hp hc hb => ?_, fun htss hp hc hb => ?_⟩
  · exact raise (by rw [found, if_pos htss])
  · exact raise (by simp [found, htss, hp])
  · have hexc : targetExc c = .gp := by rw [targetExc_eq, if_neg hc]
    exact raise (by simp [found, htss, hp, hb, setsIncomingBusy_iff.2 hc, hexc])
  · subst hc
    exact raise (by simp [found, htss, hp, hb, setsIncomingBusy, targetExc])

/-- Settles O29: test 3 comes after tests 1 and 2, and the scaled limit is at least the raw one. -/
theorem limitTest : Obligations.LimitTest := by
  intro c sel ext retEip d s hv hn ht hd htss hp hb
  have hbusy : isBusy d ≠ setsIncomingBusy c := fun e => by
    rw [e, setsIncomingBusy_iff] at hb
    exact not_iff_self hb
  have found := locateTss_found (c := c) (ext := ext) hn ht hd
  have hlimit := effectiveLimit_toNat d
  simp only [htss, hp, hbusy, Bool.true_eq_false, if_false] at found
  refine ⟨fun hg hl => ?_, fun hg hl => ?_, fun hl => ?_⟩
  · rw [hg, if_neg Bool.false_ne_true] at hlimit
    exact taskSwitch_of_locate_error hv (by rw [found, if_neg (by simp [hg]), if_pos (by omega)]; rfl)
  · exact taskSwitch_of_locate_error hv (by rw [found, if_pos ⟨hg, hl⟩])
  · rw [found, if_neg (by omega), if_neg]
    split at hlimit <;> omega

end

section
/-! PROOFS. Far JMP and CALL: the operand, the privilege check of a TSS descriptor and of a task gate, and the switch (41 R122 to R125, R164;
42 R170 to R173). -/

namespace Sys2Proof.Machine

/-! ### The operand -/

/-- Bytes that are all mapped can be read together. -/
theorem linRead2_isSome {x : Xlat} {m : Memory} {acc : Access} {a : Word}
    (h : ∀ k < 2, (x.phys m (a + BitVec.ofNat 32 k) acc).isSome = true) : ∃ v, linRead2 x m acc a = some v := by
  obtain ⟨p0, h0⟩ := Option.isSome_iff_exists.1 (h 0 (by decide))
  obtain ⟨p1, h1⟩ := Option.isSome_iff_exists.1 (h 1 (by decide))
  rw [BitVec.add_zero] at h0
  exact ⟨_, linRead2_of_bytes (by rw [linRead1, h0]; rfl) (by rw [linRead1, show a + 1 = a + BitVec.ofNat 32 1 from rfl, h1]; rfl)⟩

theorem linRead4_isSome {x : Xlat} {m : Memory} {acc : Access} {a : Word}
    (h : ∀ k < 4, (x.phys m (a + BitVec.ofNat 32 k) acc).isSome = true) : ∃ v, linRead4 x m acc a = some v := by
  have byte (k : Nat) (hk : k < 4) : ∃ b, linRead1 x m acc (a + BitVec.ofNat 32 k) = some b := by
    obtain ⟨p, hp⟩ := Option.isSome_iff_exists.1 (h k hk)
    exact ⟨_, by rw [linRead1, hp]; rfl⟩
  obtain ⟨b0, h0⟩ := byte 0 (by decide)
  obtain ⟨b1, h1⟩ := byte 1 (by decide)
  obtain ⟨b2, h2⟩ := byte 2 (by decide)
  obtain ⟨b3, h3⟩ := byte 3 (by decide)
  rw [BitVec.add_zero] at h0
  exact ⟨_, linRead4_of_bytes h0 h1 h2 h3⟩

/-- A far pointer that can be read is read (30 R92). -/
theorem readFarPointer_of_farPointer {s : State} {pre : List Prefix} {size : OpSize} {m : Mem} {sel : Sel}
    (h : FarPointer s pre size m sel) : readFarPointer s size (s.ref pre m) = .ok sel := by
  obtain ⟨hallow, hoff, hsel⟩ := h
  cases size with
  | s16 =>
    obtain ⟨v, hv⟩ := linRead2_isSome hoff
    simp [readFarPointer, hallow, hv, hsel]
  | s32 =>
    obtain ⟨v, hv⟩ := linRead4_isSome hoff
    simp [readFarPointer, hallow, hv, hsel]

/-- In every operand form a far JMP or CALL is the far transfer to its selector (42 R171 to R173). -/
theorem exec_of_farOperand {s : State} {i : Instr} {c : Cause} {v : Sel} (h : FarOperand s i c v) :
    exec i s = finish (farTransfer c v (s.nextEip i) s) := by
  cases i with
  | jmpPtr32 | jmpPtr16 | callPtr32 | callPtr16 =>
    obtain ⟨rfl, rfl⟩ := h
    rfl
  | jmpMem pre size m | callMem pre size m =>
    obtain ⟨rfl, h⟩ := h
    simp only [exec, execJmpMem, execCallMem, readFarPointer_of_farPointer h, run_ok_bind]
  | ltr | str | iret | intImm | int3 | into => exact h.elim

/-! ### The privilege checks -/

section Privilege
variable {c : Cause} {v : Sel} {d : Descriptor} {eip : Word} {s : State}

theorem mayUse_iff : mayUse s v d = true ↔ max s.cpl.toNat (selRpl v).toNat ≤ (descDpl d).toNat := by
  rw [mayUse, decide_eq_true_eq]

/-- No descriptor is both a task gate and a TSS descriptor (10 R47). -/
theorem isTss_of_isTaskGate (h : isTaskGate d = true) : isTss d = false := by
  simp only [isTaskGate, Bool.and_eq_true, beq_iff_eq] at h
  simp [isTss, h.2]

/-- A far transfer to a TSS descriptor (41 R123). -/
theorem farTransfer_tss (hn : selNull v = false) (hd : s.desc v = .found d) (ht : isTss d = true) :
    farTransfer c v eip s =
      if selTi v = false ∧ max s.cpl.toNat (selRpl v).toNat ≤ (descDpl d).toNat then taskSwitch c v false eip s
      else .error (raising .gp (v &&& 0xFFFC#16) .outgoing s) := by
  simp only [← mayUse_iff]
  cases hti : selTi v <;> cases hm : mayUse s v d <;> simp [farTransfer, hn, hd, ht, hti, hm, errCode_noExt]

/-- A far transfer to a task gate (41 R124). -/
theorem farTransfer_gate (hn : selNull v = false) (hd : s.desc v = .found d) (hg : isTaskGate d = true) :
    farTransfer c v eip s =
      if max s.cpl.toNat (selRpl v).toNat ≤ (descDpl d).toNat then
        if descPresent d then taskSwitch c (gateSelector d) false eip s
        else .error (raising .np (v &&& 0xFFFC#16) .outgoing s)
      else .error (raising .gp (v &&& 0xFFFC#16) .outgoing s) := by
  simp only [← mayUse_iff]
  cases hm : mayUse s v d <;> cases hp : descPresent d <;>
    simp [farTransfer, hn, hd, hg, isTss_of_isTaskGate hg, hm, hp, errCode_noExt]

end Privilege

/-! ### The switch -/

section FarSwitch
variable {i : Instr} {c : Cause} {v : Sel} {d : Descriptor} {s : State}

/-- A far JMP or CALL to a TSS descriptor it may use is the switch to it. -/
theorem exec_far_tss (ho : FarOperand s i c v) (hn : selNull v = false) (hti : selTi v = false) (hd : s.desc v = .found d)
    (ht : isTss d = true) (hm : max s.cpl.toNat (selRpl v).toNat ≤ (descDpl d).toNat) :
    exec i s = finish (taskSwitch c v false (s.nextEip i) s) := by
  rw [exec_of_farOperand ho, farTransfer_tss hn hd ht, if_pos ⟨hti, hm⟩]

/-- A far JMP or CALL through a present task gate it may use is the switch to the gate's selector. -/
theorem exec_far_gate (ho : FarOperand s i c v) (hn : selNull v = false) (hd : s.desc v = .found d) (hg : isTaskGate d = true)
    (hp : descPresent d = true) (hm : max s.cpl.toNat (selRpl v).toNat ≤ (descDpl d).toNat) :
    exec i s = finish (taskSwitch c (gateSelector d) false (s.nextEip i) s) := by
  rw [exec_of_farOperand ho, farTransfer_gate hn hd hg, if_pos hm, if_pos hp]

/-- A far JMP or CALL to a ready TSS descriptor is the switch to it. -/
theorem exec_far_ready {img : Image} {ldt : LdtReg} (ho : FarOperand s i c v)
    (hm : max s.cpl.toNat (selRpl v).toNat ≤ (descDpl d).toNat) (hr : SwitchReady c v d img ldt (s.nextEip i) s) :
    exec i s = finish (taskSwitch c v false (s.nextEip i) s) := by
  obtain ⟨-, hn, hti, hd, ht, -⟩ := hr.target
  exact exec_far_tss ho hn hti hd ht hm

/-- A far operand belongs to JMP or CALL, whose target must not be busy. -/
theorem setsIncomingBusy_of_farOperand (h : FarOperand s i c v) : setsIncomingBusy c = true := by
  cases i with
  | jmpPtr32 | jmpPtr16 | jmpMem | callPtr32 | callPtr16 | callMem => rw [h.1]; rfl
  | ltr | str | iret | intImm | int3 | into => exact h.elim

/-- The switch of a JMP or CALL to a busy task raises GP (41 R129). -/
theorem taskSwitch_busy {eip : Word} (hc : setsIncomingBusy c = true) (hv : s.tr.valid = true) (hn : selNull v = false)
    (hti : selTi v = false) (hd : s.desc v = .found d) (ht : isTss d = true) (hp : descPresent d = true) (hb : isBusy d = true) :
    taskSwitch c v false eip s = .error (raising .gp (v &&& 0xFFFC#16) .outgoing s) := by
  have hexc : targetExc c = .gp := by rw [targetExc_eq, if_neg (setsIncomingBusy_iff.1 hc)]
  refine taskSwitch_of_locate_error hv ?_
  rw [locateTss_found hn hti hd]
  simp [ht, hp, hb, hc, hexc, errCode_noExt]

end FarSwitch

end Sys2Proof.Machine

open Sys2Proof Sys2Proof.Machine

/-- Settles O21: the far transfer to a TSS descriptor, in every operand form. -/
theorem tssDescriptorPrivilege : Obligations.TssDescriptorPrivilege := by
  intro i c v d s ho hn hd ht
  rw [exec_of_farOperand ho, farTransfer_tss hn hd ht, apply_ite finish]
  rfl

/-- Settles O22: the far transfer to a task gate, in every operand form. -/
theorem taskGatePrivilege : Obligations.TaskGatePrivilege := by
  intro i c v g s ho hn hd hg
  rw [exec_of_farOperand ho, farTransfer_gate hn hd hg, apply_ite finish, apply_ite finish]
  rfl

/-- Settles O23: the instruction is the switch, which completes to a ready target. -/
theorem farTransferToTssCompletes : Obligations.FarTransferToTssCompletes := by
  intro i c v d img ldt s ho hm hr
  obtain ⟨t, ht, hcompletes⟩ := taskSwitch_completes false hr
  exact ⟨t, by rw [exec_far_ready ho hm hr, ht, finish_ok], hcompletes⟩

/-- Settles O24: the same through the gate, whose DPL alone is checked. -/
theorem farTransferThroughGateCompletes : Obligations.FarTransferThroughGateCompletes := by
  intro i c v g d img ldt s ho hn hd hg hp hm hr
  obtain ⟨t, ht, hcompletes⟩ := taskSwitch_completes false hr
  exact ⟨t, by rw [exec_far_gate ho hn hd hg hp hm, ht, finish_ok], hcompletes⟩

/-- Settles O27: directly or through a gate, the switch meets a busy descriptor. -/
theorem noReentry : Obligations.NoReentry := by
  intro i c v d s ho hv
  have hc := setsIncomingBusy_of_farOperand ho
  refine ⟨fun hn hti hd ht hp hb hm => ?_, fun g hn hg hgate hgp hm hgn hgti hd ht hp hb => ?_⟩
  · rw [exec_far_tss ho hn hti hd ht hm, taskSwitch_busy hc hv hn hti hd ht hp hb, finish_raising]
  · rw [exec_far_gate ho hn hg hgate hgp hm, taskSwitch_busy hc hv hgn hgti hd ht hp hb, finish_raising]

end

section
/-! PROOFS. Tests 4 to 16 of a task switch, each with its exception (41 R142, R148 to R155). -/

namespace Sys2Proof.Machine

/-! ### Tests 4 and 5 (41 R150) -/

section LdtTest
variable {x : Xlat} {ext : Bool} {s : State}

theorem testLdt_raises (hn : selNull s.ldtr.sel = false)
    (h : selTi s.ldtr.sel = true ∨ s.newDesc x s.ldtr.sel = .outOfBounds ∨
      ∃ l, s.newDesc x s.ldtr.sel = .found l ∧ (isLdt l = false ∨ descPresent l = false)) :
    testLdt x ext s = .error (raising .ts (errCode s.tr.sel ext) .incoming s) := by
  cases ht : selTi s.ldtr.sel with
  | true => simp [testLdt, hn, ht]
  | false =>
    rcases h with h | h | ⟨l, h, hl | hl⟩
    · rw [ht] at h
      cases h
    · simp [testLdt, hn, ht, h]
    · simp [testLdt, hn, ht, h, hl]
    · simp [testLdt, hn, ht, h, hl, orElse_bind]

theorem testLdt_passes {s0 : State} {ldt : LdtReg}
    (hd : selNull s.ldtr.sel = false → selTi s.ldtr.sel = false → s.newDesc x s.ldtr.sel = s0.desc s.ldtr.sel)
    (h : LdtLoads s0 s.ldtr.sel ldt) : testLdt x ext s = .ok { s with ldtr := ldt } := by
  rcases h with ⟨hn, rfl⟩ | ⟨hn, ht, d, hf, hi, hp, rfl⟩
  · simp [testLdt, hn, Config.nullSelOk]
  · simp [testLdt, hn, ht, hd hn ht, hf, hi, hp, run_pure]

end LdtTest

/-! ### Tests 6 to 12 (41 R151, R152) -/

section CodeAndStackTests
variable {x : Xlat} {ext : Bool} {s : State} {v : Sel} {d : Descriptor}

theorem testCs_bad (hs : s.segs.cs.sel = v) (h : selNull v = true ∨ s.newDesc x v = .outOfBounds) :
    testCs x ext s = .error (raising .ts (errCode v ext) .incoming s) := by
  subst hs
  cases hn : selNull s.segs.cs.sel
  · simp [testCs, hn, h.resolve_left (by simp [hn])]
  · simp [testCs, hn]

/-- A code segment that is found: its type, its presence and its level, in this order. -/
theorem testCs_found (hs : s.segs.cs.sel = v) (hn : selNull v = false) (hd : s.newDesc x v = .found d) :
    testCs x ext s =
      if isCode d = false then .error (raising .ts (errCode v ext) .incoming s)
      else if descPresent d = false then .error (raising .np (errCode v ext) .incoming s)
      else if codeDplMatches d (selRpl v) = false then .error (raising .ts (errCode v ext) .incoming s)
      else .ok { s with segs := { s.segs with cs := { sel := v, cache := .ofDesc d } } } := by
  subst hs
  simp [testCs, hn, hd, orElse_bind, run_pure]

theorem testSs_bad (hs : s.segs.ss.sel = v) (h : selNull v = true ∨ s.newDesc x v = .outOfBounds) :
    testSs x ext s = .error (raising .gp (errCode v ext) .incoming s) := by
  subst hs
  cases hn : selNull s.segs.ss.sel
  · simp [testSs, hn, h.resolve_left (by simp [hn])]
  · simp [testSs, hn]

/-- A stack segment that is found: its type, its presence, its level and the RPL of its selector, in this order. -/
theorem testSs_found (hs : s.segs.ss.sel = v) (hn : selNull v = false) (hd : s.newDesc x v = .found d) :
    testSs x ext s =
      if isWritableData d = false then .error (raising .gp (errCode v ext) .incoming s)
      else if descPresent d = false then .error (raising .sf (errCode v ext) .incoming s)
      else if descDpl d ≠ s.cpl then .error (raising .sf (errCode v ext) .incoming s)
      else if selRpl v ≠ s.cpl then .error (raising .gp (errCode v ext) .incoming s)
      else .ok { s with segs := { s.segs with ss := { sel := v, cache := .ofDesc d } } } := by
  subst hs
  simp [testSs, hn, hd, orElse_bind, run_pure]

end CodeAndStackTests

/-- The rule's words for a level that matches (41 R151, D27). -/
theorem codeDplMatches_iff {d : Descriptor} {rpl : BitVec 2} : codeDplMatches d rpl = true ↔
    if isConforming d then (descDpl d).toNat ≤ rpl.toNat else descDpl d = rpl := by
  unfold codeDplMatches
  split <;> simp

section CodeAndStackPass
variable {x : Xlat} {s s0 : State} {ldt : LdtReg} {v : Sel}

theorem testCs_passes (ext : Bool) (hs : s.segs.cs.sel = v) (hd : selNull v = false → s.newDesc x v = s0.descIn ldt v)
    (h : CodeLoads s0 ldt v) :
    ∃ k, testCs x ext s = .ok { s with segs := { s.segs with cs := { sel := v, cache := .ofDesc k } } } := by
  obtain ⟨hn, k, hk, hcode, hp, hdpl⟩ := h
  refine ⟨k, (testCs_found hs hn ((hd hn).trans hk)).trans ?_⟩
  simp [hcode, hp, codeDplMatches_iff.2 hdpl]

theorem testSs_passes (ext : Bool) (hs : s.segs.ss.sel = v) (hd : selNull v = false → s.newDesc x v = s0.descIn ldt v)
    (h : StackLoads s0 ldt s.cpl v) :
    ∃ k, testSs x ext s = .ok { s with segs := { s.segs with ss := { sel := v, cache := .ofDesc k } } } := by
  obtain ⟨hn, k, hk, hdata, hp, hdpl, hrpl⟩ := h
  refine ⟨k, (testSs_found hs hn ((hd hn).trans hk)).trans ?_⟩
  simp [hdata, hp, hdpl, hrpl]

end CodeAndStackPass

/-! ### Tests 13 to 16 (41 R153, R155) -/

/-- Why a data segment register whose descriptor is looked up as `l` fails with the exception `e` first (41 R153). -/
def DataFails (l : Lookup) (cpl : BitVec 2) (e : Exc) : Prop :=
  (e = .gp ∧ l = .outOfBounds) ∨
    ∃ k, l = .found k ∧
      ((e = .gp ∧ (descS k = false ∨ isReadable k = false)) ∨
        (e = .np ∧ descS k = true ∧ isReadable k = true ∧ descPresent k = false) ∨
        (e = .gp ∧ descS k = true ∧ isReadable k = true ∧ descPresent k = true ∧ isConforming k = false ∧
          (descDpl k).toNat < cpl.toNat))

/-- Why a data segment register whose descriptor is looked up as `l` passes. -/
def DataPasses (l : Lookup) (cpl : BitVec 2) : Prop :=
  ∃ k, l = .found k ∧ descS k = true ∧ isReadable k = true ∧ descPresent k = true ∧
    (isConforming k = true ∨ cpl.toNat ≤ (descDpl k).toNat)

section DataTest
variable {x : Xlat} {ext : Bool} {s : State} {g : SReg} {v : Sel}

/-- The three outcomes of tests 13 to 16 of one register, each with its reason. -/
theorem testData_outcome (hv : (s.segs.get g).sel = v) :
    (testData x ext s g = .pageFault ∧ selNull v = false ∧ s.newDesc x v = .pageFault) ∨
      ((∃ c, testData x ext s g = .passes c) ∧ (selNull v = true ∨ DataPasses (s.newDesc x v) s.cpl)) ∨
      ∃ e, testData x ext s g = .fails { exc := e, code := some (errCode v ext), ctx := .incoming } ∧ selNull v = false ∧
        DataFails (s.newDesc x v) s.cpl e := by
  cases hn : selNull v with
  | true => exact .inr (.inl ⟨⟨.unloaded, by simp [testData, hv, hn, Config.nullSelOk]⟩, .inl rfl⟩)
  | false =>
    cases hl : s.newDesc x v with
    | pageFault => exact .inl ⟨by simp [testData, hv, hn, hl], rfl, rfl⟩
    | outOfBounds => exact .inr (.inr ⟨.gp, by simp [testData, hv, hn, hl], rfl, .inl ⟨rfl, rfl⟩⟩)
    | found k =>
      suffices h : (∃ c, testData x ext s g = .passes c) ∧ DataPasses (.found k) s.cpl ∨
          ∃ e, testData x ext s g = .fails { exc := e, code := some (errCode v ext), ctx := .incoming } ∧
            DataFails (.found k) s.cpl e by
        exact .inr (h.imp (And.imp_right .inr) fun ⟨e, he, hwhy⟩ => ⟨e, he, rfl, hwhy⟩)
      by_cases hs : descS k = false
      · exact .inr ⟨.gp, by simp [testData, hv, hn, hl, hs], .inr ⟨k, rfl, .inl ⟨rfl, .inl hs⟩⟩⟩
      by_cases hr : isReadable k = false
      · exact .inr ⟨.gp, by simp [testData, hv, hn, hl, hr], .inr ⟨k, rfl, .inl ⟨rfl, .inr hr⟩⟩⟩
      rw [Bool.not_eq_false] at hs hr
      by_cases hp : descPresent k = false
      · exact .inr ⟨.np, by simp [testData, hv, hn, hl, hs, hr, hp], .inr ⟨k, rfl, .inr (.inl ⟨rfl, hs, hr, hp⟩)⟩⟩
      rw [Bool.not_eq_false] at hp
      by_cases hc : isConforming k = true ∨ s.cpl.toNat ≤ (descDpl k).toNat
      · have hlevel : (isConforming k || decide (s.cpl.toNat ≤ (descDpl k).toNat)) = true := by simpa using hc
        exact .inl ⟨⟨.ofDesc k, by simp [testData, hv, hn, hl, hs, hr, hp, hlevel]⟩, k, rfl, hs, hr, hp, hc⟩
      · rw [not_or, Bool.not_eq_true, Nat.not_le] at hc
        exact .inr ⟨.gp, by simp [testData, hv, hn, hl, hs, hr, hp, hc], .inr ⟨k, rfl, .inr (.inr ⟨rfl, hs, hr, hp, hc⟩)⟩⟩

theorem mem_dataFailures {r : Raise} : r ∈ dataFailures x ext s ↔ ∃ g ∈ dataRegs, testData x ext s g = .fails r := by
  simp only [dataFailures, List.mem_filterMap]
  refine exists_congr fun g => and_congr_right fun _ => ?_
  cases testData x ext s g <;> simp

/-- With every descriptor mapped, a register that fails makes the tests raise the exception of a register that fails (41 R155). -/
theorem testDataRegs_raises (hp : ∀ g ∈ dataRegs, testData x ext s g ≠ .pageFault) {g : SReg} {r : Raise} (hg : g ∈ dataRegs)
    (hf : testData x ext s g = .fails r) :
    ∃ g' ∈ dataRegs, ∃ r' t, testData x ext s g' = .fails r' ∧ testDataRegs x ext s = .error (.raised r' t) := by
  obtain ⟨r', t, h⟩ : ∃ r' t, testDataRegs x ext s = .error (.raised r' t) := by
    have hmem : r ∈ dataFailures x ext s := mem_dataFailures.2 ⟨g, hg, hf⟩
    rw [testDataRegs, if_neg (by simpa using hp)]
    split
    · rename_i hnil
      rw [hnil] at hmem
      cases hmem
    all_goals exact ⟨_, _, rfl⟩
  obtain ⟨g', hg', hf'⟩ := mem_dataFailures.1 (testDataRegs_raised h).1
  exact ⟨g', hg', r', t, hf', h⟩

end DataTest

/-! ### The tests within a switch whose loads go through -/

/-- Where linear addresses map to themselves no descriptor meets a missing page. -/
theorem lookup_ne_pageFault {x : Xlat} {m : Memory} (hx : x.Flat m) (gdt : TableReg) (ldt : LdtReg) (v : Sel) :
    lookup x m gdt ldt v ≠ .pageFault := by
  have read (a : Word) : Lookup.ofRead (linRead8 x m .sysRead a) ≠ .pageFault := by
    simp [linRead8, linRead4, linRead1_of_flat hx, Lookup.ofRead]
  unfold lookup
  split_ifs
  exacts [read _, Lookup.noConfusion, read _, Lookup.noConfusion]

/-- The selector of an image that a segment register is loaded with. -/
def Image.seg (img : Image) : SReg → Sel
  | .es => img.es | .cs => img.cs | .ss => img.ss | .ds => img.ds | .fs => img.fs | .gs => img.gs

theorem Image.seg_mem (img : Image) (g : SReg) : img.seg g ∈ img.sels := by cases g <;> simp [Image.seg, Image.sels]

/-- A state on which tests 6 to 16 of a switch from `s` are made: its selectors and its level are those of the image, and the descriptors of
the image read as they did before the switch, in the LDT that the switch has loaded. -/
structure InTests (img : Image) (ldt : LdtReg) (s t : State) : Prop where
  sels : ∀ g, (t.segs.get g).sel = img.seg g
  cpl : t.cpl = selRpl img.cs
  reads : ∀ v ∈ img.sels, selNull v = false → t.newDesc (s.xlat.under img.pdbr) v = s.descIn ldt v

/-- Loading the invisible part of a segment register keeps such a state one. -/
theorem InTests.load {img : Image} {ldt : LdtReg} {s t : State} (h : InTests img ldt s t) (g : SReg) (cache : SegCache) :
    InTests img ldt s { t with segs := t.segs.set g { sel := img.seg g, cache := cache } } where
  sels q := by
    by_cases hq : q = g
    · rw [hq, Segs.get_set_same]
    · rw [Segs.get_set_other _ _ hq, h.sels q]
  cpl := h.cpl
  reads := h.reads

section LoadReady
variable {c : Cause} {sel : Sel} {d : Descriptor} {img : Image} {ldt : LdtReg} {retEip : Word} {s : State}

/-- The outgoing task is saved and the image read, whatever the image says (41 R133 to R142). -/
theorem LoadReady.reads_image (h : LoadReady c sel d img ldt retEip s) :
    ∃ m, runStores s.xlat .sysWrite s.mem (outgoingStores c retEip s ++ incomingStores c sel s) = some m ∧
      loadImage s.xlat m (descBase d) = some img := by
  obtain ⟨m, hm, hnear⟩ := runStores_of_flat (acc := .sysWrite) (l := outgoingStores c retEip s ++ incomingStores c sel s) h.flat
    (fun st hs => List.mem_append_left _ hs) (Near.refl _ _)
  exact ⟨m, hm, (loadImage_congr h.flat.flat (h.flat _ hnear) hnear (apart_iff.1 h.tssApart)).trans h.image⟩

theorem LoadReady.locates (h : LoadReady c sel d img ldt retEip s) (ext : Bool) : locateTss c sel ext s = .ok d :=
  locateTss_ok.2 h.target.2

/-- A switch whose loads go through up to its tests: the loaded state, and that the switch stops where its tests do. -/
theorem LoadReady.tests (h : LoadReady c sel d img ldt retEip s) (ext : Bool) (hv : flagVm img.eflags = false) :
    ∃ m, (∀ v ∈ img.sels, selNull v = false → lookup (s.xlat.under img.pdbr) m s.gdt ldt v = s.descIn ldt v) ∧
      ∀ e, runTests (s.xlat.under img.pdbr) ext (enterTask c sel d img m s) = .error e →
        taskSwitch c sel ext retEip s = .error e := by
  obtain ⟨m, hload, hnear⟩ := loadTask_of_ready h hv
  refine ⟨m, fun v hv hn => lookup_congr h.flat.flat (h.flatNew _ hnear) hnear (apart_iff.1 (h.descApart v hv hn)), fun e he => ?_⟩
  rw [taskSwitch, h.target.1, orElse_true, run_ok_bind, h.locates ext, run_ok_bind, pagesPresent_of_flat h.flat.flat, run_ok_bind,
    hload, run_ok_bind]
  simp only [enterTask_pdbr, he, run_error_bind]

/-- The same once the LDT is loaded. -/
theorem LoadReady.tests_afterLdt (h : LoadReady c sel d img ldt retEip s) (ext : Bool) (hv : flagVm img.eflags = false)
    (hl : LdtLoads s img.ldt ldt) :
    ∃ t, InTests img ldt s t ∧ ∀ e,
      (testCs (s.xlat.under img.pdbr) ext t >>= fun t' => testSs (s.xlat.under img.pdbr) ext t' >>=
        testDataRegs (s.xlat.under img.pdbr) ext) = .error e → taskSwitch c sel ext retEip s = .error e := by
  obtain ⟨m, reads, raise⟩ := h.tests ext hv
  refine ⟨{ enterTask c sel d img m s with ldtr := ldt }, ⟨fun g => by cases g <;> rfl, rfl, reads⟩, fun e he => raise e ?_⟩
  rw [runTests, testLdt_passes (s := enterTask c sel d img m s) (fun hn ht => ?_) hl, run_ok_bind]
  · exact he
  · exact (lookup_gdt ht).trans ((reads img.ldt (by simp [Image.sels]) hn).trans (lookup_gdt ht))

/-- The same once CS has passed. -/
theorem LoadReady.tests_afterCode (h : LoadReady c sel d img ldt retEip s) (ext : Bool) (hv : flagVm img.eflags = false)
    (hl : LdtLoads s img.ldt ldt) (hc : CodeLoads s ldt img.cs) :
    ∃ t, InTests img ldt s t ∧ ∀ e,
      (testSs (s.xlat.under img.pdbr) ext t >>= testDataRegs (s.xlat.under img.pdbr) ext) = .error e →
        taskSwitch c sel ext retEip s = .error e := by
  obtain ⟨t, ht, raise⟩ := h.tests_afterLdt ext hv hl
  obtain ⟨k, hk⟩ := testCs_passes ext (ht.sels .cs) (ht.reads _ (img.seg_mem .cs)) hc
  exact ⟨_, ht.load .cs (.ofDesc k), fun e he => raise e (by rw [hk]; exact he)⟩

/-- The same once SS has passed. -/
theorem LoadReady.tests_afterStack (h : LoadReady c sel d img ldt retEip s) (ext : Bool) (hv : flagVm img.eflags = false)
    (hl : LdtLoads s img.ldt ldt) (hc : CodeLoads s ldt img.cs) (hs : StackLoads s ldt (selRpl img.cs) img.ss) :
    ∃ t, InTests img ldt s t ∧ ∀ e, testDataRegs (s.xlat.under img.pdbr) ext t = .error e →
      taskSwitch c sel ext retEip s = .error e := by
  obtain ⟨t, ht, raise⟩ := h.tests_afterCode ext hv hl hc
  obtain ⟨k, hk⟩ := testSs_passes ext (ht.sels .ss) (ht.reads _ (img.seg_mem .ss)) (ht.cpl ▸ hs)
  exact ⟨_, ht.load .ss (.ofDesc k), fun e he => raise e (by rw [hk]; exact he)⟩

/-- On such a state a data segment register passes its tests and its selector loads, or it fails for the reason of its lowest-numbered failing
test: it meets no missing page. -/
theorem InTests.data_outcome {t : State} (ht : InTests img ldt s t) (hx : s.xlat.Flat s.mem) (ext : Bool) (g : SReg) :
    ((∃ c, testData (s.xlat.under img.pdbr) ext t g = .passes c) ∧ DataLoads s ldt (selRpl img.cs) (img.seg g)) ∨
      ∃ e, testData (s.xlat.under img.pdbr) ext t g =
          .fails { exc := e, code := some (errCode (img.seg g) ext), ctx := .incoming } ∧
        selNull (img.seg g) = false ∧ DataFails (s.descIn ldt (img.seg g)) (selRpl img.cs) e := by
  have outcome := testData_outcome (x := s.xlat.under img.pdbr) (ext := ext) (ht.sels g)
  rw [ht.cpl] at outcome
  cases hn : selNull (img.seg g) with
  | true =>
    rw [hn] at outcome
    rcases outcome with ⟨-, h, -⟩ | ⟨hpass, -⟩ | ⟨e, -, h, -⟩
    · cases h
    · exact .inl ⟨hpass, .inl hn⟩
    · cases h
  | false =>
    rw [hn, ht.reads _ (img.seg_mem g) hn] at outcome
    rcases outcome with ⟨-, -, h⟩ | ⟨hpass, hloads⟩ | hfails
    · exact absurd h (lookup_ne_pageFault hx _ _ _)
    · exact .inl ⟨hpass, .inr (hloads.resolve_left Bool.false_ne_true)⟩
    · exact .inr hfails

end LoadReady

end Sys2Proof.Machine

open Sys2Proof Sys2Proof.Machine

/-- Settles O31: tests 4 and 5 come first, and an LDT selector of the GDT reads as it did before the switch. -/
theorem ldtTests : Obligations.LdtTests := by
  intro c sel ext d img ldt retEip s h hv hn hbad
  obtain ⟨m, reads, raise⟩ := h.tests ext hv
  refine ⟨enterTask c sel d img m s, raise _ ?_⟩
  rw [runTests, testLdt_raises (s := enterTask c sel d img m s) hn]
  · rfl
  · rcases Bool.eq_false_or_eq_true (selTi img.ldt) with ht | ht
    · exact .inl ht
    · have hread : (enterTask c sel d img m s).newDesc (s.xlat.under img.pdbr) img.ldt = s.desc img.ldt :=
        (lookup_gdt ht).trans ((reads img.ldt (by simp [Image.sels]) hn).trans (lookup_gdt ht))
      rwa [← hread] at hbad

/-- Settles O32: with the LDT loaded CS is tested next. -/
theorem codeSegmentTests : Obligations.CodeSegmentTests := by
  intro c sel ext d img ldt retEip s h hv hl raises
  obtain ⟨t, ht, raise⟩ := h.tests_afterLdt ext hv hl
  have fail {x : Exc} (hx : testCs (s.xlat.under img.pdbr) ext t = .error (raising x (errCode img.cs ext) .incoming t)) : raises x :=
    ⟨t, raise _ (by rw [hx]; rfl)⟩
  have hsel : t.segs.cs.sel = img.cs := ht.sels .cs
  have reads (hn : selNull img.cs = false) : _ = s.descIn ldt img.cs := ht.reads _ (img.seg_mem .cs) hn
  refine ⟨fun hn => fail (testCs_bad hsel (.inl hn)),
    fun hn hd => fail (testCs_bad hsel (.inr ((reads hn).trans hd))), fun k hn hk => ?_⟩
  have found := testCs_found (ext := ext) hsel hn ((reads hn).trans hk)
  have mismatch (h : ¬if isConforming k then (descDpl k).toNat ≤ (selRpl img.cs).toNat else descDpl k = selRpl img.cs) :
      codeDplMatches k (selRpl img.cs) = false := Bool.eq_false_iff.2 (mt codeDplMatches_iff.1 h)
  refine ⟨fun hc => ?_, fun hc hp => ?_, fun hc hp hconf hdpl => ?_, fun hc hp hconf hdpl => ?_⟩
  · exact fail (found.trans (if_pos hc))
  · exact fail (found.trans (by simp [hc, hp]))
  · exact fail (found.trans (by simp [hc, hp, mismatch (by simpa [hconf] using hdpl)]))
  · exact fail (found.trans (by simp [hc, hp, mismatch (by simpa [hconf] using hdpl)]))

/-- Settles O33: with CS passed SS is tested next. -/
theorem stackSegmentTests : Obligations.StackSegmentTests := by
  intro c sel ext d img ldt retEip s h hv hl hcode raises
  obtain ⟨t, ht, raise⟩ := h.tests_afterCode ext hv hl hcode
  have fail {x : Exc} (hx : testSs (s.xlat.under img.pdbr) ext t = .error (raising x (errCode img.ss ext) .incoming t)) : raises x :=
    ⟨t, raise _ (by rw [hx]; rfl)⟩
  have hsel : t.segs.ss.sel = img.ss := ht.sels .ss
  have reads (hn : selNull img.ss = false) : _ = s.descIn ldt img.ss := ht.reads _ (img.seg_mem .ss) hn
  refine ⟨fun hn => fail (testSs_bad hsel (.inl hn)),
    fun hn hd => fail (testSs_bad hsel (.inr ((reads hn).trans hd))), fun k hn hk => ?_⟩
  have found := testSs_found (ext := ext) hsel hn ((reads hn).trans hk)
  rw [ht.cpl] at found
  refine ⟨fun hw => ?_, fun hw hp => ?_, fun hw hp hdpl => ?_, fun hw hp hdpl hrpl => ?_⟩
  · exact fail (found.trans (if_pos hw))
  · exact fail (found.trans (by simp [hw, hp]))
  · exact fail (found.trans (by simp [hw, hp, hdpl]))
  · exact fail (found.trans (by simp [hw, hp, hdpl, hrpl]))

/-- Settles O34: no data segment register meets a missing page, so that one which does not load makes the tests report one that fails. -/
theorem dataSegmentTests : Obligations.DataSegmentTests := by
  intro c sel ext d img ldt retEip s h hv hl hcode hstack hbad
  obtain ⟨t, ht, raise⟩ := h.tests_afterStack ext hv hl hcode hstack
  have outcome := ht.data_outcome h.flat.flat ext
  have hpage : ∀ g ∈ dataRegs, testData (s.xlat.under img.pdbr) ext t g ≠ .pageFault := by
    intro g _ hp
    rcases outcome g with ⟨⟨c, hc⟩, -⟩ | ⟨e, he, -⟩
    · cases hp.symm.trans hc
    · cases hp.symm.trans he
  obtain ⟨v, hmem, hnot⟩ := hbad
  obtain ⟨g, hg, rfl⟩ := List.mem_map.1 (show v ∈ dataRegs.map img.seg from hmem)
  obtain ⟨_, hfail, -⟩ := (outcome g).resolve_left fun ⟨_, hloads⟩ => hnot hloads
  obtain ⟨g', hg', r, u, hfails, herror⟩ := testDataRegs_raises hpage hg hfail
  rcases outcome g' with ⟨⟨c, hc⟩, -⟩ | ⟨e, he, hn, hwhy⟩
  · cases hfails.symm.trans hc
  · obtain rfl := DataTest.fails.inj (hfails.symm.trans he)
    exact ⟨img.seg g', (List.mem_map_of_mem hg' : _ ∈ dataRegs.map img.seg), e, u, hn, raise _ herror, hwhy⟩

/-- Settles O35: the image is read after the outgoing task is saved, and refused before it is loaded. -/
theorem virtualModeImageIsRefused : Obligations.VirtualModeImageIsRefused := by
  intro c sel ext d img ldt retEip s h hvm
  obtain ⟨m, hm, himg⟩ := h.reads_image
  have hload : loadTask c sel d retEip s = .error (.refused .virtual8086Image) := by
    simp [loadTask, hm, himg, show flagVm img.eflags = true from hvm]
  simp only [taskSwitch, h.target.1, h.locates ext, pagesPresent_of_flat h.flat.flat, hload, orElse_true, run_ok_bind, run_error_bind]

end

section
/-! PROOFS. What a task switch leaves: the fields it stores, the flags it loads, and the state its exceptions are raised in (41 R132 to R145,
R149). -/

namespace Sys2Proof.Machine

/-! ### NT of the incoming task (41 R143, R144) -/

theorem loadedFlags_nt (c : Cause) (f : Word) :
    (c = .call ∨ c = .int → (loadedFlags c f).getLsbD 14 = true) ∧ (c = .jmp → (loadedFlags c f).getLsbD 14 = false) := by
  cases c <;> simp [loadedFlags, setNt, clearNt]

theorem loadedFlags_other (c : Cause) (f : Word) {k : Nat} (hk : k ≠ 14) : (loadedFlags c f).getLsbD k = f.getLsbD k := by
  have hset : ∀ j < 32, j ≠ 14 → (0x00004000#32).getLsbD j = false := by decide
  have hclear : ∀ j < 32, j ≠ 14 → (0xFFFFBFFF#32).getLsbD j = true := by decide
  by_cases h : k < 32
  · cases c <;> simp [loadedFlags, setNt, clearNt, hset k h hk, hclear k h hk]
  · rw [BitVec.getLsbD_of_ge _ _ (by omega), BitVec.getLsbD_of_ge _ _ (by omega)]

/-! ### What an image holds -/

theorem loadGprs_reads {x : Xlat} {m : Memory} {base : Word} {g : Gprs} (h : loadGprs x m base = some g) (r : Reg) :
    linRead4 x m .sysRead (base + tssReg r) = some (g.get r) := by
  simp only [loadGprs, Option.bind_eq_bind, Option.bind_eq_some_iff] at h
  obtain ⟨eax, h0, ecx, h1, edx, h2, ebx, h3, esp, h4, ebp, h5, esi, h6, edi, h7, h⟩ := h
  cases h
  cases r
  exacts [h0, h1, h2, h3, h4, h5, h6, h7]

/-- An image is what the slots of the TSS hold (10 R22, 41 R142). -/
theorem loadImage_reads {x : Xlat} {m : Memory} {base : Word} {img : Image} (h : loadImage x m base = some img) :
    linRead4 x m .sysRead (base + tssEflags) = some img.eflags ∧ linRead4 x m .sysRead (base + tssEip) = some img.eip ∧
      (∀ r, linRead4 x m .sysRead (base + tssReg r) = some (img.regs.get r)) ∧
      ∀ r, linRead2 x m .sysRead (base + tssSeg r) = some (img.seg r) := by
  unfold loadImage at h
  obtain ⟨ldt, -, h⟩ := Option.bind_eq_some_iff.1 h
  obtain ⟨eflags, hflags, h⟩ := Option.bind_eq_some_iff.1 h
  obtain ⟨eip, heip, h⟩ := Option.bind_eq_some_iff.1 h
  obtain ⟨regs, hregs, h⟩ := Option.bind_eq_some_iff.1 h
  obtain ⟨es, hes, h⟩ := Option.bind_eq_some_iff.1 h
  obtain ⟨cs, hcs, h⟩ := Option.bind_eq_some_iff.1 h
  obtain ⟨ss, hss, h⟩ := Option.bind_eq_some_iff.1 h
  obtain ⟨ds, hds, h⟩ := Option.bind_eq_some_iff.1 h
  obtain ⟨fs, hfs, h⟩ := Option.bind_eq_some_iff.1 h
  obtain ⟨gs, hgs, h⟩ := Option.bind_eq_some_iff.1 h
  split at h
  all_goals
    obtain ⟨pdbr, -, h⟩ := Option.bind_eq_some_iff.1 h
    cases h
    refine ⟨hflags, heip, loadGprs_reads hregs, fun r => ?_⟩
    cases r
    exacts [hes, hcs, hss, hds, hfs, hgs]

/-! ### The memory of a completed switch -/

section Completed
variable {c : Cause} {sel : Sel} {ext : Bool} {retEip : Word} {s t : State} {d : Descriptor}

/-- A completed switch made all its stores, in order. -/
theorem taskSwitch_runs (h : taskSwitch c sel ext retEip s = .ok t) (hd : s.desc sel = .found d) :
    runStores s.xlat .sysWrite s.mem (switchStores c sel (descBase d) retEip s) = some t.mem := by
  obtain ⟨d', img, r⟩ := taskSwitch_result h
  obtain rfl := Lookup.found.inj (r.found.symm.trans hd)
  obtain ⟨m, hm, -, hm'⟩ := r.image
  exact runStores_append.2 ⟨m, hm, hm'⟩

/-- Where linear addresses map to themselves, a completed switch changed memory at its stores only. -/
theorem taskSwitch_near (h : taskSwitch c sel ext retEip s = .ok t) (hd : s.desc sel = .found d)
    (hx : s.xlat.FlatUnder (switchStores c sel (descBase d) retEip s) s.mem) :
    Near (switchAddrs c sel (descBase d) retEip s) s.mem t.mem :=
  runStores_near hx (fun _ h => h) (Near.refl _ _) (taskSwitch_runs h hd)

/-- A completed switch to a ready target does not rewrite the image it loaded (41 R143). -/
theorem loadImage_of_completed {img : Image} {ldt : LdtReg} (hr : LoadReady c sel d img ldt retEip s)
    (h : taskSwitch c sel ext retEip s = .ok t) : loadImage s.xlat t.mem (descBase d) = some img := by
  obtain ⟨-, -, -, hd, -⟩ := hr.target
  have hnear := taskSwitch_near h hd hr.flat
  exact (loadImage_congr hr.flat.flat (hr.flat _ hnear) hnear (apart_iff.1 hr.tssApart)).trans hr.image

end Completed

/-! ### TS is not read (41 R139) -/

/-- A completed switch reads of CR0 no more than PG: with any other CR0 that agrees on PG and, once TS is set, on the rest, it ends alike. -/
theorem taskSwitch_of_cr0 {c : Cause} {sel : Sel} {ext : Bool} {retEip cr0 : Word} {s t : State}
    (hpg : cr0.getLsbD 31 = s.cr0.getLsbD 31) (hts : setTs cr0 = setTs s.cr0) (h : taskSwitch c sel ext retEip s = .ok t) :
    taskSwitch c sel ext retEip { s with cr0 := cr0 } = .ok t := by
  have hx : ({ s with cr0 := cr0 } : State).xlat = s.xlat := by simp only [State.xlat, State.pg, hpg]
  have hacc (a : Word) : ({ s with cr0 := cr0 } : State).accessible a = s.accessible a := by rw [State.accessible, hx]; rfl
  have hfirst : ({ s with cr0 := cr0 } : State).firstAccessible c = s.firstAccessible c := by
    cases c
    case jmp =>
      rw [State.firstAccessible, hx]
      rfl
    all_goals exact hacc _
  have hwhole (d : Descriptor) : ({ s with cr0 := cr0 } : State).wholeAccessible sel d = s.wholeAccessible sel d := by
    simp only [State.wholeAccessible, hx, funext hacc]
    rfl
  have hcommon (m : Memory) (d : Descriptor) (p : Word) : commonMapping { s with cr0 := cr0 } m d p = commonMapping s m d p := by
    rw [commonMapping, hx, State.pg, hpg]
    rfl
  obtain ⟨hv, d, hd, hpages, s1, hload, s2, htests, b, hb, rfl⟩ := taskSwitch_ok.1 h
  obtain ⟨m, img, m', hm, himg, hvm, hcm, hm', hcm', rfl⟩ := loadTask_ok.1 hload
  refine taskSwitch_ok.2 ⟨hv, d, locateTss_ok.2 ?_, pagesPresent_ok_iff.2 ?_, enterTask c sel d img m' s,
    loadTask_ok.2 ⟨m, img, m', ?_, ?_, hvm, ?_, ?_, ?_, ?_⟩, s2, ?_, b, ?_, rfl⟩
  · have hdesc : State.desc { s with cr0 := cr0 } sel = s.desc sel := by rw [State.desc, hx]; rfl
    rw [hdesc]
    exact locateTss_ok.1 hd
  · rw [hfirst, hwhole]
    exact pagesPresent_ok_iff.1 hpages
  · rw [hx]
    exact hm
  · rwa [hx]
  · rwa [hcommon]
  · rw [hx]
    exact hm'
  · rwa [hcommon]
  · simp only [enterTask, hts]
  · rwa [hx]
  · rwa [hx]

/-- Flipping TS changes no other bit. -/
theorem flipTs_bits (f : Word) : (f ^^^ 0x00000008#32).getLsbD 31 = f.getLsbD 31 ∧ setTs (f ^^^ 0x00000008#32) = setTs f := by
  refine ⟨by simp, BitVec.eq_of_getLsbD_eq fun i hi => ?_⟩
  simp only [setTs, BitVec.getLsbD_or, BitVec.getLsbD_xor]
  cases f.getLsbD i <;> cases (0x00000008#32).getLsbD i <;> rfl

end Sys2Proof.Machine

open Sys2Proof Sys2Proof.Machine

/-- Settles O30: an exception is raised before anything changed, or by tests 4 to 16, which change nothing that the loads left visible. -/
theorem contextOfASwitchException : Obligations.ContextOfASwitchException := by
  intro c sel ext retEip s t r h
  rcases taskSwitch_raised h with h | ⟨d, s1, hd, hload, ⟨hctx, hexc⟩, v⟩
  · exact .inl h
  · obtain ⟨-, -, hfound, -⟩ := locateTss_ok.1 hd
    have hruns := loadTask_runs hload
    rw [← v.mem] at hruns
    obtain ⟨m, img, m', hm, himg, -, -, -, -, rfl⟩ := loadTask_ok.1 hload
    exact .inr ⟨hctx, hexc, d, m, img, hfound, hm, himg, v.regs, v.eip, v.eflags, v.cpl, v.sels .es, v.sels .cs, v.sels .ss,
      v.sels .ds, v.sels .fs, v.sels .gs, v.ldtSel, v.pdbr, v.cr0, v.gdt, v.idt, v.tr, runStores_ok hruns,
      fun hx hw hn => switchStores_stored hx hw hn hruns⟩

/-- Settles O36: a completed switch leaves CR0 with TS set, and its run reads only PG of CR0. -/
theorem everySwitchSetsTs : Obligations.EverySwitchSetsTs := by
  intro c sel ext retEip s t h
  obtain ⟨d, img, r⟩ := taskSwitch_result h
  have hcr0 := r.cr0
  obtain ⟨hpg, hts⟩ := flipTs_bits s.cr0
  refine ⟨?_, fun k hk => by rw [hcr0, setTs_other _ hk], taskSwitch_of_cr0 hpg hts h⟩
  rw [State.msw, BitVec.getLsbD_extractLsb', hcr0, setTs_ts]
  rfl

/-- Settles O37: the cause decides NT alone, and the image that was loaded still stands in the incoming TSS. -/
theorem nestedTaskFlag : Obligations.NestedTaskFlag := by
  refine ⟨fun c sel ext retEip s t h => ?_, fun c sel ext d img ldt retEip s t hr h => ?_⟩
  · obtain ⟨d, img, r⟩ := taskSwitch_result h
    rw [r.eflags]
    exact loadedFlags_nt c img.eflags
  · obtain ⟨t', ht', hsw, -⟩ := taskSwitch_of_ready ext hr
    obtain rfl : t' = t := Except.ok.inj (ht'.symm.trans h)
    rw [hsw.eflags]
    refine ⟨fun k hk => loadedFlags_other c _ hk, fun hc => by rw [hc, loadedFlags], ?_⟩
    exact (loadImage_reads (loadImage_of_completed hr.toLoadReady h)).1

/-- Settles O38: the stores of the switch, all made, are read back. -/
theorem switchStoresItsFields : Obligations.SwitchStoresItsFields := fun _ _ _ _ _ _ _ hd hx hm hn h =>
  switchStores_stored hx hm hn (taskSwitch_runs h hd)

end

section
/-! PROOFS. A CALL and the IRET of the called task restore the caller (41 R136, R163; 42 R174, R180). -/

namespace Sys2Proof.Machine

/-- The general registers are known by their names. -/
theorem Gprs.eq_of_get {g g' : Gprs} (h : ∀ r, g.get r = g'.get r) : g = g' := by
  cases g
  cases g'
  rw [Gprs.mk.injEq]
  exact ⟨h .eax, h .ecx, h .edx, h .ebx, h .esp, h .ebp, h .esi, h .edi⟩

/-- The selectors of a completed switch, by register. -/
theorem SwitchResult.sels {c : Cause} {sel : Sel} {retEip : Word} {s t : State} {d : Descriptor} {img : Image}
    (h : SwitchResult c sel retEip s t d img) (g : SReg) : (t.segs.get g).sel = img.seg g := by
  cases g
  exacts [h.es, h.cs, h.ss, h.ds, h.fs, h.gs]

/-- The image read from a TSS in which a task was saved is the task that was saved. -/
theorem image_of_stored {c : Cause} {sel : Sel} {d : Descriptor} {retEip : Word} {s t : State} {img : Image}
    (h : SwitchStored c sel d retEip s t) (himg : loadImage s.xlat t.mem s.tr.base = some img) :
    img.regs = s.regs ∧ img.eip = retEip ∧ img.eflags = savedFlags c s.eflags ∧ ∀ g, img.seg g = (s.segs.get g).sel := by
  obtain ⟨hflags, heip, hregs, hsegs⟩ := loadImage_reads himg
  exact ⟨Gprs.eq_of_get fun r => Option.some.inj ((hregs r).symm.trans (h.regs r)), Option.some.inj (heip.symm.trans h.eip),
    Option.some.inj (hflags.symm.trans h.eflags), fun g => Option.some.inj ((hsegs g).symm.trans (h.segs g))⟩

/-- With paging off a completed switch leaves the translation as it was. -/
theorem SwitchResult.xlat_of_pg_off {c : Cause} {sel : Sel} {retEip : Word} {s t : State} {d : Descriptor} {img : Image}
    (h : SwitchResult c sel retEip s t d img) (hpg : s.pg = false) : t.xlat = s.xlat := by
  obtain ⟨m, -, himg, -⟩ := h.image
  have hpdbr := loadImage_pdbr himg
  rw [if_neg (by simp [hpg])] at hpdbr
  rw [State.xlat, pg_of_setTs h.cr0, h.pdbr, ← Option.some.inj hpdbr]
  rfl

/-- Byte 5 of a descriptor that the GDT holds is a byte of the GDT. -/
theorem busyByteAddr_mem {s : State} {v : Sel} {d : Descriptor} (hti : selTi v = false) (hd : s.desc v = .found d) :
    s.busyByteAddr v ∈ span s.gdt.base (s.gdt.limit.toNat + 1) :=
  gdtByte_mem (k := 5) ((desc_found hti).1 hd).1 (by decide)

/-- The bytes of a descriptor of the GDT. -/
theorem mem_descAddrs {s : State} {ldt : LdtReg} {v : Sel} {a : Word} (hti : selTi v = false) (h : a ∈ descAddrs s ldt v) :
    ∃ k < 8, a = s.gdtByte (selIndex v) k := by
  rw [descAddrs, hti, if_neg Bool.false_ne_true] at h
  exact mem_span.1 h

/-! ### The structures of the two tasks -/

/-- A task about to CALL another: each TSS lies apart from the other and from the GDT, and the selectors name the two descriptors (70 R234). -/
structure CallPair (v : Sel) (a d : Descriptor) (s : State) : Prop where
  callerTi : selTi s.tr.sel = false
  caller : s.desc s.tr.sel = .found a
  callerBusy : isBusy a = true
  callerBase : descBase a = s.tr.base
  calledTi : selTi v = false
  called : s.desc v = .found d
  calledFree : isBusy d = false
  tssApart : apart (span s.tr.base 0x68) (span (descBase d) 0x68) = true
  callerApart : apart (span s.tr.base 0x68) (span s.gdt.base (s.gdt.limit.toNat + 1)) = true
  calledApart : apart (span (descBase d) 0x68) (span s.gdt.base (s.gdt.limit.toNat + 1)) = true

namespace CallPair
variable {v : Sel} {a d : Descriptor} {s t : State} {retEip : Word}

/-- No two stores of the CALL are to one byte. -/
theorem nodup (h : CallPair v a d s) : (switchAddrs .call v (descBase d) retEip s).Nodup := by
  have hsaved {x : Word} (hx : x ∈ savedAddrs .call retEip s) := (savedAddrs_span hx).1
  have hlink {x : Word} (hx : x ∈ span (descBase d) 2) : x ∈ span (descBase d) 0x68 := span_mono hx (by decide)
  have hbusy := busyByteAddr_mem h.calledTi h.called
  rw [Loaded.addrs]
  simp only [clearsOutgoingBusy, setsIncomingBusy, writesBackLink, if_true, Bool.false_eq_true, if_false, List.nil_append,
    List.nodup_append, List.nodup_singleton, List.mem_append, List.mem_singleton]
  refine ⟨⟨savedAddrs_nodup _ _ _, trivial, ?_⟩, by simp [span], ?_⟩
  · rintro x hx _ rfl rfl
    exact apart_iff.1 h.callerApart _ (hsaved hx) hbusy
  · rintro x (hx | rfl) _ hy rfl
    · exact apart_iff.1 h.tssApart _ (hsaved hx) (hlink hy)
    · exact apart_iff.1 h.calledApart _ (hlink hy) hbusy

/-- The CALL stores to no byte of the caller's descriptor: the called task's is another one, being not busy. -/
theorem descriptor_apart (h : CallPair v a d s) {x : Word} {k : Nat} (hk : k < 8) (hx : x = s.gdtByte (selIndex s.tr.sel) k) :
    x ∉ switchAddrs .call v (descBase d) retEip s := by
  obtain ⟨hin, hread⟩ := (desc_found h.callerTi).1 h.caller
  have hgdt : x ∈ span s.gdt.base (s.gdt.limit.toNat + 1) := hx ▸ gdtByte_mem hin hk
  intro hm
  rcases Loaded.mem_addrs hm with ⟨-, hc⟩ | ⟨hbusy, -⟩ | hm | ⟨-, hm⟩
  · cases hc
  · have hindex := (gdtByte_inj hk (by decide) (hx.symm.trans hbusy)).1
    have hread' := ((desc_found h.calledTi).1 h.called).2
    rw [← hindex, hread] at hread'
    have := h.calledFree
    rw [← Option.some.inj hread', h.callerBusy] at this
    cases this
  · exact apart_iff.1 h.callerApart _ (savedAddrs_span hm).1 hgdt
  · exact apart_iff.1 h.calledApart _ (span_mono hm (by decide)) hgdt

/-- After the CALL the caller's selector still names the caller's descriptor. -/
theorem caller_after (h : CallPair v a d s) (hpg : s.pg = false) (hx : t.xlat = s.xlat) (hgdt : t.gdt = s.gdt)
    (hnear : Near (switchAddrs .call v (descBase d) retEip s) s.mem t.mem) : t.desc s.tr.sel = .found a := by
  have hread : lookup t.xlat t.mem s.gdt s.ldtr s.tr.sel = s.desc s.tr.sel :=
    lookup_congr (Xlat.flat_of_pg_off hpg _) (Xlat.flat_of_pg_off (hx ▸ hpg) _) hnear fun y hm => by
      obtain ⟨k, hk, hy⟩ := mem_descAddrs h.callerTi hm
      exact h.descriptor_apart hk hy
  rw [State.desc, hgdt, lookup_gdt h.callerTi, hread, h.caller]

/-- The IRET stores into the called task's TSS and the GDT, and so to no byte of the caller's TSS. -/
theorem iret_apart (h : CallPair v a d s) (hsel : t.tr.sel = v) (hbase : t.tr.base = descBase d) (hgdt : t.gdt = s.gdt) {x : Word}
    (hx : x ∈ span s.tr.base 0x68) : x ∉ switchAddrs .iret s.tr.sel (descBase a) retEip t := by
  intro hm
  rcases Loaded.mem_addrs hm with ⟨hbusy, -⟩ | ⟨-, hc⟩ | hm | ⟨hc, -⟩
  · rw [State.gdtByte, hgdt, hsel] at hbusy
    exact apart_iff.1 h.callerApart _ hx (hbusy ▸ busyByteAddr_mem h.calledTi h.called)
  · cases hc
  · exact apart_iff.1 h.tssApart _ hx (hbase ▸ (savedAddrs_span hm).1)
  · cases hc

/-- With paging off, the switch back along the link that the CALL left loads what the CALL saved. -/
theorem restored {u : State} {link : Sel} {ext ext' : Bool} {retEip' : Word} (h : CallPair v a d s) (hpg : s.pg = false)
    (hw : Memory.wf s.mem = true) (hcall : taskSwitch .call v ext retEip s = .ok t)
    (hlink : linRead2 t.xlat t.mem .sysRead (t.tr.base + tssBackLink) = some link)
    (hiret : taskSwitch .iret link ext' retEip' t = .ok u) :
    u.regs = s.regs ∧ u.eip = retEip ∧ u.eflags = s.eflags ∧ (∀ g, (u.segs.get g).sel = (s.segs.get g).sel) ∧
      u.cpl = selRpl s.segs.cs.sel ∧ u.tr.sel = s.tr.sel ∧ u.tr.base = s.tr.base := by
  obtain ⟨d', img, r⟩ := taskSwitch_result hcall
  obtain rfl : d' = d := Lookup.found.inj (r.found.symm.trans h.called)
  have hx : t.xlat = s.xlat := r.xlat_of_pg_off hpg
  have hstored : SwitchStored .call v d' retEip s t :=
    switchStores_stored (Xlat.flatUnder_of_pg_off hpg _ _) hw h.nodup (taskSwitch_runs hcall h.called)
  rw [hx, r.tr, add_tssBackLink, hstored.backLink rfl] at hlink
  obtain rfl := Option.some.inj hlink
  have hcaller := h.caller_after hpg hx r.gdt (taskSwitch_near hcall h.called (Xlat.flatUnder_of_pg_off hpg _ _))
  obtain ⟨a', img', q⟩ := taskSwitch_result hiret
  obtain rfl : a' = a := Lookup.found.inj (q.found.symm.trans hcaller)
  obtain ⟨m, hm, himg, -⟩ := q.image
  have hflat (m : Memory) : s.xlat.Flat m := Xlat.flat_of_pg_off hpg m
  have hnear : Near (switchAddrs .iret s.tr.sel (descBase a') retEip' t) t.mem m := by
    have := runStores_near (L := outgoingStores .iret retEip' t ++ incomingStores .iret s.tr.sel t)
      (Xlat.flatUnder_of_pg_off (hx ▸ hpg) _ _) (fun _ h => h) (Near.refl _ _) hm
    refine this.mono fun y hy => ?_
    rw [switchAddrs, switchStores, addrsOf_append]
    exact List.mem_append_left _ hy
  rw [hx, h.callerBase, loadImage_congr (hflat t.mem) (hflat m) hnear fun y hy =>
    h.iret_apart (by rw [r.tr]) (by rw [r.tr]) r.gdt (mem_span_of_offset (k := 0x1C) hy (by decide))] at himg
  obtain ⟨hregs, heip, hflags, hsegs⟩ := image_of_stored hstored himg
  refine ⟨q.regs.trans hregs, q.eip.trans heip, q.eflags.trans hflags, fun g => (q.sels g).trans (hsegs g), ?_, ?_, ?_⟩
  · rw [q.cpl]
    exact congrArg selRpl (hsegs .cs)
  · rw [q.tr]
  · rw [q.tr]
    exact h.callerBase

end CallPair

/-- IRET with NT = 1 is the return along the back-link (42 R174). -/
theorem exec_iret_of_nt {pre : List Prefix} {s : State} (h : flagNt s.eflags = true) :
    exec (.iret pre) s = finish (returnToLink (s.nextEip (.iret pre)) s) := by
  rw [exec, execIret, h, orElse_true, run_ok_bind]

end Sys2Proof.Machine

open Sys2Proof Sys2Proof.Machine

/-- Settles O57: the IRET finds NT set and the back-link of the CALL, and reads from the caller's TSS what the CALL saved there. -/
theorem callThenIretRestoresTheCaller : Obligations.CallThenIretRestoresTheCaller := by
  intro i v a d img ldt pre s t u hpg hw ho hr _ hti ha hab hbase hss hsg hdg hm hexec hret
  obtain ⟨-, -, hvti, hd, -, -, hfree, -⟩ := hr.target
  have pair : CallPair v a d s := ⟨hti, ha, hab, hbase, hvti, hd, hfree, hss, hsg, hdg⟩
  obtain ⟨t', hcall, -⟩ := taskSwitch_completes false hr
  obtain rfl : t' = t := by
    rw [exec_far_ready ho hm hr, hcall, finish_ok] at hexec
    exact Host.Outcome.next.inj hexec
  obtain ⟨-, link, hlink, hiret⟩ := returnToLink_ok.1 hret
  have hnt : flagNt t'.eflags = true := by
    obtain ⟨d', img', r⟩ := taskSwitch_result hcall
    rw [r.eflags]
    exact (loadedFlags_nt .call img'.eflags).1 (.inl rfl)
  exact ⟨by rw [exec_iret_of_nt hnt, hret, finish_ok], pair.restored hpg hw hcall hlink hiret⟩

end

section
/-! PROOFS. Far transfers outside the spec, and the offset that is not used (42 R170, R173). -/

namespace Sys2Proof.Machine
open Sys2Proof.Laws

section OtherTargets
variable {c : Cause} {v : Sel} {eip : Word} {s : State}

theorem farTransfer_null (hn : selNull v = true) : farTransfer c v eip s = .error (.refused .farNullSelector) := by
  rw [farTransfer, hn, Bool.not_true, orElse_false, run_error_bind]

theorem farTransfer_outOfBounds (hn : selNull v = false) (hd : s.desc v = .outOfBounds) :
    farTransfer c v eip s = .error (.refused .farSelectorOutOfBounds) := by
  simp [farTransfer, hn, hd]

theorem farTransfer_notTask {d : Descriptor} (hn : selNull v = false) (hd : s.desc v = .found d) (ht : isTss d = false)
    (hg : isTaskGate d = false) : farTransfer c v eip s = .error (.refused .farTargetNotTask) := by
  simp [farTransfer, hn, hd, ht, hg]

end OtherTargets

/-- Far JMPs and CALLs of one length, to one selector with one cause, answer alike: an operand acts by its selector, and the length gives
the EIP that is saved. -/
theorem exec_far_congr {s : State} {i i' : Instr} {c : Cause} {v : Sel} (h : FarOperand s i c v) (h' : FarOperand s i' c v)
    (hlen : i.length = i'.length) : exec i s = exec i' s := by
  rw [exec_of_farOperand h, exec_of_farOperand h', State.nextEip, State.nextEip, hlen]

/-- An instruction whose row has one length has that length after its prefixes, whatever its operands hold. -/
theorem length_of_one_bound {i : Instr} (h : EncodedLength.Statement i) (hb : (EncodedLength.bounds i).1 = (EncodedLength.bounds i).2) :
    i.length = i.pre.length + (EncodedLength.bounds i).2 :=
  Nat.le_antisymm h.2 (hb ▸ h.1)

end Sys2Proof.Machine

open Sys2Proof Sys2Proof.Machine Sys2Proof.Laws

/-- Settles O25: the three targets that a far transfer refuses. -/
theorem otherFarTransfersAreRefused : Obligations.OtherFarTransfersAreRefused := by
  intro i c v s ho
  rw [exec_of_farOperand ho]
  refine ⟨fun hn => ?_, fun hn hd => ?_, fun d hn hd ht hg => ?_⟩
  · rw [farTransfer_null hn, finish_refused]
  · rw [farTransfer_outOfBounds hn hd, finish_refused]
  · rw [farTransfer_notTask hn hd ht hg, finish_refused]

/-- Settles O26: with any offset the instruction has the same selector and the same length. -/
theorem offsetIsNotUsed : Obligations.OffsetIsNotUsed := by
  refine ⟨fun pre off off' v s => ⟨?_, ?_⟩, fun pre off off' v s => ⟨?_, ?_⟩, fun i c v s ho => exec_of_farOperand ho⟩
  · have len (o : BitVec 32) := length_of_one_bound (EncodedLength.jmpPtr32 pre o v) rfl
    exact exec_far_congr ⟨rfl, rfl⟩ ⟨rfl, rfl⟩ ((len off).trans (len off').symm)
  · have len (o : BitVec 32) := length_of_one_bound (EncodedLength.callPtr32 pre o v) rfl
    exact exec_far_congr ⟨rfl, rfl⟩ ⟨rfl, rfl⟩ ((len off).trans (len off').symm)
  · have len (o : BitVec 16) := length_of_one_bound (EncodedLength.jmpPtr16 pre o v) rfl
    exact exec_far_congr ⟨rfl, rfl⟩ ⟨rfl, rfl⟩ ((len off).trans (len off').symm)
  · have len (o : BitVec 16) := length_of_one_bound (EncodedLength.callPtr16 pre o v) rfl
    exact exec_far_congr ⟨rfl, rfl⟩ ⟨rfl, rfl⟩ ((len off).trans (len off').symm)

end

section
/-! PROOFS. IRET, the interrupt instructions and the external interrupt (42 R174 to R177). -/

namespace Sys2Proof.Machine

section Vector
variable {n : BitVec 8} {ext dplCheck : Bool} {retEip : Word} {s : State} {g : Descriptor}

/-- Through a task gate: its DPL where it is checked, then its presence, then the switch (42 R176, R177). -/
theorem vectorToTask_gate (hd : s.idtEntry n = .found g) (hg : isTaskGate g = true) :
    vectorToTask n ext dplCheck retEip s =
      if dplCheck = true ∧ (descDpl g).toNat < s.cpl.toNat then .error (raising .gp (idtErrCode n ext) .outgoing s)
      else if descPresent g then taskSwitch .int (gateSelector g) ext retEip s
      else .error (raising .np (idtErrCode n ext) .outgoing s) := by
  rw [vectorToTask, hd]
  cases dplCheck <;> cases hp : descPresent g <;> simp [hg, hp, orElse_bind]

theorem vectorToTask_notGate (hd : s.idtEntry n = .found g) (hg : isTaskGate g = false) :
    vectorToTask n ext dplCheck retEip s = .error (.refused (.idtEntryNotTaskGate n)) := by
  simp [vectorToTask, hd, hg]

/-- A present task gate whose DPL is not checked, or passes, leads to its task. -/
theorem vectorToTask_switch (hd : s.idtEntry n = .found g) (hg : isTaskGate g = true) (hp : descPresent g = true)
    (hc : dplCheck = true → s.cpl.toNat ≤ (descDpl g).toNat) :
    vectorToTask n ext dplCheck retEip s = taskSwitch .int (gateSelector g) ext retEip s := by
  rw [vectorToTask_gate hd hg, if_neg (fun h => absurd (hc h.1) (Nat.not_le.2 h.2)), if_pos hp]

end Vector

theorem idtErrCode_noExt (n : BitVec 8) : idtErrCode n false = n.setWidth 16 * 8#16 + 2#16 := BitVec.add_zero _

theorem idtErrCode_ext (n : BitVec 8) : idtErrCode n true = n.setWidth 16 * 8#16 + 3#16 := BitVec.add_assoc _ _ _

/-- An interrupt instruction enters its vector with EXT 0, under the open check, and saves the next EIP (42 R176). -/
theorem exec_of_intVector {s : State} {i : Instr} {n : BitVec 8} (h : IntVector s i n) :
    exec i s = finish (vectorToTask n false Config.intGateDplCheck (s.nextEip i) s) := by
  cases i with
  | intImm | int3 =>
    obtain rfl := h
    rfl
  | into =>
    obtain ⟨rfl, hof⟩ := h
    exact if_pos hof
  | ltr | str | jmpPtr32 | jmpPtr16 | jmpMem | callPtr32 | callPtr16 | callMem | iret => exact h.elim

/-- INTO with OF = 0 is no interrupt: EIP advances (42 R176). -/
theorem exec_into_of_not_flagOf {pre : List Prefix} {s : State} (h : flagOf s.eflags = false) :
    exec (.into pre) s = .next { s with eip := s.nextEip (.into pre) } := if_neg (Bool.eq_false_iff.1 h)

/-- IRET with NT = 0 is refused (42 R175; log 35). -/
theorem exec_iret_of_not_nt {pre : List Prefix} {s : State} (h : flagNt s.eflags = false) :
    exec (.iret pre) s = .refused .iretWithinTask := by
  rw [exec, execIret, h, orElse_false, run_error_bind, finish_refused]

/-- The environment presents an interrupt at this boundary (60 R201). -/
theorem step_of_interrupt {s : State} {n : BitVec 8} {rest : List (Option (BitVec 8))} (hd : s.debugPending = false)
    (he : s.extInts = some n :: rest) : step s = externalInterrupt n { s with extInts := rest } := by
  simp [step, State.boundary, hd, he]

end Sys2Proof.Machine

open Sys2Proof Sys2Proof.Machine

/-- Settles O47: the return reads the back-link and is the switch along it. -/
theorem iretReturnsAlongTheBackLink : Obligations.IretReturnsAlongTheBackLink := by
  intro pre link d img ldt s hnt hlink hr
  obtain ⟨t, ht, hcompletes⟩ := taskSwitch_completes false hr
  obtain ⟨hvalid, -⟩ := hr.target
  have hret : returnToLink (s.nextEip (.iret pre)) s = .ok t :=
    returnToLink_ok.2 ⟨hvalid, link, by rwa [add_tssBackLink], ht⟩
  exact ⟨t, by rw [exec_iret_of_nt hnt, hret, finish_ok], hcompletes⟩

/-- Settles O48. -/
theorem iretWithinATaskIsRefused : Obligations.IretWithinATaskIsRefused := fun _ _ h => exec_iret_of_not_nt h

/-- Settles O49: the branches of the entry through an IDT entry, and INTO by OF. -/
theorem interruptInstructionByItsRule : Obligations.InterruptInstructionByItsRule := by
  refine ⟨fun i n g s hi hd => ⟨fun hg => ?_, fun hg => ?_⟩, fun pre s hof => exec_into_of_not_flagOf hof⟩
  · rw [exec_of_intVector hi, vectorToTask_gate hd hg, idtErrCode_noExt, apply_ite finish, apply_ite finish]
    rfl
  · rw [exec_of_intVector hi, vectorToTask_notGate hd hg, finish_refused]

/-- Settles O50: the instruction is the switch, which completes to a ready target. -/
theorem interruptInstructionCompletes : Obligations.InterruptInstructionCompletes := by
  intro i n g d img ldt s hi hd hg hp hc hr
  obtain ⟨t, ht, hcompletes⟩ := taskSwitch_completes false hr
  exact ⟨t, by rw [exec_of_intVector hi, vectorToTask_switch hd hg hp hc, ht, finish_ok], hcompletes⟩

/-- Settles O9: the boundary accepts the interrupt, which enters through the gate with no privilege check. -/
theorem externalInterruptSwitches : Obligations.ExternalInterruptSwitches := by
  intro s n l g hpending hints hd hg
  have hstep := step_of_interrupt hpending hints
  rw [externalInterrupt] at hstep
  refine ⟨fun hp => ?_, fun hp => ?_⟩
  · rw [hstep, vectorToTask_gate hd hg, if_neg (fun h => Bool.false_ne_true h.1), hp, if_neg Bool.false_ne_true, finish_raising,
      idtErrCode_ext]
  · rw [vectorToTask_switch hd hg hp (fun h => absurd h Bool.false_ne_true)] at hstep
    refine ⟨hstep, fun d img ldt hr => ?_⟩
    obtain ⟨t, ht, hcompletes⟩ := taskSwitch_completes true hr
    exact ⟨t, by rw [hstep, ht, finish_ok], hcompletes⟩

end

section
/-! PROOFS. An exception enters its handler task, and its error code is pushed there (42 R178, R181, R182; 60 R203). -/

namespace Sys2Proof.Machine

/-! ### A 4-byte value written and read back -/

theorem span_four_nodup (a : Word) : (span a 4).Nodup := by simp [span_four]

/-- With paging off a 4-byte value that is written is read back, whatever the kinds of access. -/
theorem linRead4_of_linWrite {x : Xlat} {acc acc' : Access} {m m' : Memory} {a v : Word} (hpg : x.pg = false)
    (hw : Memory.wf m = true) (h : linWrite x acc m a (bytes4 v) = some m') : linRead4 x m' acc' a = some v := by
  have hn : (addrsOf (storeBytes a (bytes4 v))).Nodup := by
    rw [addrsOf_storeBytes]
    exact span_four_nodup a
  refine linRead4_of_holds (Xlat.flat_of_pg_off hpg m') (holds_of_read fun st hst b => ?_)
  rw [runStores_read (Xlat.flatUnder_of_pg_off hpg _ m) (fun _ h => h) (Near.refl _ m) hw hn h hst]
  simp only [bytes4, storeBytes, List.mem_cons, List.not_mem_nil, or_false] at hst
  rcases hst with rfl | rfl | rfl | rfl <;> rfl

/-- With paging off the push of an error code completes where the stack segment allows it: 4 bytes, zero-extended, at the new ESP (42 R182;
log 10). -/
theorem pushErrorCode_completes {s : State} (code : BitVec 16) (hpg : s.pg = false) (hw : Memory.wf s.mem = true)
    (ha : s.segs.ss.cache.allows (s.regs.esp - 4#32) 4 true = true) :
    ∃ m, pushErrorCode code s = .ok { s with regs := { s.regs with esp := s.regs.esp - 4#32 }, mem := m } ∧
      StoresOnly s.xlat (.progWrite s.cpl)
        (storeBytes (s.segs.ss.cache.base + (s.regs.esp - 4#32)) (bytes4 (code.setWidth 32))) s.mem m ∧
      linRead4 s.xlat m (.progRead s.cpl) (s.segs.ss.cache.base + (s.regs.esp - 4#32)) = some (code.setWidth 32) := by
  obtain ⟨m, hm⟩ := linWrite_of_flat (a := s.segs.ss.cache.base + (s.regs.esp - 4#32)) (bs := bytes4 (code.setWidth 32))
    (Xlat.flatUnder_of_pg_off (x := s.xlat) hpg _ s.mem) (.progWrite s.cpl)
  refine ⟨m, ?_, linWrite_ok hm, linRead4_of_linWrite hpg hw hm⟩
  have hm' : linWrite s.xlat (.progWrite s.cpl) s.mem (s.linear { seg := .ss, off := s.regs.esp - 4#32 })
      (bytes4 (code.setWidth 32)) = some m := hm
  simp [pushErrorCode, ha, hm', run_pure]

/-! ### The entry into the handler task -/

section Handler
variable {r : Raise} {g d : Descriptor} {img : Image} {ldt : LdtReg} {s t u : State}

theorem enterHandler_of_noCode (hp : descPresent g = true) (hc : r.code = none)
    (h : taskSwitch .int (gateSelector g) true s.eip s = .ok t) : enterHandler r g s = .ok t := by
  simp [enterHandler, hp, hc, h, run_pure]

theorem enterHandler_of_code {code : BitVec 16} (hp : descPresent g = true) (hc : r.code = some code)
    (h : taskSwitch .int (gateSelector g) true s.eip s = .ok u) : enterHandler r g s = pushErrorCode code u := by
  simp [enterHandler, hp, hc, h, Config.errcodePush]

/-- An exception whose IDT entry is a task gate ends where the entry into the handler task does. -/
theorem deliver_of_enterHandler (hd : s.idtEntry (vectorOf r.exc) = .found g) (hg : isTaskGate g = true)
    (h : enterHandler r g (recorded r s) = .ok t) : deliver r s = .next t := by
  simp [deliver, enterThroughIdt, hd, hg, h]

@[simp] theorem recorded_pg (r : Raise) (s : State) : (recorded r s).pg = s.pg := by rw [State.pg, recorded_cr0, State.pg]

@[simp] theorem recorded_descIn (r : Raise) (s : State) (ldt : LdtReg) (v : Sel) :
    (recorded r s).descIn ldt v = s.descIn ldt v := by
  rw [State.descIn, recorded_xlat, recorded_mem, recorded_gdt, State.descIn]

/-- A segment register loaded from a selector that is not null holds the invisible part of its descriptor. -/
theorem LoadedSeg.cache_eq {v : Sel} {x : SegReg} {k : Descriptor} (h : LoadedSeg s ldt v x) (hn : selNull v = false)
    (hk : s.descIn ldt v = .found k) : x.cache = .ofDesc k := by
  obtain ⟨-, ⟨hnull, -⟩ | ⟨-, k', hk', hcache⟩⟩ := h
  · rw [hn] at hnull
    cases hnull
  · obtain rfl : k' = k := Lookup.found.inj (hk'.symm.trans hk)
    exact hcache

end Handler

end Sys2Proof.Machine

open Sys2Proof Sys2Proof.Machine

/-- Settles O52: the switch to the handler task completes, and then its stack, whose segment is that of the image, takes the error code. -/
theorem exceptionEntersHandlerTask : Obligations.ExceptionEntersHandlerTask := by
  intro r g d img ldt s hd hg hp hr
  obtain ⟨u, hu, hcompletes⟩ := taskSwitch_completes true hr
  rw [← recorded_eip r s] at hu
  refine ⟨fun hc => ⟨u, deliver_of_enterHandler hd hg (enterHandler_of_noCode hp hc hu), hcompletes⟩,
    fun code k hc hpg hw hk ha => ?_⟩
  have ⟨hsw, hstores, _⟩ := hcompletes
  obtain ⟨hnull, -⟩ := hr.stack
  have hss : u.segs.ss.cache = .ofDesc k := hsw.ss.cache_eq hnull (by rwa [recorded_descIn])
  have hpg' : u.pg = false := by rw [pg_of_setTs hsw.cr0, recorded_pg, hpg]
  have hw' : Memory.wf u.mem = true := hstores.1 (by rwa [recorded_mem])
  rw [← hsw.regs] at ha ⊢
  obtain ⟨m, hpush, hm, hread⟩ := pushErrorCode_completes code hpg' hw' (by rwa [hss])
  rw [hss] at hm hread
  exact ⟨u, _, hcompletes, deliver_of_enterHandler hd hg ((enterHandler_of_code hp hc hu).trans hpush), rfl, hm, hread⟩

end

section
/-! PROOFS. What taking an exception leaves unchanged, its terminal outcomes, and its vectors and error codes (42 R182; 60 R190 to R207). -/

namespace Sys2Proof.Machine

/-! ### The ends of a delivery -/

section Delivery
variable {r : Raise} {g d : Descriptor} {s t u : State}

/-- A handler task is entered through a present gate, and an error code the exception has is pushed (42 R178, R182). -/
theorem enterHandler_ok_iff : enterHandler r g s = .ok t ↔
    descPresent g = true ∧ ∃ u, taskSwitch .int (gateSelector g) true s.eip s = .ok u ∧
      ((r.code = none ∧ t = u) ∨ ∃ code, r.code = some code ∧ pushErrorCode code u = .ok t) := by
  simp only [enterHandler, run_bind_ok, orElse_ok, Config.errcodePush, if_true, run_pure]
  cases r.code with
  | none => simp [eq_comm (a := t)]
  | some code => simp

/-- Through a present gate, what stops the switch stops the entry. -/
theorem enterHandler_of_switch_error {e : Stop} (hp : descPresent g = true)
    (h : taskSwitch .int (gateSelector g) true s.eip s = .error e) : enterHandler r g s = .error e := by
  rw [enterHandler, hp, orElse_true, run_ok_bind, h, run_error_bind]

/-- A stack segment that does not take the error code raises SF in the handler task, EXT 1 (60 R196; log 10, log 19). -/
theorem pushErrorCode_disallowed (code : BitVec 16) (ha : u.segs.ss.cache.allows (u.regs.esp - 4#32) 4 true = false) :
    pushErrorCode code u = .error (raising .sf 0x0001 .incoming u) := by
  rw [pushErrorCode, ha, orElse_false]
  rfl

/-- A second exception on the way into the handler task is terminal, recorded with the first (60 R205; log 9). -/
theorem deliver_of_enterHandler_raised {r2 : Raise} {s2 : State} (hd : s.idtEntry (vectorOf r.exc) = .found g)
    (hg : isTaskGate g = true) (h : enterHandler r g (recorded r s) = .error (.raised r2 s2)) :
    deliver r s = .fault (.raisedDuringDelivery r r2 s2) := by
  simp [deliver, enterThroughIdt, hd, hg, h]

/-- An exception with an IDT entry outside the IDT is terminal (log 21). -/
theorem deliver_outOfBounds (hd : s.idtEntry (vectorOf r.exc) = .outOfBounds) :
    deliver r s = .fault (.raised r (recorded r s)) := by
  simp [deliver, enterThroughIdt, hd]

/-- An exception whose IDT entry is no task gate is terminal (60 R190; log 8). -/
theorem deliver_notGate (hd : s.idtEntry (vectorOf r.exc) = .found g) (hg : isTaskGate g = false) :
    deliver r s = .fault (.raised r (recorded r s)) := by
  simp [deliver, enterThroughIdt, hd, hg]

/-- The switch to a busy task that is not a return raises GP selecting it, with the EXT of the switch (41 R129). -/
theorem taskSwitch_busy_ext {c : Cause} {v : Sel} {eip : Word} (ext : Bool) (hc : setsIncomingBusy c = true)
    (hv : s.tr.valid = true) (hn : selNull v = false) (hti : selTi v = false) (hd : s.desc v = .found d)
    (ht : isTss d = true) (hp : descPresent d = true) (hb : isBusy d = true) :
    taskSwitch c v ext eip s = .error (raising .gp (errCode v ext) .outgoing s) := by
  have hexc : targetExc c = .gp := by rw [targetExc_eq, if_neg (setsIncomingBusy_iff.1 hc)]
  refine taskSwitch_of_locate_error hv ?_
  rw [locateTss_found hn hti hd]
  simp [ht, hp, hb, hc, hexc]

end Delivery

/-! ### What an exception records -/

/-- A page fault writes CR2, a debug exception DR6, any other nothing (log 32). -/
theorem recorded_cases (r : Raise) (s : State) :
    (r.exc = .pageFault ∧ recorded r s = { s with cr2 := (recorded r s).cr2, choices := (recorded r s).choices }) ∨
    (r.exc = .debug ∧ recorded r s =
      { s with debugRegs := { s.debugRegs with dr6 := (recorded r s).debugRegs.dr6 }, choices := (recorded r s).choices }) ∨
    (r.exc ≠ .pageFault ∧ r.exc ≠ .debug ∧ recorded r s = s) := by
  by_cases hp : r.exc = .pageFault
  · exact .inl ⟨hp, by simp only [recorded, hp]⟩
  by_cases hd : r.exc = .debug
  · exact .inr (.inl ⟨hd, by simp only [recorded, hd]⟩)
  exact .inr (.inr ⟨hp, hd, recorded_of_other r s hp hd⟩)

/-- What an exception records is none of what a switch stores. -/
@[simp] theorem recorded_switchStores (r : Raise) (s : State) (c : Cause) (sel : Sel) (base eip : Word) :
    switchStores c sel base eip (recorded r s) = switchStores c sel base eip s := by
  rw [recorded_eq]
  rfl

/-! ### Error codes (60 R196) -/

/-- The bits of an error code that selects a selector: EXT, IDT clear, then those of the selector. -/
theorem getLsbD_errCode (v : Sel) (ext : Bool) (i : Nat) :
    (errCode v ext).getLsbD i = if i = 0 then ext else if i = 1 then false else v.getLsbD i := by
  have hext : (if ext then 1#16 else 0#16).getLsbD i = (decide (i = 0) && ext) := by
    cases ext <;> simp [BitVec.getLsbD_one]
  rw [errCode, and_selMask, BitVec.getLsbD_or, hext, BitVec.getLsbD_append]
  match i with
  | 0 => simp
  | 1 => simp
  | i + 2 =>
    have hbit : i < 14 ∨ v.getLsbD (i + 2) = false := (Nat.lt_or_ge i 14).imp_right fun h => BitVec.getLsbD_of_ge v _ (by omega)
    rcases hbit with h | h <;> simp [h, Nat.add_comm 2 i]

/-- The number an error code that selects an IDT entry is: nothing is lost in its 16 bits. -/
theorem idtErrCode_toNat (n : BitVec 8) (ext : Bool) : (idtErrCode n ext).toNat = n.toNat * 8 + 2 + ext.toNat := by
  have hn := n.isLt
  cases ext <;> simp [idtErrCode] <;> omega

end Sys2Proof.Machine

open Sys2Proof Sys2Proof.Machine

/-- Settles O53: what was recorded before the switch, the switch's own frame, and the push of the error code. -/
theorem exceptionFrame : Obligations.ExceptionFrame := by
  intro r s t h
  obtain ⟨g, hd, hg, hent⟩ := deliver_next h
  obtain ⟨hp, u, hu, hend⟩ := enterHandler_ok_iff.1 hent
  rw [recorded_eip] at hu
  obtain ⟨hsel, hmem, -⟩ := taskSwitch_frame hu
  rw [hsel, recorded_xlat, recorded_mem, recorded_switchStores] at hmem
  refine ⟨g, recorded r s, u, hd, hg, hp, recorded_cases r s, hu, hmem, hend.imp_right ?_⟩
  rintro ⟨code, hc, hpush⟩
  obtain ⟨m, hm, rfl⟩ := pushErrorCode_ok hpush
  exact ⟨code, hc, rfl, linWrite_ok hm⟩

/-- Settles O54: the entries that are no way into a handler task. -/
theorem otherDeliveryIsTerminal : Obligations.OtherDeliveryIsTerminal :=
  fun r s => ⟨deliver_outOfBounds, fun _ => deliver_notGate, recorded_eip r s⟩

/-- Settles O55: a busy handler task stops the switch, and a stack that cannot take the error code the push. -/
theorem secondExceptionIsTerminal : Obligations.SecondExceptionIsTerminal := by
  intro r g s hd hg
  refine ⟨fun r2 s2 => deliver_of_enterHandler_raised hd hg, fun d hp hv hn hti hf ht hpd hb => ?_,
    fun d img ldt code k hp hr hc hk ha => ?_⟩
  · refine deliver_of_enterHandler_raised hd hg (enterHandler_of_switch_error hp ?_)
    exact taskSwitch_busy_ext true rfl (by rwa [recorded_tr]) hn hti (by rwa [recorded_desc]) ht hpd hb
  · obtain ⟨u, hu, hsw, -⟩ := taskSwitch_of_ready true hr
    obtain ⟨hnull, -⟩ := hr.stack
    have hss : u.segs.ss.cache = .ofDesc k := hsw.ss.cache_eq hnull (by rwa [recorded_descIn])
    rw [← hsw.regs, ← hss] at ha
    rw [← recorded_eip r s] at hu
    exact ⟨u, deliver_of_enterHandler_raised hd hg ((enterHandler_of_code hp hc hu).trans (pushErrorCode_disallowed code ha))⟩

/-- Settles O56: the vectors by definition, the error codes by their bits and by their value. -/
theorem vectorsAndErrorCodes : Obligations.VectorsAndErrorCodes := by
  refine ⟨rfl, rfl, rfl, rfl, rfl, rfl, fun v ext => ?_, fun n ext => ?_⟩
  · refine ⟨getLsbD_errCode v ext 0, getLsbD_errCode v ext 1, getLsbD_errCode v ext 2, ?_⟩
    refine BitVec.eq_of_getLsbD_eq fun i hi => ?_
    rw [selIndex, BitVec.getLsbD_extractLsb', BitVec.getLsbD_extractLsb', getLsbD_errCode, if_neg (by omega), if_neg (by omega)]
  · have hext := ext.toNat_lt
    simp only [← BitVec.testBit_toNat, Nat.testBit_eq_decide_div_mod_eq, idtErrCode_toNat, decide_eq_true_eq, decide_eq_false_iff_not]
    refine ⟨?_, by omega, by omega, by omega⟩
    cases ext <;> simp <;> omega

end

section
/-! PROOFS. The state after reset, and a machine whose TR has never been loaded (10 R50; 70 R233). -/

namespace Sys2Proof.Machine

section NeverLoaded
variable {s : State}

theorem taskSwitch_of_invalid (c : Cause) (sel : Sel) (ext : Bool) (retEip : Word) (hv : s.tr.valid = false) :
    taskSwitch c sel ext retEip s = .error (.refused .trNeverLoaded) := by
  rw [taskSwitch, hv, orElse_false, run_error_bind]

theorem returnToLink_of_invalid (nextEip : Word) (hv : s.tr.valid = false) :
    returnToLink nextEip s = .error (.refused .trNeverLoaded) := by
  rw [returnToLink, hv, orElse_false, run_error_bind]

end NeverLoaded

end Sys2Proof.Machine

open Sys2Proof Sys2Proof.Machine

/-- Settles O20: LTR that is ready completes with TR valid; what needs TR looks at TR.valid first. -/
theorem trMustBeLoadedFirst : Obligations.TrMustBeLoadedFirst := by
  refine ⟨rfl, fun pre src sel d p s h => ⟨_, exec_ltr_of_ready h, rfl⟩, fun s hv => ⟨fun c sel ext retEip => ?_, fun pre dst => ?_,
    fun pre hnt => ?_⟩⟩
  · exact taskSwitch_of_invalid c sel ext retEip hv
  · exact exec_str_of_invalid dst hv
  · rw [exec_iret_of_nt hnt, returnToLink_of_invalid _ hv, finish_refused]

/-- Settles O10: the segment registers of reset hold flat segments of level 0, and neither TR nor the LDT register is loaded. -/
theorem invariantAtReset : Obligations.InvariantAtReset where
  memWf := rfl
  vmClear := rfl
  cplIsRpl := rfl
  csUsable := rfl
  csIsCode := ⟨rfl, rfl⟩
  ssUsable := rfl
  ssWritable := rfl
  ssLevel := ⟨rfl, rfl⟩
  trInGdt := nofun
  ldtInGdt := nofun

end

section
/-! PROOFS. The task structures stay well formed (70 R234): through what leaves them alone, through LTR, and through a task switch (40 R110; 41
R161 to R163; 42 R174). -/

namespace Sys2Proof.Machine

/-! ### What leaves the structures alone -/

section Unchanged
variable {s t : State} {l left : List Sel}

/-- Every descriptor of the GDT is read as before. -/
theorem upd_of_reads (hg : t.gdt = s.gdt)
    (hr : ∀ a, s.InStructure a → linRead1 t.xlat t.mem .sysRead a = linRead1 s.xlat s.mem .sysRead a) : Upd s t fun _ => id where
  gdt := hg
  fn _ := .inl rfl
  other _ _ hi hk _ := hr _ (gdtByte_inStructure hi hk)
  busy _ hi := by rw [hr _ (gdtByte_inStructure hi (by decide)), Option.map_id_fun, id]

/-- The conditions hold on where the registers that name the structures, their bytes and their translations are as they were. -/
theorem State.TasksWf.of_reads (w : s.TasksWf l left) (hg : t.gdt = s.gdt) (htr : t.tr = s.tr) (hf : t.eflags = s.eflags)
    (hx : t.xlat = s.xlat) (hr : ∀ a, s.InStructure a → linRead1 t.xlat t.mem .sysRead a = linRead1 s.xlat s.mem .sysRead a)
    (hp : ∀ p a acc, s.InStructure a → (s.xlat.under p).phys t.mem a acc = (s.xlat.under p).phys s.mem a acc) :
    t.TasksWf l left := by
  have u := upd_of_reads hg hr
  have hread {v : Sel} {d : Descriptor} (hv : s.TaskAt v d) {a : Word} (ha : a ∈ span (descBase d) 0x68) := hr a (hv.inStructure ha)
  have hcurrent : t.tr.valid = true → ∃ d, t.TaskAt t.tr.sel d ∧ descPresent d = true ∧ isBusy d = true ∧ t.tr.base = descBase d ∧
      t.tr.limit = effectiveLimit d := by
    rw [htr]
    intro hv
    obtain ⟨d, ht, hp, hb, hbase, hlimit⟩ := w.current hv
    obtain ⟨d', ht', hs⟩ := u.after ht
    exact ⟨d', ht', hs.present.trans hp, (hs.kept rfl).trans hb, hbase.trans hs.base.symm, hlimit.trans hs.limit.symm⟩
  have hrunning : t.Running l := by
    have hrun := w.running
    cases l with
    | nil => exact (congrArg TaskReg.valid htr).trans hrun
    | cons v l =>
      obtain ⟨hvalid, hsel, hchain⟩ := hrun
      obtain ⟨d, ht, -, -, hbase, -⟩ := w.current hvalid
      rw [State.Running, htr, hf]
      exact ⟨hvalid, hsel, u.chain hchain (fun _ _ => rfl) (fun _ a ha => hread ht (span_mono (hbase ▸ ha) (by decide)))
        fun _ _ _ hv _ ha => hread hv ha⟩
  refine u.tasksWf w (by rwa [hx]) (by rw [hx]; exact hp s.pdbr) (fun v d hv a ha => hread hv (mem_span_of_offset ha (by decide))) hcurrent hrunning
    w.once fun v d hv hb => ?_
  obtain ⟨e, he, hs⟩ := u.before hv
  exact w.busy v e he ((hs.kept rfl).symm.trans hb)

/-- The conditions speak of TR, EFLAGS, the GDT register, the translation and memory only. -/
theorem State.TasksWf.of_registers (w : s.TasksWf l left) (hg : t.gdt = s.gdt) (htr : t.tr = s.tr) (hf : t.eflags = s.eflags)
    (hx : t.xlat = s.xlat) (hm : t.mem = s.mem) : t.TasksWf l left :=
  w.of_reads hg htr hf hx (fun _ _ => by rw [hx, hm]) fun _ _ _ _ => by rw [hm]

theorem SameButChoices.tasksWf (h : SameButChoices s t) (w : s.TasksWf l left) : t.TasksWf l left := by
  rw [h]
  exact w.of_registers rfl rfl rfl rfl rfl

theorem SameVisible.tasksWf (h : SameVisible s t) (w : s.TasksWf l left) : t.TasksWf l left :=
  w.of_registers h.gdt h.tr h.eflags (by rw [State.xlat, State.xlat, State.pg, State.pg, h.cr0, h.pdbr]) h.mem

end Unchanged

/-! ### LTR (40 R110) -/

/-- What LTR makes of byte 5 of each descriptor of the GDT. -/
def markBusy (sel : Sel) (i : BitVec 13) : Byte → Byte := if i = selIndex sel then setBusyBit else id

theorem markBusy_same (sel : Sel) : markBusy sel (selIndex sel) = setBusyBit := if_pos rfl
theorem markBusy_other {sel : Sel} {i : BitVec 13} (h : i ≠ selIndex sel) : markBusy sel i = id := if_neg h

/-- From `s`, with well-formed task structures, LTR has loaded TR with a task that was not busy, and marked it busy. -/
structure LtrLoaded (sel : Sel) (d : Descriptor) (s t : State) (l left : List Sel) : Prop where
  before : s.TasksWf l left
  task : s.TaskAt sel d
  notBusy : isBusy d = false
  present : descPresent d = true
  stores : Stores s t [(s.busyByteAddr sel, setBusyBit)]
  gdt : t.gdt = s.gdt
  eflags : t.eflags = s.eflags
  tr : t.tr = { valid := true, sel := sel, base := descBase d, limit := effectiveLimit d }

/-- The one store of LTR is to byte 5 of a descriptor of the GDT. -/
theorem ltr_stores {sel : Sel} {d : Descriptor} {s t : State} (ht : s.TaskAt sel d) (hown : s.OwnBytes)
    (hkept : s.xlat.KeptUnder [(s.busyByteAddr sel, setBusyBit)] s.mem) (hwf : Memory.wf s.mem = true) (hx : t.xlat = s.xlat)
    (hrun : runStores s.xlat .sysWrite s.mem [(s.busyByteAddr sel, setBusyBit)] = some t.mem) :
    Stores s t [(s.busyByteAddr sel, setBusyBit)] where
  own := hown
  kept := hkept
  memWf := hwf
  run := hrun
  inside a ha := by
    obtain rfl := List.mem_singleton.1 ha
    exact gdtByte_inStructure ht.inGdt (k := 5) (by decide)
  nodup := List.nodup_singleton _
  pg := congrArg Xlat.pg hx
  alike _ _ _ := by rw [hx]

namespace LtrLoaded
variable {sel : Sel} {d : Descriptor} {s t : State} {l left chain : List Sel}

theorem upd (h : LtrLoaded sel d s t l left) : Upd s t (markBusy sel) := by
  refine h.stores.upd h.gdt (fun i => ?_) (fun st hst _ => ⟨selIndex sel, ?_⟩) fun i _ hi => markBusy_other ?_
  · by_cases hi : i = selIndex sel
    · exact .inr (.inl (if_pos hi))
    · exact .inl (if_neg hi)
  · rw [List.mem_singleton.1 hst, markBusy_same]
    rfl
  · rintro rfl
    exact hi (List.mem_singleton.2 rfl)

/-- LTR stores to no byte of a TSS. -/
theorem read_tss (h : LtrLoaded sel d s t l left) {v : Sel} {e : Descriptor} (hv : s.TaskAt v e) {x : Word}
    (hx : x ∈ span (descBase e) 0x68) : linRead1 t.xlat t.mem .sysRead x = linRead1 s.xlat s.mem .sysRead x := by
  refine h.stores.read_other (hv.inStructure hx) fun hm => ?_
  obtain rfl := List.mem_singleton.1 hm
  exact apart_iff.1 (h.before.gdtApart v e hv) _ hx (busyByteAddr_mem h.task.2.1 h.task.2.2.1)

theorem current (h : LtrLoaded sel d s t l left) : ∃ d', t.TaskAt t.tr.sel d' ∧ descPresent d' = true ∧ isBusy d' = true ∧
    t.tr.base = descBase d' ∧ t.tr.limit = effectiveLimit d' := by
  obtain ⟨d', ht, hs⟩ := h.upd.after h.task
  rw [h.tr]
  exact ⟨d', ht, hs.present.trans h.present, hs.set (markBusy_same sel) h.task.2.2.2, hs.base.symm, hs.limit.symm⟩

/-- A busy task is not the one that LTR loads. -/
theorem index_ne (h : LtrLoaded sel d s t l left) {v : Sel} {e : Descriptor} (hv : s.TaskAt v e) (hb : isBusy e = true) :
    selIndex v ≠ selIndex sel := by
  intro hi
  rw [hv.unique h.task hi, h.notBusy] at hb
  cases hb

/-- The conditions after LTR, the new task and those of its chain being in execution. -/
theorem tasksWf (h : LtrLoaded sel d s t l left) (hc : s.Chain (flagNt s.eflags) (descBase d) chain)
    (hn : (chain.map selIndex).Nodup) : t.TasksWf (sel :: chain) (l ++ left) := by
  have hne : ∀ v ∈ chain, selIndex v ≠ selIndex sel := fun v hv => by
    obtain ⟨e, he, hb⟩ := hc.busy hv
    exact h.index_ne he hb
  have hrunning : t.Running (sel :: chain) := by
    rw [State.Running, h.tr, h.eflags]
    exact ⟨rfl, rfl, h.upd.chain hc (fun v hv => markBusy_other (hne v hv))
      (fun _ x hx => h.read_tss h.task (span_mono hx (by decide))) fun _ _ _ hv _ hx => h.read_tss hv hx⟩
  have honce : ((sel :: chain).map selIndex).Nodup := by
    refine List.nodup_cons.2 ⟨fun hm => ?_, hn⟩
    obtain ⟨v, hv, hi⟩ := List.mem_map.1 hm
    exact hne v hv hi
  refine h.upd.tasksWf h.before (fun p a acc _ => h.stores.under_phys p a acc) (fun a acc ha => h.stores.phys acc ha)
    (fun v e hv x hx => h.read_tss hv (mem_span_of_offset hx (by decide))) (fun _ => h.current) hrunning honce fun v e' hv hb => ?_
  obtain ⟨e, he, hs⟩ := h.upd.before hv
  by_cases hi : selIndex v = selIndex sel
  · rw [hi]
    exact List.mem_cons_self ..
  · have hm := h.before.busy v e he ((hs.kept (markBusy_other hi)).symm.trans hb)
    rw [List.map_append]
    exact List.mem_append_right _ hm

end LtrLoaded

/-- LTR that is ready loads TR as its rule says. -/
theorem ltrLoaded_of_ready {pre : List Prefix} {src : RegMem} {sel : Sel} {d : Descriptor} {p : Word} {s t : State} {l left : List Sel}
    (w : s.TasksWf l left) (h : LtrReady pre src sel d p s) (hwf : Memory.wf s.mem = true) (hown : s.OwnBytes)
    (hkept : s.xlat.KeptUnder [(s.busyByteAddr sel, setBusyBit)] s.mem) (hexec : exec (.ltr pre src) s = .next t) :
    LtrLoaded sel d s t l left := by
  obtain rfl := Host.Outcome.next.inj ((exec_ltr_of_ready h).symm.trans hexec)
  have ht : s.TaskAt sel d := ⟨h.notNull, h.inGdt, h.found, h.isTss⟩
  exact ⟨w, ht, h.notBusy, h.present, ltr_stores ht hown hkept hwf rfl (runStores_cons.2 ⟨p, h.mapped, rfl⟩), rfl, rfl, rfl⟩

/-! ### The task switch (41 R121) -/

theorem OnlyInvisible.sameVisible {s t : State} (h : OnlyInvisible s t) : SameVisible s t where
  regs := h.regs
  eip := h.eip
  eflags := h.eflags
  cpl := h.cpl
  sels r := by
    cases r
    exacts [h.es, h.cs, h.ss, h.ds, h.fs, h.gs]
  cr0 := h.cr0
  pdbr := h.pdbr
  cr2 := h.cr2
  debugRegs := h.debugRegs
  testRegs := h.testRegs
  gdt := h.gdt
  idt := h.idt
  ldtSel := h.ldtSel
  tr := h.tr
  mem := h.mem
  extInts := h.extInts

/-- A switch that completes, or raises in the incoming context, has passed its checks and loaded the task; what comes after changes no visible
register and no memory (41 R149). -/
theorem taskSwitch_loads {c : Cause} {sel : Sel} {ext : Bool} {ret : Word} {s t : State}
    (h : taskSwitch c sel ext ret s = .ok t ∨ ∃ r, r.ctx = .incoming ∧ taskSwitch c sel ext ret s = .error (.raised r t)) :
    s.tr.valid = true ∧ ∃ d s1, locateTss c sel ext s = .ok d ∧ pagesPresent c s sel d = .ok () ∧
      loadTask c sel d ret s = .ok s1 ∧ SameVisible s1 t := by
  rcases h with h | ⟨r, hctx, h⟩
  · obtain ⟨hv, d, hd, hp, s1, hl, s2, ht, b, -, rfl⟩ := taskSwitch_ok.1 h
    exact ⟨hv, d, s1, hd, hp, hl, (runTests_ok ht).1.sameVisible.trans { SameVisible.refl s2 with }⟩
  · have outgoing {e : Stop} (he : RaisedBefore .outgoing s e) : e ≠ .raised r t := fun e' => by
      have := (he r t e').1
      rw [hctx] at this
      cases this
    simp only [taskSwitch, run_bind_error, orElse_error, orElse_ok, orPartWay_error, run_pure, reduceCtorEq, and_false,
      exists_const, or_false, false_or] at h
    obtain ⟨hv, h | ⟨d, hd, h | ⟨⟨⟩, hp, h | ⟨s1, hl, h | ⟨-, ⟨⟩⟩⟩⟩⟩⟩ := h
    · exact (outgoing (locateTss_error h) rfl).elim
    · exact (outgoing (pagesPresent_error h) rfl).elim
    · obtain ⟨x, hx⟩ := loadTask_error h
      cases hx
    · exact ⟨hv, d, s1, hd, hp, hl, (runTests_raised h).2⟩

/-- From well-formed task structures, with stores that land apart and in no page table, a switch has passed its tests 1 to 3 and its page check;
as a return it follows the back-link (42 R174). -/
structure SwitchChecked (c : Cause) (sel : Sel) (ret : Word) (s : State) (d : Descriptor) (l left : List Sel) : Prop where
  before : s.TasksWf l left
  memWf : Memory.wf s.mem = true
  own : s.OwnBytes
  kept : s.xlat.KeptUnder (switchStores c sel (descBase d) ret s) s.mem
  link : c = .iret → flagNt s.eflags = true ∧ linRead2 s.xlat s.mem .sysRead s.tr.base = some sel
  valid : s.tr.valid = true
  task : s.TaskAt sel d
  present : descPresent d = true
  busy : isBusy d = !setsIncomingBusy c
  pages : pagesPresent c s sel d = .ok ()

namespace SwitchChecked
variable {c : Cause} {sel : Sel} {ret : Word} {s t : State} {d : Descriptor} {l left : List Sel}

/-- The incoming task is not the current one: that is busy, and no back-link of its own chain. -/
theorem index_ne (h : SwitchChecked c sel ret s d l left) : selIndex sel ≠ selIndex s.tr.sel := by
  intro hi
  by_cases hc : c = .iret
  · obtain ⟨hnt, hlink⟩ := h.link hc
    have hrun := h.before.running
    have honce := h.before.once
    match l, hrun, honce with
    | [], hv, _ => exact Bool.false_ne_true (hv.symm.trans h.valid)
    | [_], ⟨_, _, hend⟩, _ => exact Bool.false_ne_true (hend.symm.trans hnt)
    | v :: w :: l, ⟨_, hv, _, hw, _⟩, honce =>
      obtain rfl := Option.some.inj (hlink.symm.trans hw)
      exact (List.nodup_cons.1 honce).1 (hv ▸ hi ▸ List.mem_cons_self ..)
  · obtain ⟨a, ha, -, hb, -⟩ := h.before.current h.valid
    rw [← h.task.unique ha hi, h.busy, setsIncomingBusy_iff.2 hc] at hb
    cases hb

/-- The rules of `Loaded` hold of every state with the memory, the TR and the translation of the loaded task. -/
theorem loaded (h : SwitchChecked c sel ret s d l left)
    (hrun : runStores s.xlat .sysWrite s.mem (switchStores c sel (descBase d) ret s) = some t.mem) (hg : t.gdt = s.gdt)
    (hpg : t.pg = s.pg) (htr : t.tr = { valid := true, sel := sel, base := descBase d, limit := effectiveLimit d })
    (hx : ∀ a acc, s.InStructure a → t.xlat.phys s.mem a acc = s.xlat.phys s.mem a acc) :
    ∃ a, Loaded c sel ret s t d a l left := by
  obtain ⟨a, ha, hap, hab, hbase, -⟩ := h.before.current h.valid
  exact ⟨a, h.before, h.valid, h.own, h.kept, h.memWf, hrun, fun x hx => pagesPresent_ok h.pages hx .sysRead (.inl rfl), h.task,
    h.present, h.busy, ha, hap, hab, hbase, h.index_ne, hg, hpg, htr, hx⟩

/-- The EFLAGS and PDBR that step 5 reads are those of the incoming TSS before the switch. -/
theorem image (h : SwitchChecked c sel ret s d l left) {m m' : Memory} {img : Image}
    (hm : runStores s.xlat .sysWrite s.mem (outgoingStores c ret s ++ incomingStores c sel s) = some m)
    (hi : loadImage s.xlat m (descBase d) = some img)
    (hm' : runStores s.xlat .sysWrite m (backLinkStores c (descBase d) s) = some m') :
    linRead4 s.xlat s.mem .sysRead (descBase d + 0x24#32) = some img.eflags ∧
      (s.pg = true → linRead4 s.xlat s.mem .sysRead (descBase d + 0x1C#32) = some img.pdbr) := by
  obtain ⟨a, hl⟩ := h.loaded
    (t := { s with mem := m', tr := { valid := true, sel := sel, base := descBase d, limit := effectiveLimit d } })
    (runStores_append.2 ⟨m, hm, hm'⟩) rfl rfl rfl fun _ _ _ => rfl
  refine ⟨?_, fun hpg => ?_⟩
  · rw [← hl.read_image hm (k := 0x24) (by decide) (by decide)]
    exact (loadImage_reads hi).1
  · rw [← hl.read_image hm (k := 0x1C) (by decide) (by decide)]
    have hpdbr := loadImage_pdbr hi
    rwa [xlat_pg, if_pos hpg] at hpdbr

/-- The loads of a switch, in the words of `Loaded`: the new page directory maps the structures as the old one (20 R74, 70 R244). -/
theorem loaded_of_loadTask (h : SwitchChecked c sel ret s d l left) (hload : loadTask c sel d ret s = .ok t) :
    ∃ a, Loaded c sel ret s t d a l left := by
  have hrun := loadTask_runs hload
  have hk := loadTask_keeps hload
  obtain ⟨m, img, m', hm, hi, -, -, hm', -, rfl⟩ := loadTask_ok.1 hload
  refine h.loaded hrun hk.gdt hk.pg rfl fun a acc ha => ?_
  cases hpg : s.pg with
  | false => rw [Xlat.phys_of_pg_off (hk.pg.trans hpg), Xlat.phys_of_pg_off hpg]
  | true =>
    have hx : (enterTask c sel d img m' s).xlat = s.xlat.under img.pdbr := by rw [State.xlat, hk.pg]; rfl
    rw [hx]
    exact h.before.common sel d img.pdbr h.task ((h.image hm hi hm').2 hpg) a ha acc

/-- The conditions once the task is loaded, for each cause. -/
theorem tasksWf (h : SwitchChecked c sel ret s d l left) (hload : loadTask c sel d ret s = .ok t) :
    t.TasksWf (runningAfter c sel l) (leftAfter c l left) := by
  obtain ⟨a, hl⟩ := h.loaded_of_loadTask hload
  obtain ⟨m, img, m', hm, hi, -, -, hm', -, rfl⟩ := loadTask_ok.1 hload
  cases c with
  | jmp => exact hl.after_jmp ⟨img.eflags, rfl⟩
  | call => exact hl.after_call (.inl rfl) ⟨img.eflags, rfl⟩
  | int => exact hl.after_call (.inr rfl) ⟨img.eflags, rfl⟩
  | iret =>
    obtain ⟨hnt, hlink⟩ := h.link rfl
    exact hl.after_iret hnt hlink fun f hf => Option.some.inj ((h.image hm hi hm').1.symm.trans hf)

end SwitchChecked

end Sys2Proof.Machine

open Sys2Proof Sys2Proof.Machine

/-- Settles O12: a switch that loads its task by the rules of its cause, LTR by its one store; all else by what it leaves as it was. -/
theorem taskStructuresStayWellFormed : Obligations.TaskStructuresStayWellFormed := by
  refine ⟨fun c sel ext ret d s l left w hd ⟨hwf, hown, hkept⟩ hlink => ⟨fun t h => ?_, fun r t hctx h => ?_⟩,
    fun pre src sel d p s t l left chain w hr ⟨hwf, hown, hkept⟩ hc hn h => ?_, fun s t l left w hg htr hf hx ha => ?_⟩
  · obtain ⟨hv, d', s1, hloc, hp, hload, hvis⟩ := taskSwitch_loads h
    obtain ⟨hnull, hti, hd', htss, hpres, hbusy, -⟩ := locateTss_ok.1 hloc
    obtain rfl := Lookup.found.inj (hd'.symm.trans hd)
    have checked : SwitchChecked c sel ret s d' l left :=
      ⟨w, hwf, hown, hkept, hlink, hv, ⟨hnull, hti, hd, htss⟩, hpres, hbusy, hp⟩
    exact hvis.tasksWf (checked.tasksWf hload)
  · rcases taskSwitch_raised h with ⟨-, hs⟩ | ⟨-, -, -, -, ⟨hin, -⟩, -⟩
    · exact hs.tasksWf w
    · exact absurd hin hctx
  · exact (ltrLoaded_of_ready w hr hwf hown hkept h).tasksWf hc hn
  · exact w.of_reads hg htr hf hx (fun a hs => (ha a hs).1) fun p a acc hs => (ha a hs).2 p acc

end
